-- ==== Sys2Proof/Word.lean ====
section
/-! DEFINITION. Sys2Proof/Word.lean: the widths of the quantities the block moves (R11 of 00_scope.md).
Everything is unsigned (R12); the only "word" of this hardware is the byte (R62). -/

namespace Sys2Proof

/-- The addressable unit of both frame buffers (R12, R62). -/
abbrev Byte := BitVec 8

/-- A 16-bit field: ethertype, total length, checksum (R11). -/
abbrev Half := BitVec 16

/-- An IPv4 address or subnet mask (R11). -/
abbrev Ip := BitVec 32

/-- A MAC address (R11). -/
abbrev Mac := BitVec 48

/-- An interface slot index, 8 bits; 0xFF is never a valid interface (R10). -/
abbrev IfIdx := BitVec 8

/-- A string of bytes, first byte first on the wire (R12). -/
abbrev Bytes := List Byte

end Sys2Proof
end

