-- ==== Sys2Proof/Config.lean ====
section
/-! DEFINITION. Sys2Proof/Config.lean: what an implementation fixes (the parameters of R10, 00_scope.md) and the
free values the spec leaves to the environment (R41, R43, R75, R284). -/

namespace Sys2Proof

/-- The parameters of R10. They are arguments of the model: State carries one record of them, which no step
changes, so that every statement over all states is a statement over all parameter values. -/
structure Params where
  /-- N_IF, number of interface slots -/
  nIf         : Nat
  /-- N_RT, route-table capacity -/
  nRt         : Nat
  /-- N_ARP, ARP-cache capacity -/
  nArp        : Nat
  /-- N_LT, learning-table capacity; `none` is the unbounded table R10 allows -/
  nLt         : Option Nat
  /-- MAX_FRAME, largest accepted frame length in bytes -/
  maxFrame    : Nat
  /-- TICKS_PER_SEC -/
  ticksPerSec : Nat
deriving DecidableEq, Repr

/-- The defaults of R10. -/
def Params.default : Params :=
  { nIf := 8, nRt := 64, nArp := 64, nLt := some 1024, maxFrame := 1518, ticksPerSec := 1000 }

/-- The ranges of R10. -/
abbrev Params.Valid (p : Params) : Prop :=
  1 ≤ p.nIf ∧ p.nIf ≤ 255 ∧ 1 ≤ p.nRt ∧ 1 ≤ p.nArp ∧ (∀ n ∈ p.nLt, 1 ≤ n) ∧
    110 ≤ p.maxFrame ∧ p.maxFrame ≤ 65535 ∧ 1 ≤ p.ticksPerSec

namespace Config

/-- FREE VALUE (log entry 2). The status `tx_ok` the transmit primitive returns for the n-th frame the environment
gave no prepared answer for: "a draw: no rule constrains it" (R41). -/
opaque freeTxOk : Nat → Bool

/-- FREE VALUE (log entry 3). The arbiter's n-th choice among several enabled agents: "which steps next is not
fixed" (R75). -/
opaque freeGrant : Nat → Nat

/-- FREE VALUE (log entry 3). The sweeper's n-th choice of a victim: "which member is not fixed" (R284). -/
opaque freeVictim : Nat → Nat

end Config
end Sys2Proof
end

