-- ==== Sys2Proof/Syntax.lean ====
section
/-! DEFINITION. Sys2Proof/Syntax.lean: the operations of the block, one constructor per row of spec/opcode_table.json:
the eight operation records of R91, the five received-frame classes of R114 and the five ICMP emissions of R109. -/

namespace Sys2Proof

/-- The personality, the value of the 1-bit register MODE (R24). -/
inductive Mode where
  | router
  | switch
deriving DecidableEq, Repr

/-- The closed set of ICMP messages the synthesizer emits (R4, R109). -/
inductive IcmpKind where
  /-- (11, 0) -/
  | timeExceeded
  /-- (3, 0) -/
  | netUnreach
  /-- (3, 1) -/
  | hostUnreach
  /-- (3, 3) -/
  | portUnreach
  /-- (0, 0) -/
  | echoReply
deriving DecidableEq, Repr

/-- What level 2 and 3 of the frame classification answer for a datagram addressed to the router (R114). -/
inductive LocalClass where
  | tcp
  | udp
  | echoReq
  | other
deriving DecidableEq, Repr

/-- The operation set. -/
inductive Instr where
  /-- CFG.IFACE ifx, mac, ip (R93, R142) -/
  | cfgIface (ifx : IfIdx) (mac : Mac) (ip : Ip)
  /-- CFG.ROUTE dest, mask, gw, ifx (R94, R144) -/
  | cfgRoute (dest mask gw : Ip) (ifx : IfIdx)
  /-- CFG.ARP ip, mac (R95, R147) -/
  | cfgArp (ip : Ip) (mac : Mac)
  /-- CFG.MODE mode (R96, R149) -/
  | cfgMode (mode : Mode)
  /-- CFG.COMMIT (R97, R150) -/
  | cfgCommit
  /-- RX in_if, len, F; `len` is the length of `frame` (R98, R200, R260) -/
  | rx (inIf : IfIdx) (frame : Bytes)
  /-- TICK (R99, R280) -/
  | tick
  /-- SWEEP.DEL mac, the sweeper's internal step (R99, R284) -/
  | sweepDel (mac : Mac)
  /-- FRAME.IPV4: the frame in RXB has ethertype 0x0800 (R202) -/
  | frameIpv4
  /-- FRAME.LOCAL.TCP: dst is local and proto = 6 (R206) -/
  | frameLocalTcp
  /-- FRAME.LOCAL.UDP: dst is local and proto = 17 (R206) -/
  | frameLocalUdp
  /-- FRAME.LOCAL.ECHOREQ: dst is local, proto = 1, pl >= 4 and ICMP type 8 (R206) -/
  | frameLocalEchoreq
  /-- FRAME.LOCAL.OTHER: dst is local, none of the three above (R206) -/
  | frameLocalOther
  /-- ICMP.TIME_EXCEEDED (R246) -/
  | icmpTimeExceeded
  /-- ICMP.NET_UNREACH (R247) -/
  | icmpNetUnreach
  /-- ICMP.HOST_UNREACH (R248) -/
  | icmpHostUnreach
  /-- ICMP.PORT_UNREACH (R249) -/
  | icmpPortUnreach
  /-- ICMP.ECHO_REPLY (R250) -/
  | icmpEchoReply
deriving DecidableEq, Repr

end Sys2Proof
end

