-- ==== Sys2Proof/WellFormed.lean ====
section
/-! DEFINITION. Sys2Proof/WellFormed.lean: which terms of Instr an encoding exists for. Every operand but the frame of
RX has its field's width by its type; the frame's length must fit the 16-bit `len` field (R98). -/

namespace Sys2Proof

/-- The one check the types do not make already. -/
def Instr.wellFormed : Instr → Bool
  | .cfgIface _ _ _ => true
  | .cfgRoute _ _ _ _ => true
  | .cfgArp _ _ => true
  | .cfgMode _ => true
  | .cfgCommit => true
  | .rx _ frame => decide (frame.length < 65536)
  | .tick => true
  | .sweepDel _ => true
  | .frameIpv4 => true
  | .frameLocalTcp => true
  | .frameLocalUdp => true
  | .frameLocalEchoreq => true
  | .frameLocalOther => true
  | .icmpTimeExceeded => true
  | .icmpNetUnreach => true
  | .icmpHostUnreach => true
  | .icmpPortUnreach => true
  | .icmpEchoReply => true

/-- Rows of format CTL or FRM: the operations that are records of their own (R90, R91). -/
def Instr.isRecord : Instr → Bool
  | .cfgIface _ _ _ => true
  | .cfgRoute _ _ _ _ => true
  | .cfgArp _ _ => true
  | .cfgMode _ => true
  | .cfgCommit => true
  | .rx _ _ => true
  | .tick => true
  | .sweepDel _ => true
  | .frameIpv4 => false
  | .frameLocalTcp => false
  | .frameLocalUdp => false
  | .frameLocalEchoreq => false
  | .frameLocalOther => false
  | .icmpTimeExceeded => false
  | .icmpNetUnreach => false
  | .icmpHostUnreach => false
  | .icmpPortUnreach => false
  | .icmpEchoReply => false

end Sys2Proof
end

