-- ==== Sys2Proof/Decode.lean ====
section
/-! DEFINITION. Sys2Proof/Decode.lean: byte order (R63), the decoder of operation records (R90 to R99, R113, R115), the
frame classification (R114), the ICMP type and code values (R109), and after them the encoder written from the same
tables. Rows of format CTL and FRM are records; rows of format ICMPOUT are the two bytes 34 and 35 of a synthesized
frame (R110); rows of format FRAME have no word of their own: they are classes of received frames. -/

namespace Sys2Proof

/-! ## Byte order -/

/-- The big-endian value of a byte string: `be16`, `be32`, `be48` of R12 and the value of MemRead in R60. -/
def beNat : Bytes → Nat
  | [] => 0
  | b :: r => b.toNat * 256 ^ r.length + beNat r

/-- The `n` big-endian bytes of `v`, the bytes MemWrite stores (R61). -/
def beBytes : Nat → Nat → Bytes
  | 0, _ => []
  | n + 1, v => BitVec.ofNat 8 (v / 256 ^ n) :: beBytes n v

/-- `F[a .. a+n)`, the byte string of `n` bytes at offset `a` (R12). -/
def span (F : Bytes) (a n : Nat) : Bytes := (F.drop a).take n

/-- The big-endian value of the `n` bytes at offset `a`. -/
def field (F : Bytes) (a n : Nat) : Nat := beNat (span F a n)

/-! ## Operation records -/

/-- Why a record is illegal (R115 (a)). -/
inductive Illegal where
  /-- the first byte is an opcode R91 does not list -/
  | undefinedOpcode (op : Byte)
  /-- an opcode of R91 with a nonzero `rsv` bit; which opcode decides the answer (R115 (d), 90_conflicts.md C8) -/
  | reservedBits (op : Byte)
deriving DecidableEq, Repr

/-- What the decoder answers on a stream of bytes. -/
inductive Decoded where
  /-- an operation and the bytes after its record -/
  | record (i : Instr) (rest : Bytes)
  /-- an illegal record, by name, and the bytes after it -/
  | illegal (why : Illegal) (rest : Bytes)
  /-- fewer bytes than the record is long: nothing to execute yet -/
  | incomplete
deriving DecidableEq, Repr

/-- The fields of a 16-byte CTL record (R92 to R97, R99). -/
def decodeCtl (b : Bytes) : Except Illegal Instr :=
  let op := field b 0 1
  if op = 0x01 then
    if field b 12 4 = 0 then
      .ok (.cfgIface (.ofNat 8 (field b 1 1)) (.ofNat 48 (field b 2 6)) (.ofNat 32 (field b 8 4)))
    else .error (.reservedBits (.ofNat 8 op))
  else if op = 0x02 then
    if field b 14 2 = 0 then
      .ok (.cfgRoute (.ofNat 32 (field b 2 4)) (.ofNat 32 (field b 6 4)) (.ofNat 32 (field b 10 4))
        (.ofNat 8 (field b 1 1)))
    else .error (.reservedBits (.ofNat 8 op))
  else if op = 0x03 then
    if field b 1 1 = 0 ∧ field b 12 4 = 0 then
      .ok (.cfgArp (.ofNat 32 (field b 2 4)) (.ofNat 48 (field b 6 6)))
    else .error (.reservedBits (.ofNat 8 op))
  else if op = 0x04 then
    if field b 1 1 = 0 ∧ field b 2 14 = 0 then .ok (.cfgMode .router)
    else if field b 1 1 = 1 ∧ field b 2 14 = 0 then .ok (.cfgMode .switch)
    else .error (.reservedBits (.ofNat 8 op))
  else if op = 0x05 then
    if field b 1 15 = 0 then .ok .cfgCommit else .error (.reservedBits (.ofNat 8 op))
  else if op = 0x20 then
    if field b 1 15 = 0 then .ok .tick else .error (.reservedBits (.ofNat 8 op))
  else if op = 0x21 then
    if field b 1 1 = 0 ∧ field b 8 8 = 0 then .ok (.sweepDel (.ofNat 48 (field b 2 6)))
    else .error (.reservedBits (.ofNat 8 op))
  else .error (.undefinedOpcode (.ofNat 8 op))

/-- The length of the record a stream begins with, from its first four bytes (R113). -/
def recordLength (b : Bytes) : Nat := if field b 0 1 = 0x10 then 4 + field b 2 2 else 16

/-- Decoding an operation record (R113): byte 0 selects the format; an RX record is `4 + len` bytes long, every other
record is 16 bytes long whether or not its opcode is defined. -/
def decodeRecord (b : Bytes) : Decoded :=
  if b.length < 4 then .incomplete
  else if b.length < recordLength b then .incomplete
  else if field b 0 1 = 0x10 then
    .record (.rx (.ofNat 8 (field b 1 1)) (span b 4 (field b 2 2))) (b.drop (recordLength b))
  else
    match decodeCtl (b.take 16) with
    | .ok i => .record i (b.drop 16)
    | .error why => .illegal why (b.drop 16)

/-- Operations the OP port never accepts: SWEEP.DEL has an encoding only so that traces can be written (R91, R115). -/
def Instr.internalOnly : Instr → Bool
  | .cfgIface _ _ _ => false
  | .cfgRoute _ _ _ _ => false
  | .cfgArp _ _ => false
  | .cfgMode _ => false
  | .cfgCommit => false
  | .rx _ _ => false
  | .tick => false
  | .sweepDel _ => true
  | .frameIpv4 => true
  | .frameLocalTcp => true
  | .frameLocalUdp => true
  | .frameLocalEchoreq => true
  | .frameLocalOther => true
  | .icmpTimeExceeded => true
  | .icmpNetUnreach => true
  | .icmpHostUnreach => true
  | .icmpPortUnreach => true
  | .icmpEchoReply => true

/-! ## Frame classes and ICMP emissions -/

/-- Level 1 of R114: 0x0800 is the only ethertype the router recognises (R101). -/
def classifyEthertype (ethertype : Nat) : Option Instr :=
  if ethertype = 0x0800 then some .frameIpv4 else none

/-- Levels 2 and 3 of R114 for a datagram with local `dst`: `proto`, the IPv4 payload length and the first byte of the
payload (examined only when `proto = 1` and `pl >= 4`). -/
def classifyLocal (proto pl first : Nat) : LocalClass :=
  if proto = 6 then .tcp
  else if proto = 17 then .udp
  else if proto = 1 ∧ 4 ≤ pl ∧ first = 8 then .echoReq
  else .other

/-- The opcode-table row of a local class. -/
def LocalClass.instr : LocalClass → Instr
  | .tcp => .frameLocalTcp
  | .udp => .frameLocalUdp
  | .echoReq => .frameLocalEchoreq
  | .other => .frameLocalOther

/-- The ICMP type byte (R109). -/
def IcmpKind.icmpType : IcmpKind → Byte
  | .timeExceeded => 11
  | .netUnreach => 3
  | .hostUnreach => 3
  | .portUnreach => 3
  | .echoReply => 0

/-- The ICMP code byte (R109). -/
def IcmpKind.icmpCode : IcmpKind → Byte
  | .timeExceeded => 0
  | .netUnreach => 0
  | .hostUnreach => 1
  | .portUnreach => 3
  | .echoReply => 0

/-- The opcode-table row of an ICMP message. -/
def IcmpKind.instr : IcmpKind → Instr
  | .timeExceeded => .icmpTimeExceeded
  | .netUnreach => .icmpNetUnreach
  | .hostUnreach => .icmpHostUnreach
  | .portUnreach => .icmpPortUnreach
  | .echoReply => .icmpEchoReply

/-- The message a (type, code) pair names; every pair outside R109's closed set is refused. -/
def decodeIcmpKind (typ code : Byte) : Option IcmpKind :=
  if typ = 11 ∧ code = 0 then some .timeExceeded
  else if typ = 3 ∧ code = 0 then some .netUnreach
  else if typ = 3 ∧ code = 1 then some .hostUnreach
  else if typ = 3 ∧ code = 3 then some .portUnreach
  else if typ = 0 ∧ code = 0 then some .echoReply
  else none

/-- The ICMPOUT row of a (type, code) pair. -/
def decodeIcmpOut (typ code : Byte) : Option Instr := (decodeIcmpKind typ code).map IcmpKind.instr

/-! ## The encoder -/

/-- `n` zero bytes, the `rsv` fields. -/
def zeros (n : Nat) : Bytes := List.replicate n 0

/-- The words of an instruction. CTL and FRM rows: the record (R92 to R99). ICMPOUT rows: the type and code bytes.
FRAME rows have no word: the empty string. -/
def encode : Instr → Bytes
  | .cfgIface ifx mac ip =>
      0x01 :: ifx :: (beBytes 6 mac.toNat ++ beBytes 4 ip.toNat ++ zeros 4)
  | .cfgRoute dest mask gw ifx =>
      0x02 :: ifx :: (beBytes 4 dest.toNat ++ beBytes 4 mask.toNat ++ beBytes 4 gw.toNat ++ zeros 2)
  | .cfgArp ip mac => 0x03 :: 0 :: (beBytes 4 ip.toNat ++ beBytes 6 mac.toNat ++ zeros 4)
  | .cfgMode .router => 0x04 :: 0 :: zeros 14
  | .cfgMode .switch => 0x04 :: 1 :: zeros 14
  | .cfgCommit => 0x05 :: zeros 15
  | .rx inIf frame => 0x10 :: inIf :: (beBytes 2 frame.length ++ frame)
  | .tick => 0x20 :: zeros 15
  | .sweepDel mac => 0x21 :: 0 :: (beBytes 6 mac.toNat ++ zeros 8)
  | .frameIpv4 => []
  | .frameLocalTcp => []
  | .frameLocalUdp => []
  | .frameLocalEchoreq => []
  | .frameLocalOther => []
  | .icmpTimeExceeded => [IcmpKind.timeExceeded.icmpType, IcmpKind.timeExceeded.icmpCode]
  | .icmpNetUnreach => [IcmpKind.netUnreach.icmpType, IcmpKind.netUnreach.icmpCode]
  | .icmpHostUnreach => [IcmpKind.hostUnreach.icmpType, IcmpKind.hostUnreach.icmpCode]
  | .icmpPortUnreach => [IcmpKind.portUnreach.icmpType, IcmpKind.portUnreach.icmpCode]
  | .icmpEchoReply => [IcmpKind.echoReply.icmpType, IcmpKind.echoReply.icmpCode]

/-! ## The table's bit numbering -/

/-- The bytes of a row's word: the table numbers a record as one big-endian number (R90), so byte 0 is the most
significant; the bytes the table gives no bits to (the frame of RX) are zero. -/
def tableBytes (nbits w : Nat) : Bytes :=
  let b := beBytes (nbits / 8) w
  b ++ zeros (recordLength b - b.length)

/-- The instruction the decoder reads from a row's word: 16 bits are a row of format ICMPOUT, more are a record. -/
def decodeTableWord (nbits w : Nat) : Option Instr :=
  if nbits = 16 then decodeIcmpOut (.ofNat 8 (w / 256)) (.ofNat 8 w)
  else
    match decodeRecord (tableBytes nbits w) with
    | .record i _ => some i
    | .illegal _ _ => none
    | .incomplete => none

end Sys2Proof
end

