-- ==== Sys2Proof/Machine/State.lean ====
section
/-! DEFINITION. Sys2Proof/Machine/State.lean: the state of VNET-DP (R20 to R42 of 10_state.md), the environment's inputs
and the block's outputs as plain data, and the state after reset. -/

namespace Sys2Proof.Machine

open Sys2Proof

/-- One slot of the interface table (R27). `mac` and `ip` are never read while `valid = false`. -/
structure IfSlot where
  valid : Bool
  mac   : Mac
  ip    : Ip
deriving DecidableEq, Repr

/-- The slot of an interface that is not defined (R42; `mac` and `ip` unspecified: log entry 5). -/
def IfSlot.undefined : IfSlot := { valid := false, mac := 0, ip := 0 }

/-- One valid entry of the route table (R28). `gw = 0` marks a directly connected route. -/
structure RouteEntry where
  dest : Ip
  mask : Ip
  gw   : Ip
  ifx  : IfIdx
deriving DecidableEq, Repr

/-- One valid entry of the ARP cache (R29). -/
structure ArpEntry where
  ip  : Ip
  mac : Mac
deriving DecidableEq, Repr

/-- One row of the learning table (R31): egress interface and time of the last sighting. -/
structure LtRow where
  ifx  : IfIdx
  seen : Nat
deriving DecidableEq, Repr

/-- The stage index, the block's program counter (R23). -/
inductive Stage where
  | s0
  | s1
  | s1p
  | s2
  | s3
  | s4
  | s5
  | s6
  | s7
  | s8
  | icmp
  | done
deriving DecidableEq, Repr

/-- The per-frame working values (R22), undefined outside the RX operation that computes them. `in_if` is `rxIf` and
`len` is the length of `rxb` in State; `hl`, `pl` are computed from `ihl`, `tl` (R203). -/
structure Work where
  ethertype : Half
  ihl       : BitVec 4
  tl        : Half
  csumRx    : Half
  ttlRx     : Byte
  ttlNew    : Byte
  csumNew   : Half
  proto     : Byte
  src       : Ip
  dst       : Ip
  /-- `r`: entry or none -/
  route     : Option RouteEntry
  nh        : Ip
  nhMac     : Mac
  smac      : Mac
  dmac      : Mac
  /-- the (type, code) argument of the synthesizer (R231) -/
  icmp      : IcmpKind
deriving DecidableEq, Repr

/-- Working values outside an operation (unspecified, R42: log entry 5). -/
def Work.blank : Work :=
  { ethertype := 0, ihl := 0, tl := 0, csumRx := 0, ttlRx := 0, ttlNew := 0, csumNew := 0, proto := 0, src := 0,
    dst := 0, route := none, nh := 0, nhMac := 0, smac := 0, dmac := 0, icmp := .timeExceeded }

/-- Result codes (R301). -/
inductive ResCode where
  | done
  | forwarded
  | icmpSent
  | icmpAbandonedNoRoute
  | icmpAbandonedNoArp
  | dropNotIpv4
  | dropMalformed
  | dropBadCsum
  | dropLocalOther
  | dropSameIface
  | dropNotLive
  | swDirected
  | swFlooded
  | cfgFailed
  | illegalOp
deriving DecidableEq, Repr

/-- The `learn` field of a result record (R40). -/
inductive Learn where
  | none
  | inserted
  | refreshed
  | tableFull
deriving DecidableEq, Repr

/-- The result record RES (R40). -/
structure Res where
  code     : ResCode
  icmpType : Byte
  icmpCode : Byte
  txCount  : Byte
  sendFail : Bool
  learn    : Learn
deriving DecidableEq, Repr

/-- One frame handed to the transmit primitive (R66). -/
structure Tx where
  ifx   : IfIdx
  bytes : Bytes
deriving DecidableEq, Repr

/-- The phases, derived from LIVE and CFG_ERR (R26, R320). -/
inductive Phase where
  | config
  | live
  | failed
deriving DecidableEq, Repr

/-- The agents that perform steps (R71). -/
inductive Agent where
  | framePort
  | timebase
  | sweeper
deriving DecidableEq, Repr

/-- What the environment presents to the block: parameters of the step relation (R43), held as plain data. The answers
and choices it prepares are used first; when a list is empty the free value of Config stands in. -/
structure Env where
  /-- the reset input (R340) -/
  resetIn   : Bool
  /-- bytes of operation records waiting at the OP port, next byte first (R90) -/
  opPort    : Bytes
  /-- TICK records the timebase has waiting (R71 (2)) -/
  ticksDue  : Nat
  /-- prepared `tx_ok` answers (R41) -/
  txAnswers : List Bool
  /-- prepared grants of the arbiter (R75) -/
  grants    : List Agent
  /-- prepared choices of the sweeper (R284) -/
  victimPicks : List Mac
  /-- how many free values have been drawn -/
  draws     : Nat
deriving DecidableEq, Repr

/-- What the block has put on its TX and RES ports since power-up, oldest first (R40, R66). -/
structure Out where
  tx  : List Tx
  res : List Res
deriving DecidableEq, Repr

/-- The machine. `par` is fixed (R10); `mode` to `victims` is the state R20 names; `stage` to `work` is the transient
state of one RX operation; `env` and `out` are the ports. -/
structure State where
  par     : Params
  /-- MODE (R24) -/
  mode    : Mode
  /-- LIVE (R25) -/
  live    : Bool
  /-- CFG_ERR (R26) -/
  cfgErr  : Bool
  /-- IF, N_IF slots (R27) -/
  ifs     : List IfSlot
  /-- RT, the valid entries in load order; RT_CNT is its length (R28) -/
  rt      : List RouteEntry
  /-- ARP, the valid entries in load order; ARP_CNT is its length (R29) -/
  arp     : List ArpEntry
  /-- LT, a finite map in one canonical form: keys strictly rising (R31) -/
  lt      : List (Mac × LtRow)
  /-- NOW (R33) -/
  now     : Nat
  /-- VICTIMS, a finite set, keys strictly rising (R34) -/
  victims : List Mac
  /-- the stage index (R23) -/
  stage   : Stage
  /-- RXB[0..RXLEN); RXLEN is its length (R35) -/
  rxb     : Bytes
  /-- RXIF (R35) -/
  rxIf    : IfIdx
  /-- TXB[0..TXLEN); TXLEN is its length (R36) -/
  txb     : Bytes
  work    : Work
  env     : Env
  out     : Out
deriving DecidableEq, Repr

/-- Why a step stops with a fault. -/
inductive Fault where
  /-- Raised by MemRead and by the byte-string reads of RXB when the bytes asked for are not below RXLEN (R60: "A model
  should make an out-of-range MemRead a fault"). No operation begun by `step` raises it; only a mid-operation state no
  run reaches can. Safe. -/
  | frameReadOutOfRange (addr n : Nat)
  /-- Raised by stages S6, S7, S8 when no route is latched in the working values (R22: undefined outside the operation
  that computes them). Only a mid-operation state no run reaches can raise it. Safe. -/
  | workingValueUndefined
deriving DecidableEq, Repr

/-- Why a step is refused. -/
inductive Refusal where
  /-- Raised by `exec` alone, for an instruction whose meaning has not been written. Safe. -/
  | notModelled (mnemonic : String)
deriving DecidableEq, Repr

/-- The environment at power-up: nothing presented. -/
def Env.idle : Env :=
  { resetIn := false, opPort := [], ticksDue := 0, txAnswers := [], grants := [], victimPicks := [], draws := 0 }

/-- The state after reset of a block with the given parameters (R42). -/
def State.resetWith (p : Params) : State :=
  { par := p, mode := .router, live := false, cfgErr := false, ifs := List.replicate p.nIf IfSlot.undefined, rt := [],
    arp := [], lt := [], now := 0, victims := [], stage := .done, rxb := [], rxIf := 0, txb := [], work := Work.blank,
    env := Env.idle, out := { tx := [], res := [] } }

/-- The machine right after reset (R42, R340, R341), with the default parameters of R10. -/
def State.reset : State := State.resetWith Params.default

end Sys2Proof.Machine
end

