-- ==== Sys2Proof/Machine/Operands.lean ====
section
/-! DEFINITION. Sys2Proof/Machine/Operands.lean: how an operation reaches its operands: MemRead and the byte strings of
the ingress buffer (R60, R12), MemWrite into the egress buffer (R61), the interface slots (R27) and the values R203
derives from the working values. -/

namespace Sys2Proof.Machine

open Sys2Proof

/-- What an operation answers. -/
abbrev Outc := Host.Outcome State Fault Refusal

/-- RXLEN, the valid length of the ingress buffer (R35). -/
def State.rxLen (s : State) : Nat := s.rxb.length

/-- TXLEN, the length of the egress buffer (R36). -/
def State.txLen (s : State) : Nat := s.txb.length

/-- RT_CNT (R28). -/
def State.rtCnt (s : State) : Nat := s.rt.length

/-- ARP_CNT (R29). -/
def State.arpCnt (s : State) : Nat := s.arp.length

/-- MemRead(addr, n): the big-endian value of `n` bytes of RXB; a read past RXLEN has no value (R60). -/
def State.memRead (s : State) (addr n : Nat) : Option Nat :=
  if addr + n ≤ s.rxLen then some (field s.rxb addr n) else none

/-- Continue with MemRead(addr, n), or fault where it is out of range (R60). -/
def withRead (s : State) (addr n : Nat) (k : Nat → Outc) : Outc :=
  match s.memRead addr n with
  | some v => k v
  | none => .fault (.frameReadOutOfRange addr n)

/-- Continue with the byte string F[addr .. addr+n), or fault where it is out of range. -/
def withSlice (s : State) (addr n : Nat) (k : Bytes → Outc) : Outc :=
  if addr + n ≤ s.rxLen then k (span s.rxb addr n) else .fault (.frameReadOutOfRange addr n)

/-- Overwrite the bytes at offset `addr` with the string `v`; a buffer shorter than `addr` is filled up with zeros. -/
def writeBytes (b : Bytes) (addr : Nat) (v : Bytes) : Bytes :=
  b.take addr ++ zeros (addr - b.length) ++ v ++ b.drop (addr + v.length)

/-- MemWrite(addr, n, v) on a buffer (R61). -/
def memWrite (b : Bytes) (addr n v : Nat) : Bytes := writeBytes b addr (beBytes n v)

/-- The slot of an interface index; an index at or above N_IF names no slot (R27). -/
def State.ifSlot (s : State) (i : IfIdx) : IfSlot := s.ifs.getD i.toNat IfSlot.undefined

/-- `i < N_IF and IF[i].valid = 1`. -/
def State.ifValid (s : State) (i : IfIdx) : Bool := decide (i.toNat < s.par.nIf) && (s.ifSlot i).valid

/-- `hl = 4 * ihl`, the header length in bytes (R112). -/
def Work.hl (w : Work) : Nat := 4 * w.ihl.toNat

/-- `pl = tl - hl`, the length of the IPv4 payload (R104, R203). -/
def Work.pl (w : Work) : Nat := w.tl.toNat - w.hl

/-- The phase: FAILED if CFG_ERR = 1, else LIVE if LIVE = 1, else CONFIG (R26). -/
def State.phase (s : State) : Phase := if s.cfgErr then .failed else if s.live then .live else .config

end Sys2Proof.Machine
end

