-- ==== Sys2Proof/Machine/Checksum.lean ====
section
/-! DEFINITION. Sys2Proof/Machine/Checksum.lean: the arithmetic functions of 42_checksum_ttl.md: CSUM16 (R180), header
validation (R182), the TTL decrement (R185, R186) and the checksum of the decremented header (R187). -/

namespace Sys2Proof.Machine

open Sys2Proof

/-- The sum of the big-endian 16-bit words of a byte string, an odd last byte padded with zero (R180). -/
def sumWords : Bytes → Nat
  | [] => 0
  | [a] => a.toNat * 256
  | a :: b :: r => a.toNat * 256 + b.toNat + sumWords r

/-- The end-around carry loop of R180, run at most `fuel` times. -/
def carryFold : Nat → Nat → Nat
  | 0, s => s
  | fuel + 1, s => if 0xFFFF < s then carryFold fuel (s % 0x10000 + s / 0x10000) else s

/-- The folded one's-complement sum of R180; every turn of the loop makes the sum smaller, so `s` turns are enough. -/
def foldedSum (B : Bytes) : Nat := carryFold (sumWords B) (sumWords B)

/-- CSUM16 (R180). -/
def csum16 (B : Bytes) : Half := ~~~(BitVec.ofNat 16 (foldedSum B))

/-- IPV4_CSUM_OK on the received header `H`, options included: recompute with the checksum field zeroed and compare
for equality (R182). -/
def ipv4CsumOk (H : Bytes) (csumRx : Half) : Bool := csum16 (memWrite H 10 2 0) = csumRx

/-- A packet is expired when its received TTL, unsigned, is at most 1 (R185). -/
def ttlExpired (ttlRx : Byte) : Bool := decide (ttlRx.toNat ≤ 1)

/-- TTL_DEC (R186). -/
def ttlDec (ttlRx : Byte) : Byte := ttlRx - 1

/-- The checksum of the header `H` with its TTL replaced (R187). -/
def csumWithTtl (H : Bytes) (ttlNew : Byte) : Half := csum16 (memWrite (memWrite H 8 1 ttlNew.toNat) 10 2 0)

end Sys2Proof.Machine
end

