-- ==== Sys2Proof/Machine/Flags.lean ====
section
/-! DEFINITION. Sys2Proof/Machine/Flags.lean: the block has no flags (R37); its only per-operation status is the result
record RES (R40). This file holds the numeric values of its fields (R301, R40) and the forms in which the rules of the
spec write it. -/

namespace Sys2Proof.Machine

open Sys2Proof

/-- The numeric value of a result code (R301). -/
def ResCode.value : ResCode → Byte
  | .done => 0x00
  | .forwarded => 0x01
  | .icmpSent => 0x02
  | .icmpAbandonedNoRoute => 0x03
  | .icmpAbandonedNoArp => 0x04
  | .dropNotIpv4 => 0x10
  | .dropMalformed => 0x11
  | .dropBadCsum => 0x12
  | .dropLocalOther => 0x13
  | .dropSameIface => 0x14
  | .dropNotLive => 0x15
  | .swDirected => 0x20
  | .swFlooded => 0x21
  | .cfgFailed => 0xE0
  | .illegalOp => 0xF0

/-- The 2-bit value of the `learn` field (R40). -/
def Learn.value : Learn → BitVec 2
  | .none => 0
  | .inserted => 1
  | .refreshed => 2
  | .tableFull => 3

/-- A result record of an operation that transmits nothing and names no ICMP message: every other field is 0 (R40). -/
def Res.plain (c : ResCode) : Res :=
  { code := c, icmpType := 0, icmpCode := 0, txCount := 0, sendFail := false, learn := .none }

/-- `result(FORWARDED, tx_count = 1, send_fail)` (R212). -/
def Res.forward (sendFail : Bool) : Res :=
  { code := .forwarded, icmpType := 0, icmpCode := 0, txCount := 1, sendFail := sendFail, learn := .none }

/-- `result(ICMP_SENT, icmp_type, icmp_code, tx_count = 1, send_fail)` (R231). -/
def Res.icmp (k : IcmpKind) (sendFail : Bool) : Res :=
  { code := .icmpSent, icmpType := k.icmpType, icmpCode := k.icmpCode, txCount := 1, sendFail := sendFail,
    learn := .none }

/-- `result(ICMP_ABANDONED_*, icmp_type, icmp_code, tx_count = 0)` (R231). -/
def Res.abandoned (c : ResCode) (k : IcmpKind) : Res :=
  { code := c, icmpType := k.icmpType, icmpCode := k.icmpCode, txCount := 0, sendFail := false, learn := .none }

/-- `result(SW_DIRECTED or SW_FLOODED, tx_count, learn, send_fail)` (R260). -/
def Res.switched (c : ResCode) (n : Nat) (sendFail : Bool) (learn : Learn) : Res :=
  { code := c, icmpType := 0, icmpCode := 0, txCount := .ofNat 8 n, sendFail := sendFail, learn := learn }

end Sys2Proof.Machine
end

