-- ==== Sys2Proof/Machine/Tables.lean ====
section
/-! DEFINITION. Sys2Proof/Machine/Tables.lean: the lookup functions of 41_route_arp_lookup.md (RT_LOOKUP, ARP_LOOKUP,
NEXT_HOP, RESOLVE, IS_LOCAL), the mask test of R145, and the learning table as a finite map (R31, R262). -/

namespace Sys2Proof.Machine

open Sys2Proof

/-- `contiguous(mask)` (R145). -/
def contiguous (mask : Ip) : Bool := (~~~mask) &&& ((~~~mask) + 1) = 0

/-- Entry `e` matches the address `a` (R160). -/
def RouteEntry.covers (e : RouteEntry) (a : Ip) : Bool := (e.dest &&& e.mask) = (a &&& e.mask)

/-- The loop of RT_LOOKUP over the entries in load order with the best entry so far: a strictly greater mask wins, so
the first loaded wins ties (R161, R162). -/
def rtScan (a : Ip) : List RouteEntry → Option RouteEntry → Option RouteEntry
  | [], best => best
  | e :: rest, none => rtScan a rest (if e.covers a then some e else none)
  | e :: rest, some b => rtScan a rest (if e.covers a && decide (b.mask < e.mask) then some e else some b)

/-- RT_LOOKUP(a) (R160 to R163). -/
def rtLookup (rt : List RouteEntry) (a : Ip) : Option RouteEntry := rtScan a rt none

/-- ARP_LOOKUP(a) (R166). -/
def arpLookup : List ArpEntry → Ip → Option Mac
  | [], _ => none
  | e :: rest, a => if e.ip = a then some e.mac else arpLookup rest a

/-- NEXT_HOP(r, a) (R168). -/
def nextHop (r : RouteEntry) (a : Ip) : Ip := if r.gw = 0 then a else r.gw

/-- What RESOLVE answers (R169). -/
inductive Resolution where
  | noRoute
  | noArp (r : RouteEntry)
  | ok (ifx : IfIdx) (mac : Mac)
deriving DecidableEq, Repr

/-- RESOLVE(a) (R169). -/
def State.resolve (s : State) (a : Ip) : Resolution :=
  match rtLookup s.rt a with
  | none => .noRoute
  | some r =>
    match arpLookup s.arp (nextHop r a) with
    | none => .noArp r
    | some m => .ok r.ifx m

/-- IS_LOCAL(a): some valid interface has the address (R170). -/
def State.isLocal (s : State) (a : Ip) : Bool := s.ifs.any fun f => f.valid && decide (f.ip = a)

/-! ## The learning table -/

/-- The canonical form of LT: keys strictly rising, so a key occurs at most once (R32 (a)). -/
abbrev Lt.wf (lt : List (Mac × LtRow)) : Prop := lt.Pairwise fun p q => p.1.toNat < q.1.toNat

/-- `LT[k]`, if `k in LT` (R31). -/
def ltFind : List (Mac × LtRow) → Mac → Option LtRow
  | [], _ => none
  | (m, r) :: rest, k => if m = k then some r else ltFind rest k

/-- `LT[k] <- row`. -/
def ltPut : List (Mac × LtRow) → Mac → LtRow → List (Mac × LtRow)
  | [], k, row => [(k, row)]
  | (m, r) :: rest, k, row =>
    if k = m then (k, row) :: rest
    else if k.toNat < m.toNat then (k, row) :: (m, r) :: rest
    else (m, r) :: ltPut rest k row

/-- Remove the row of `k`. -/
def ltErase (lt : List (Mac × LtRow)) (k : Mac) : List (Mac × LtRow) := lt.filter fun p => p.1 ≠ k

/-- `|LT| < N_LT` (R262). -/
def State.ltHasRoom (s : State) : Bool :=
  match s.par.nLt with
  | none => true
  | some n => decide (s.lt.length < n)

/-- What LT_UPSERT(k, i) returns (R262). -/
def State.upsertOutcome (s : State) (k : Mac) : Learn :=
  match ltFind s.lt k with
  | some _ => .refreshed
  | none => if s.ltHasRoom then .inserted else .tableFull

/-- LT after LT_UPSERT(k, i): a refresh keeps the learned interface; a full table learns nothing (R262). -/
def State.upsertTable (s : State) (k : Mac) (i : IfIdx) : List (Mac × LtRow) :=
  match ltFind s.lt k with
  | some row => ltPut s.lt k { ifx := row.ifx, seen := s.now }
  | none => if s.ltHasRoom then ltPut s.lt k { ifx := i, seen := s.now } else s.lt

end Sys2Proof.Machine
end

