-- ==== Sys2Proof/Machine/Ops.lean ====
section
/-! DEFINITION. Sys2Proof/Machine/Ops.lean: the operations every meaning is built from: results, the end of an RX
operation, `emit Tx`, refused configuration and illegal records, the admission test, and the block's counterpart of
taking an exception: `raise Drop` and `raise Icmp` with the synthesizer (R312, R231). There is no return from it: the
synthesizer ends the operation (R313), and ending an operation is `endRx`. -/

namespace Sys2Proof.Machine

open Sys2Proof

/-! ## Results -/

/-- Put one result record on the RES port (R40). -/
def State.result (s : State) (r : Res) : State := { s with out := { s.out with res := s.out.res ++ [r] } }

/-- End an RX operation: `stage <- DONE` and its result. The frame buffers and the working values exist only during the
operation (R20), so they are released. -/
def State.endRx (s : State) (r : Res) : State :=
  { s with stage := .done, rxb := [], rxIf := 0, txb := [], work := Work.blank,
           out := { s.out with res := s.out.res ++ [r] } }

/-- `raise Drop(reason)`: no transmission, nothing saved (R312). -/
def raiseDrop (c : ResCode) (s : State) : Outc := .next (s.endRx (Res.plain c))

/-! ## The transmit port -/

/-- The answer `tx_ok` to the next `emit Tx`: the environment's prepared answer, else a free value (R41). -/
def State.txOk (s : State) : Bool :=
  match s.env.txAnswers with
  | b :: _ => b
  | [] => Config.freeTxOk s.env.draws

/-- `emit Tx(ifx, bytes)` (R66): the frame joins the TX sequence and one `tx_ok` draw is used up; nothing else depends
on the draw. -/
def State.emitTx (s : State) (ifx : IfIdx) (bytes : Bytes) : State :=
  { s with
    env := match s.env.txAnswers with
      | _ :: rest => { s.env with txAnswers := rest }
      | [] => { s.env with draws := s.env.draws + 1 }
    out := { s.out with tx := s.out.tx ++ [{ ifx := ifx, bytes := bytes }] } }

/-- `emit Tx` on each interface of a list in turn; a failure stops nothing (R266). -/
def State.emitAll (s : State) (bytes : Bytes) : List IfIdx → State
  | [] => s
  | i :: rest => (s.emitTx i bytes).emitAll bytes rest

/-- The OR of the failures the transmit primitive reports over such a list (R266). -/
def State.anyFail (s : State) (bytes : Bytes) : List IfIdx → Bool
  | [] => false
  | i :: rest => !s.txOk || (s.emitTx i bytes).anyFail bytes rest

/-! ## Refusals of the configuration port -/

/-- Malformed configuration: `CFG_ERR <- 1; result(CFG_FAILED)`, writing nothing else (R141). -/
def malformedCfg (s : State) : Outc := .next (({ s with cfgErr := true }).result (Res.plain .cfgFailed))

/-- The phase tests of the common check of every CFG.* operation (R140); the `rsv` test that follows them is the
decoder's, see `rejectRecord`. -/
def cfgCheck (s : State) (k : Outc) : Outc :=
  match s.phase with
  | .live => .next (s.result (Res.plain .illegalOp))
  | .failed => .next (s.result (Res.plain .cfgFailed))
  | .config => k

/-- An illegal record that is no CFG.* record: malformed configuration in phase CONFIG, else ILLEGAL_OP with no state
change (R115 (b), (c)). -/
def illegalRecord (s : State) : Outc :=
  match s.phase with
  | .config => malformedCfg s
  | .live => .next (s.result (Res.plain .illegalOp))
  | .failed => .next (s.result (Res.plain .illegalOp))

/-- Is the opcode one of CFG.* (R91)? -/
def isCfgOpcode (op : Byte) : Bool := decide (1 ≤ op.toNat) && decide (op.toNat ≤ 5)

/-- The answer to a record the decoder refuses (R115): a CFG.* record with a nonzero `rsv` bit meets the phase tests
first (R115 (d), R140, 90_conflicts.md C8). -/
def rejectRecord (why : Illegal) (s : State) : Outc :=
  match why with
  | .undefinedOpcode _ => illegalRecord s
  | .reservedBits op => if isCfgOpcode op then cfgCheck s (malformedCfg s) else illegalRecord s

/-! ## Admission -/

/-- The three admission tests of an RX operation (R201, R261), in both personalities. -/
def admission (s : State) (k : Outc) : Outc :=
  if s.phase ≠ .live then raiseDrop .dropNotLive s
  else if s.ifValid s.rxIf = false then .next (s.endRx (Res.plain .illegalOp))
  else if s.rxLen < 14 ∨ s.par.maxFrame < s.rxLen then raiseDrop .dropMalformed s
  else k

/-! ## raise Icmp: the synthesizer -/

/-- Continue with PAYLOAD(t, c): for an error, 4 zero bytes, the header as received and up to 8 payload bytes (R237);
for an Echo Reply the bytes after the request's 4-byte ICMP header (R238). -/
def withPayload (s : State) (kind : IcmpKind) (k : Bytes → Outc) : Outc :=
  if kind = .echoReply then withSlice s (14 + s.work.hl + 4) (s.work.pl - 4) k
  else
    withSlice s 14 s.work.hl fun header =>
      withSlice s (14 + s.work.hl) (min 8 s.work.pl) fun quoted => k (zeros 4 ++ header ++ quoted)

/-- The synthesized frame (R240, layout R110), built by the writes of R240 in their order. -/
def synthFrame (m ifMac : Mac) (ifIp src : Ip) (kind : IcmpKind) (P : Bytes) : Bytes :=
  let b := memWrite [] 0 6 m.toNat
  let b := memWrite b 6 6 ifMac.toNat
  let b := memWrite b 12 2 0x0800
  let b := memWrite b 14 1 0x45
  let b := memWrite b 15 1 0x00
  let b := memWrite b 16 2 (24 + P.length)
  let b := memWrite b 18 2 0x0000
  let b := memWrite b 20 2 0x0000
  let b := memWrite b 22 1 64
  let b := memWrite b 23 1 1
  let b := memWrite b 24 2 0x0000
  let b := memWrite b 26 4 ifIp.toNat
  let b := memWrite b 30 4 src.toNat
  let b := memWrite b 24 2 (csum16 (span b 14 20)).toNat
  let b := memWrite b 34 1 kind.icmpType.toNat
  let b := memWrite b 35 1 kind.icmpCode.toNat
  let b := memWrite b 36 2 0x0000
  let b := writeBytes b 38 P
  memWrite b 36 2 (csum16 (span b 34 (4 + P.length))).toNat

/-- `raise Icmp(t, c)`: ICMP_SYNTH (R231, R312). Nothing is saved; the received frame and the working values `hl`, `tl`,
`pl` are read; RESOLVE of the original source gives the return path, and its failure abandons the reply (R234). -/
def raiseIcmp (kind : IcmpKind) (s : State) : Outc :=
  withRead s 26 4 fun src =>
    let s := { s with stage := .icmp, work := { s.work with icmp := kind, src := .ofNat 32 src } }
    match s.resolve s.work.src with
    | .noRoute => .next (s.endRx (Res.abandoned .icmpAbandonedNoRoute kind))
    | .noArp _ => .next (s.endRx (Res.abandoned .icmpAbandonedNoArp kind))
    | .ok e m =>
      withPayload s kind fun P =>
        let s := { s with txb := synthFrame m (s.ifSlot e).mac (s.ifSlot e).ip s.work.src kind P }
        .next ((s.emitTx e s.txb).endRx (Res.icmp kind (!s.txOk)))

/-! ## The reset input -/

/-- Asserting reset (R340): every piece of state takes its reset value and an operation in progress is abandoned with no
Tx and no result. The parameters, what the environment still presents and what the ports have already put out are not
state of the block. -/
def State.applyReset (s : State) : State :=
  { State.resetWith s.par with env := { s.env with resetIn := false }, out := s.out }

end Sys2Proof.Machine
end

