-- ==== Sys2Proof/Machine/Cfg.lean ====
section
/-! DEFINITION. Sys2Proof/Machine/Cfg.lean: the configuration operations (40_config_ops.md). -/

namespace Sys2Proof.Machine

open Sys2Proof

/-- CFG.IFACE ifx, mac, ip (R142). -/
def execCfgIface (ifx : IfIdx) (mac : Mac) (ip : Ip) (s : State) : Outc :=
  cfgCheck s <|
    if s.par.nIf ≤ ifx.toNat ∨ (s.ifSlot ifx).valid = true then malformedCfg s
    else
      .next (({ s with ifs := s.ifs.set ifx.toNat { valid := true, mac := mac, ip := ip } }).result (Res.plain .done))

/-- CFG.ROUTE dest, mask, gw, ifx (R144). -/
def execCfgRoute (dest mask gw : Ip) (ifx : IfIdx) (s : State) : Outc :=
  cfgCheck s <|
    if s.par.nRt ≤ s.rtCnt then malformedCfg s
    else if contiguous mask = false then malformedCfg s
    else if s.par.nIf ≤ ifx.toNat then malformedCfg s
    else
      .next (({ s with rt := s.rt ++ [RouteEntry.mk dest mask gw ifx] }).result (Res.plain .done))

/-- CFG.ARP ip, mac (R147, R148). -/
def execCfgArp (ip : Ip) (mac : Mac) (s : State) : Outc :=
  cfgCheck s <|
    if s.par.nArp ≤ s.arpCnt then malformedCfg s
    else if s.arp.any (fun e => decide (e.ip = ip)) = true then malformedCfg s
    else .next (({ s with arp := s.arp ++ [ArpEntry.mk ip mac] }).result (Res.plain .done))

/-- CFG.MODE mode (R149). -/
def execCfgMode (mode : Mode) (s : State) : Outc :=
  cfgCheck s (.next (({ s with mode := mode }).result (Res.plain .done)))

/-- CFG.COMMIT (R150). -/
def execCfgCommit (s : State) : Outc :=
  cfgCheck s <|
    if s.rt.any (fun r => !(s.ifSlot r.ifx).valid) = true then malformedCfg s
    else .next (({ s with live := true }).result (Res.plain .done))

end Sys2Proof.Machine
end

