-- ==== Sys2Proof/Machine/Icmp.lean ====
section
/-! DEFINITION. Sys2Proof/Machine/Icmp.lean: the five ICMP emissions (R246 to R250), each the synthesizer run with its
(type, code). Each runs as the continuation of the RX operation whose frame is in RXB (44_icmp_responder.md). -/

namespace Sys2Proof.Machine

open Sys2Proof

/-- ICMP.TIME_EXCEEDED (R246). -/
def execIcmpTimeExceeded (s : State) : Outc := raiseIcmp .timeExceeded s

/-- ICMP.NET_UNREACH (R247). -/
def execIcmpNetUnreach (s : State) : Outc := raiseIcmp .netUnreach s

/-- ICMP.HOST_UNREACH (R248). -/
def execIcmpHostUnreach (s : State) : Outc := raiseIcmp .hostUnreach s

/-- ICMP.PORT_UNREACH (R249). -/
def execIcmpPortUnreach (s : State) : Outc := raiseIcmp .portUnreach s

/-- ICMP.ECHO_REPLY (R250). -/
def execIcmpEchoReply (s : State) : Outc := raiseIcmp .echoReply s

end Sys2Proof.Machine
end

