-- ==== Sys2Proof/Machine/Router.lean ====
section
/-! DEFINITION. Sys2Proof/Machine/Router.lean: the stages of RX in ROUTER personality (R201 to R212), last stage first
because each one ends the operation or hands on to the next, and the five frame classes among them. There is no
backward transfer (R23). -/

namespace Sys2Proof.Machine

open Sys2Proof

/-- Stage S8, rewrite and transmit (R212). -/
def stageS8 (s : State) : Outc :=
  match s.work.route with
  | none => .fault .workingValueUndefined
  | some r =>
    let b := memWrite s.rxb 0 6 s.work.nhMac.toNat
    let b := memWrite b 6 6 (s.ifSlot r.ifx).mac.toNat
    let b := memWrite b 22 1 s.work.ttlNew.toNat
    let b := memWrite b 24 2 s.work.csumNew.toNat
    let s := { s with txb := b }
    .next ((s.emitTx r.ifx s.txb).endRx (Res.forward (!s.txOk)))

/-- Stage S7, next-hop resolution (R210). -/
def stageS7 (s : State) : Outc :=
  match s.work.route with
  | none => .fault .workingValueUndefined
  | some r =>
    let s := { s with work := { s.work with nh := nextHop r s.work.dst } }
    match arpLookup s.arp s.work.nh with
    | none => execIcmpHostUnreach s
    | some m => stageS8 { s with stage := .s8, work := { s.work with nhMac := m } }

/-- Stage S6, anti-loop check (R209). -/
def stageS6 (s : State) : Outc :=
  match s.work.route with
  | none => .fault .workingValueUndefined
  | some r => if r.ifx = s.rxIf then raiseDrop .dropSameIface s else stageS7 { s with stage := .s7 }

/-- Stage S5, route lookup (R208). -/
def stageS5 (s : State) : Outc :=
  let s := { s with work := { s.work with route := rtLookup s.rt s.work.dst } }
  match s.work.route with
  | none => execIcmpNetUnreach s
  | some _ => stageS6 { s with stage := .s6 }

/-- FRAME.LOCAL.TCP: a TCP datagram for the router is answered by Port Unreachable (R206). -/
def execFrameLocalTcp (s : State) : Outc := execIcmpPortUnreach s

/-- FRAME.LOCAL.UDP: a UDP datagram for the router is answered by Port Unreachable (R206). -/
def execFrameLocalUdp (s : State) : Outc := execIcmpPortUnreach s

/-- FRAME.LOCAL.ECHOREQ: an Echo Request for the router is answered by Echo Reply (R206). -/
def execFrameLocalEchoreq (s : State) : Outc := execIcmpEchoReply s

/-- FRAME.LOCAL.OTHER: any other datagram for the router is dropped with no reply (R206). -/
def execFrameLocalOther (s : State) : Outc := raiseDrop .dropLocalOther s

/-- Stage S4 on a datagram for the router, by its class. -/
def deliverLocal (c : LocalClass) (s : State) : Outc :=
  match c with
  | .tcp => execFrameLocalTcp s
  | .udp => execFrameLocalUdp s
  | .echoReq => execFrameLocalEchoreq s
  | .other => execFrameLocalOther s

/-- Is level 3 of the classification read at all (R206: `proto = 1 and pl >= 4`)? -/
def readsIcmpType (s : State) : Bool := decide (s.work.proto = 1) && decide (4 ≤ s.work.pl)

/-- The class of a datagram for the router (R114, R206), reading the ICMP type byte only where R206 reads it. -/
def withLocalClass (s : State) (k : LocalClass → Outc) : Outc :=
  if readsIcmpType s then
    withRead s (14 + s.work.hl) 1 fun first => k (classifyLocal s.work.proto.toNat s.work.pl first)
  else k (classifyLocal s.work.proto.toNat s.work.pl 0)

/-- Stage S4, self-destination check (R206). -/
def stageS4 (s : State) : Outc :=
  withRead s 30 4 fun dst =>
    let s := { s with work := { s.work with dst := .ofNat 32 dst } }
    if s.isLocal s.work.dst then
      withRead s 23 1 fun proto =>
        let s := { s with work := { s.work with proto := .ofNat 8 proto } }
        withLocalClass s fun c => deliverLocal c s
    else stageS5 { s with stage := .s5 }

/-- Stage S3, TTL handling (R205). -/
def stageS3 (s : State) : Outc :=
  withRead s 22 1 fun ttl =>
    let s := { s with work := { s.work with ttlRx := .ofNat 8 ttl } }
    if ttlExpired s.work.ttlRx then execIcmpTimeExceeded s
    else
      withSlice s 14 s.work.hl fun H =>
        let s := { s with work := { s.work with ttlNew := ttlDec s.work.ttlRx } }
        stageS4 { s with stage := .s4, work := { s.work with csumNew := csumWithTtl H s.work.ttlNew } }

/-- Stage S2, checksum validation (R204). -/
def stageS2 (s : State) : Outc :=
  withSlice s 14 s.work.hl fun H =>
    withRead s 24 2 fun c =>
      let s := { s with work := { s.work with csumRx := .ofNat 16 c } }
      if ipv4CsumOk H s.work.csumRx then stageS3 { s with stage := .s3 } else raiseDrop .dropBadCsum s

/-- Stage S1P, well-formedness parse (R203). -/
def stageS1P (s : State) : Outc :=
  if s.rxLen < 34 then raiseDrop .dropMalformed s
  else
    withRead s 14 1 fun vi =>
      withRead s 16 2 fun tl =>
        let s := { s with work := { s.work with ihl := .ofNat 4 vi, tl := .ofNat 16 tl } }
        if vi / 16 ≠ 4 then raiseDrop .dropMalformed s
        else if s.work.ihl.toNat < 5 then raiseDrop .dropMalformed s
        else if s.rxLen < 14 + s.work.hl then raiseDrop .dropMalformed s
        else if s.work.tl.toNat < s.work.hl then raiseDrop .dropMalformed s
        else if s.rxLen < 14 + s.work.tl.toNat then raiseDrop .dropMalformed s
        else stageS2 { s with stage := .s2 }

/-- FRAME.IPV4: a frame of the IPv4 class passes the ethertype filter and goes on at stage S1P (R202). -/
def execFrameIpv4 (s : State) : Outc := stageS1P { s with stage := .s1p }

/-- Stage S1, ethertype filter (R202). -/
def stageS1 (s : State) : Outc :=
  withRead s 12 2 fun et =>
    let s := { s with work := { s.work with ethertype := .ofNat 16 et } }
    match classifyEthertype et with
    | none => raiseDrop .dropNotIpv4 s
    | some _ => execFrameIpv4 s

/-- Stage S0, admission (R201). -/
def stageS0 (s : State) : Outc := admission s (stageS1 { s with stage := .s1 })

end Sys2Proof.Machine
end

