-- ==== Sys2Proof/Machine/Switch.lean ====
section
/-! DEFINITION. Sys2Proof/Machine/Switch.lean: the two steps of RX in SWITCH personality, learn then forward or flood
(R260 to R266). The switch rewrites nothing (R265). -/

namespace Sys2Proof.Machine

open Sys2Proof

/-- The egress interfaces of a flood: every valid interface but the ingress one, in ascending order (R266). -/
def State.floodPorts (s : State) (inIf : IfIdx) : List IfIdx :=
  ((List.range s.par.nIf).map (BitVec.ofNat 8)).filter fun i => s.ifValid i && decide (i ≠ inIf)

/-- Forward-or-flood after the upsert (R264, R266); `learn` is what the upsert returned. -/
def switchForward (learn : Learn) (s : State) : Outc :=
  let s := { s with txb := s.rxb }
  match ltFind s.lt s.work.dmac with
  | some row =>
    .next ((s.emitTx row.ifx s.txb).endRx (Res.switched .swDirected 1 (!s.txOk) learn))
  | none =>
    let ports := s.floodPorts s.rxIf
    .next ((s.emitAll s.txb ports).endRx (Res.switched .swFlooded ports.length (s.anyFail s.txb ports) learn))

/-- RX in SWITCH personality on the loaded frame (R260). -/
def switchRx (s : State) : Outc :=
  admission s <|
    withRead s 6 6 fun smac =>
      withRead s 0 6 fun dmac =>
        let s := { s with work := { s.work with smac := .ofNat 48 smac, dmac := .ofNat 48 dmac } }
        switchForward (s.upsertOutcome s.work.smac) { s with lt := s.upsertTable s.work.smac s.rxIf }

end Sys2Proof.Machine
end

