-- ==== Sys2Proof/Machine/Rx.lean ====
section
/-! DEFINITION. Sys2Proof/Machine/Rx.lean: the RX operation (R98, R200, R260), one atomic step of the block (R68). -/

namespace Sys2Proof.Machine

open Sys2Proof

/-- Load RXB, RXLEN and RXIF from the operands (R35); nothing of an earlier operation survives (R20). DESIGN CHOICE (log
entry 18): a frame longer than RXB's capacity MAX_FRAME is loaded whole until the admission test drops it. -/
def State.loadRx (s : State) (inIf : IfIdx) (frame : Bytes) : State :=
  { s with rxb := frame, rxIf := inIf, txb := [], work := Work.blank }

/-- RX in_if, len, F: MODE selects the handler (R24); the router's state machine starts at S0 (R23). -/
def execRx (inIf : IfIdx) (frame : Bytes) (s : State) : Outc :=
  match s.mode with
  | .router => stageS0 { s.loadRx inIf frame with stage := .s0 }
  | .switch => switchRx (s.loadRx inIf frame)

end Sys2Proof.Machine
end

