-- ==== Sys2Proof/Machine/Time.lean ====
section
/-! DEFINITION. Sys2Proof/Machine/Time.lean: TICK, the sweep timer and SWEEP.DEL (46_expiration.md). -/

namespace Sys2Proof.Machine

open Sys2Proof

/-- EXPIRE_TICKS: 15 seconds (R9, R10). -/
def expireTicks (p : Params) : Nat := 15 * p.ticksPerSec

/-- SWEEP_TICKS: 1 second (R9, R10). -/
def sweepTicks (p : Params) : Nat := 1 * p.ticksPerSec

/-- A row is stale at time `t` when it is strictly more than EXPIRE_TICKS old (R281). -/
def staleAt (p : Params) (t : Nat) (row : LtRow) : Bool := decide (expireTicks p < t - row.seen)

/-- The snapshot a sweep takes at time `t`: exactly the keys stale at `t` (R283). -/
def State.snapshot (s : State) (t : Nat) : List Mac := (s.lt.filter fun p => staleAt s.par t p.2).map Prod.fst

/-- TICK (R280). It is enabled only when VICTIMS is empty (R286): while it is not, the operation waits, nothing happens
and no result is produced. -/
def execTick (s : State) : Outc :=
  if s.victims = [] then
    let s := { s with now := s.now + 1 }
    let s := if s.now % sweepTicks s.par = 0 then { s with victims := s.snapshot s.now } else s
    .next (s.result (Res.plain .done))
  else .next s

/-- SWEEP.DEL k (R284): the row of a latched key is removed unconditionally (R285). It requires `k in VICTIMS`: for any
other key the step is not enabled and nothing happens. There is no result record: it is no OP-port operation. -/
def execSweepDel (k : Mac) (s : State) : Outc :=
  if k ∈ s.victims then .next { s with lt := ltErase s.lt k, victims := s.victims.filter (· ≠ k) } else .next s

end Sys2Proof.Machine
end

