-- ==== Sys2Proof/Machine/Dispatch.lean ====
section
/-! DEFINITION. Sys2Proof/Machine/Dispatch.lean: one arm per operation. -/

namespace Sys2Proof.Machine

open Sys2Proof

def exec (i : Instr) (s : State) : Host.Outcome State Fault Refusal :=
  match i with
  -- configuration (40_config_ops.md)
  | .cfgIface ifx mac ip => Sys2Proof.Machine.execCfgIface ifx mac ip s
  | .cfgRoute dest mask gw ifx => Sys2Proof.Machine.execCfgRoute dest mask gw ifx s
  | .cfgArp ip mac => Sys2Proof.Machine.execCfgArp ip mac s
  | .cfgMode mode => Sys2Proof.Machine.execCfgMode mode s
  | .cfgCommit => Sys2Proof.Machine.execCfgCommit s
  -- frames (43_router_pipeline.md, 45_switch_learning.md)
  | .rx inIf frame => Sys2Proof.Machine.execRx inIf frame s
  -- time and the sweep (46_expiration.md)
  | .tick => Sys2Proof.Machine.execTick s
  | .sweepDel mac => Sys2Proof.Machine.execSweepDel mac s
  -- classes of the received frame (30_encoding.md R114)
  | .frameIpv4 => Sys2Proof.Machine.execFrameIpv4 s
  | .frameLocalTcp => Sys2Proof.Machine.execFrameLocalTcp s
  | .frameLocalUdp => Sys2Proof.Machine.execFrameLocalUdp s
  | .frameLocalEchoreq => Sys2Proof.Machine.execFrameLocalEchoreq s
  | .frameLocalOther => Sys2Proof.Machine.execFrameLocalOther s
  -- ICMP emissions (44_icmp_responder.md)
  | .icmpTimeExceeded => Sys2Proof.Machine.execIcmpTimeExceeded s
  | .icmpNetUnreach => Sys2Proof.Machine.execIcmpNetUnreach s
  | .icmpHostUnreach => Sys2Proof.Machine.execIcmpHostUnreach s
  | .icmpPortUnreach => Sys2Proof.Machine.execIcmpPortUnreach s
  | .icmpEchoReply => Sys2Proof.Machine.execIcmpEchoReply s

end Sys2Proof.Machine
end

