-- ==== Sys2Proof/Machine/Agents.lean ====
section
/-! DEFINITION. Sys2Proof/Machine/Agents.lean: the three agents and the arbiter (R71, R75, R287), the record at the OP port,
and an RX operation met in the middle. Step.lean only calls what stands here. -/

namespace Sys2Proof.Machine

open Sys2Proof

/-! ## Which agents have an enabled step -/

/-- The frame port has a whole record waiting; a TICK record waits while VICTIMS is not empty (R75 (b), R286). -/
def State.framePortReady (s : State) : Bool :=
  match decodeRecord s.env.opPort with
  | .record i _ => decide (i ≠ .tick) || s.victims.isEmpty
  | .illegal _ _ => true
  | .incomplete => false

/-- A TICK is due and VICTIMS is empty (R75 (b)). -/
def State.timebaseReady (s : State) : Bool := decide (0 < s.env.ticksDue) && s.victims.isEmpty

/-- VICTIMS is not empty (R75 (c)). -/
def State.sweeperReady (s : State) : Bool := !s.victims.isEmpty

/-- The agents with an enabled step. -/
def State.enabledAgents (s : State) : List Agent :=
  (if s.framePortReady then [.framePort] else []) ++ (if s.timebaseReady then [.timebase] else []) ++
    (if s.sweeperReady then [.sweeper] else [])

/-! ## Open choices -/

/-- One member of a nonempty list by a number; the only member where there is no choice. -/
def pickBy {α : Type} (n : Nat) : List α → Option α
  | [] => none
  | [a] => some a
  | a :: b :: rest => (a :: b :: rest)[n % (rest.length + 2)]?

/-- The agent the arbiter grants and the environment after the choice: no choice is made among fewer than two; a prepared
grant of an enabled agent is followed; otherwise a free value decides (R75). -/
def State.grant (s : State) : Option (Agent × Env) :=
  match s.enabledAgents with
  | [] => none
  | [a] => some (a, s.env)
  | a :: b :: rest =>
    match s.env.grants with
    | g :: later =>
      if g ∈ a :: b :: rest then some (g, { s.env with grants := later })
      else (pickBy (Config.freeGrant s.env.draws) (a :: b :: rest)).map
        fun c => (c, { s.env with grants := later, draws := s.env.draws + 1 })
    | [] =>
      (pickBy (Config.freeGrant s.env.draws) (a :: b :: rest)).map fun c => (c, { s.env with draws := s.env.draws + 1 })

/-- The victim the sweeper deletes next and the environment after the choice (R284). -/
def State.pickVictim (s : State) : Option (Mac × Env) :=
  match s.victims with
  | [] => none
  | [k] => some (k, s.env)
  | a :: b :: rest =>
    match s.env.victimPicks with
    | k :: later =>
      if k ∈ a :: b :: rest then some (k, { s.env with victimPicks := later })
      else (pickBy (Config.freeVictim s.env.draws) (a :: b :: rest)).map
        fun c => (c, { s.env with victimPicks := later, draws := s.env.draws + 1 })
    | [] =>
      (pickBy (Config.freeVictim s.env.draws) (a :: b :: rest)).map
        fun c => (c, { s.env with draws := s.env.draws + 1 })

/-! ## One step of each agent -/

/-- The state with the record at the OP port consumed. -/
def State.consume (s : State) (rest : Bytes) : State := { s with env := { s.env with opPort := rest } }

/-- The frame port takes the record at the OP port (R90): a decoded operation is executed; an operation that is never
accepted there, and a record the decoder refuses, is an illegal record (R115). -/
def framePortStep (s : State) : Outc :=
  match decodeRecord s.env.opPort with
  | .record i rest => if i.internalOnly then illegalRecord (s.consume rest) else exec i (s.consume rest)
  | .illegal why rest => rejectRecord why (s.consume rest)
  | .incomplete => .next s

/-- The timebase performs one TICK that is due (R71 (2)). -/
def timebaseStep (s : State) : Outc := exec .tick { s with env := { s.env with ticksDue := s.env.ticksDue - 1 } }

/-- The sweeper performs one SWEEP.DEL (R71 (3)). -/
def sweeperStep (s : State) : Outc :=
  match s.pickVictim with
  | none => .next s
  | some (k, env) => exec (.sweepDel k) { s with env := env }

/-- The step of the agent that holds the grant. -/
def agentStep (a : Agent) (s : State) : Outc :=
  match a with
  | .framePort => framePortStep s
  | .timebase => timebaseStep s
  | .sweeper => sweeperStep s

/-- Between operations: the granted agent steps; with no step enabled the block is idle and holds its state (R326). -/
def idleStep (s : State) : Outc :=
  match s.grant with
  | none => .next s
  | some (a, env) => agentStep a { s with env := env }

/-! ## An RX operation met in the middle -/

/-- The row of the opcode table that the frame in RXB, or the message asked for, is at the stage it stands at (R114): the
class FRAME.IPV4 at S1, the local class at S4, the ICMP emission at ICMP. No other stage decodes. -/
def State.stageInstr (s : State) : Option Instr :=
  match s.stage with
  | .s1 => (s.memRead 12 2).bind classifyEthertype
  | .s4 =>
    match s.memRead 30 4, s.memRead 23 1 with
    | some dst, some proto =>
      if s.isLocal (.ofNat 32 dst) then
        if proto = 1 ∧ 4 ≤ s.work.pl then
          (s.memRead (14 + s.work.hl) 1).map fun first => (classifyLocal proto s.work.pl first).instr
        else some (classifyLocal proto s.work.pl 0).instr
      else none
    | some _, none => none
    | none, _ => none
  | .icmp => some s.work.icmp.instr
  | .s0 => none
  | .s1p => none
  | .s2 => none
  | .s3 => none
  | .s5 => none
  | .s6 => none
  | .s7 => none
  | .s8 => none
  | .done => none

/-- The stage itself, from where the operation stands. -/
def stageStep (s : State) : Outc :=
  match s.stage with
  | .s0 => stageS0 s
  | .s1 => stageS1 s
  | .s1p => stageS1P s
  | .s2 => stageS2 s
  | .s3 => stageS3 s
  | .s4 => stageS4 s
  | .s5 => stageS5 s
  | .s6 => stageS6 s
  | .s7 => stageS7 s
  | .s8 => stageS8 s
  | .icmp => raiseIcmp s.work.icmp s
  | .done => idleStep s

/-- Finish an RX operation that stands at a stage: where the stage decodes the frame to a row of the opcode table, that
row's meaning; otherwise the stage. -/
def resume (s : State) : Outc :=
  match s.stageInstr with
  | some i => exec i s
  | none => stageStep s

/-! ## Placing an instruction -/

/-- The shortest received frame a synthesizer can run on: an Ethernet header and an IPv4 header of zeros but for
`version = 4`, `ihl = 5`, total length 20. -/
def blankFrame : Bytes := zeros 12 ++ [0x08, 0x00, 0x45, 0x00, 0x00, 0x14] ++ zeros 16

/-- The state with the synthesizer about to run for a message; a frame is put into RXB only where none is there. -/
def State.withIcmpPending (s : State) (k : IcmpKind) : State :=
  if s.rxLen < 34 then
    { s with stage := .icmp, rxb := blankFrame, work := { s.work with icmp := k, ihl := 5, tl := 20 },
             env := { s.env with resetIn := false } }
  else { s with stage := .icmp, work := { s.work with icmp := k }, env := { s.env with resetIn := false } }

/-- The state with a record at the OP port; the frame port is granted where another agent could step instead. -/
def State.withRecord (s : State) (b : Bytes) : State :=
  { s with stage := .done,
           env := { s.env with resetIn := false, opPort := b ++ s.env.opPort,
                               grants := if s.timebaseReady || s.sweeperReady then .framePort :: s.env.grants
                                         else s.env.grants } }

/-- The state with one key latched; the sweeper is granted where the frame port could step instead. -/
def State.withVictim (s : State) (k : Mac) : State :=
  let s := { s with stage := .done, victims := [k] }
  { s with env := { s.env with resetIn := false,
                               grants := if s.framePortReady then .sweeper :: s.env.grants else s.env.grants } }

end Sys2Proof.Machine
end

