-- ==== Sys2Proof/Machine/Step.lean ====
section
/-! DEFINITION. Sys2Proof/Machine/Step.lean: one step of the block, and placing an instruction where the next step runs
it. -/

namespace Sys2Proof.Machine

open Sys2Proof

/-- One step: the reset input first (R340); between operations the granted agent steps (R68: a whole operation); an RX
operation that stands at a stage is finished before anything else steps. -/
def step (s : State) : Host.Outcome State Fault Refusal :=
  if s.env.resetIn then .next s.applyReset
  else if s.stage = .done then idleStep s
  else resume s

/-- `s` with a row's word placed so that the next step runs it: a record at the OP port; SWEEP.DEL, which the OP port
never accepts, as the sweeper's pending victim; an ICMPOUT row as the message the synthesizer is asked for. A TICK also
needs VICTIMS empty (R286). -/
def State.withFetchWord (s : State) (nbits w : Nat) : State :=
  match decodeTableWord nbits w with
  | some (.sweepDel k) => s.withVictim k
  | some .tick => { s with victims := [] }.withRecord (tableBytes nbits w)
  | some .icmpTimeExceeded => s.withIcmpPending .timeExceeded
  | some .icmpNetUnreach => s.withIcmpPending .netUnreach
  | some .icmpHostUnreach => s.withIcmpPending .hostUnreach
  | some .icmpPortUnreach => s.withIcmpPending .portUnreach
  | some .icmpEchoReply => s.withIcmpPending .echoReply
  | some _ => s.withRecord (tableBytes nbits w)
  | none => s.withRecord (tableBytes nbits w)

end Sys2Proof.Machine
end

