-- ==== Sys2Proof/Machine/Asm.lean ====
section
/-! DEFINITION. Sys2Proof/Machine/Asm.lean: the textual form of operations (R116), the pseudo-operations and their
expansions (R117) and the prefix-length operand (R112 (c)). A line is a list of characters; `;` starts a comment. What R116
leaves open about blanks, letters and digits is log entry 19. -/

namespace Sys2Proof.Machine

open Sys2Proof

/-- The mask of a prefix length, `(2^32 - 2^(32-n)) mod 2^32` (R112 (c)). -/
def prefixMask (n : Nat) : Ip := .ofNat 32 (2 ^ 32 - 2 ^ (32 - n))

/-- One line of assembler: an operation of R116 or a pseudo-operation of R117. -/
inductive Line where
  | op (i : Instr)
  /-- `cfg.route DEST/N, GW, IFX`; `direct` is GW = 0.0.0.0 -/
  | routePrefix (dest : Ip) (n : Nat) (gw : Ip) (ifx : IfIdx)
  /-- `tick N` -/
  | ticks (n : Nat)
  /-- `tick.s N` -/
  | tickSeconds (n : Nat)
deriving DecidableEq, Repr

/-- The records a line stands for (R117). -/
def Line.expand (p : Params) : Line → List Instr
  | .op i => [i]
  | .routePrefix dest n gw ifx => [.cfgRoute dest (prefixMask n) gw ifx]
  | .ticks n => List.replicate n .tick
  | .tickSeconds n => List.replicate (n * p.ticksPerSec) .tick

/-! ## Reading a line -/

/-- A blank. -/
def isBlank (c : Char) : Bool := c = ' ' || c = '\t'

/-- A token without the blanks around it. -/
def trim (t : List Char) : List Char := ((t.dropWhile isBlank).reverse.dropWhile isBlank).reverse

/-- The pieces between separators. -/
def pieces (sep : Char) : List Char → List (List Char)
  | [] => [[]]
  | c :: r =>
    if c = sep then [] :: pieces sep r
    else
      match pieces sep r with
      | [] => [[c]]
      | p :: ps => (c :: p) :: ps

/-- The value of a digit in bases up to 16. -/
def digit (c : Char) : Option Nat :=
  let n := c.toNat
  if 48 ≤ n ∧ n ≤ 57 then some (n - 48)
  else if 97 ≤ n ∧ n ≤ 102 then some (n - 87)
  else if 65 ≤ n ∧ n ≤ 70 then some (n - 55)
  else none

/-- Digits after a value already read. -/
def digitsFrom (base acc : Nat) : List Char → Option Nat
  | [] => some acc
  | c :: r => (digit c).bind fun d => if d < base then digitsFrom base (acc * base + d) r else none

/-- A nonempty string of digits. -/
def digits (base : Nat) : List Char → Option Nat
  | [] => none
  | c :: r => digitsFrom base 0 (c :: r)

/-- An integer, decimal or `0x` hex (R116). -/
def readNat (t : List Char) : Option Nat :=
  match t with
  | '0' :: 'x' :: r => digits 16 r
  | _ => digits 10 t

/-- A number below a bound. -/
def readBelow (bound : Nat) (t : List Char) : Option Nat := (readNat t).bind fun n => if n < bound then some n else none

/-- An interface index. -/
def readIfx (t : List Char) : Option IfIdx := (readBelow 256 t).map (.ofNat 8)

/-- A decimal byte of a dotted address. -/
def readDecByte (t : List Char) : Option Nat := (digits 10 t).bind fun n => if n < 256 then some n else none

/-- Dotted decimal (R12). -/
def readIp (t : List Char) : Option Ip :=
  match (pieces '.' t).mapM readDecByte with
  | some [a, b, c, d] => some (.ofNat 32 (a * 2 ^ 24 + b * 2 ^ 16 + c * 2 ^ 8 + d))
  | _ => none

/-- Six hex bytes joined by colons (R12, R116). -/
def readMac (t : List Char) : Option Mac :=
  match (pieces ':' t).mapM fun p => (digits 16 p).bind fun n => if n < 256 then some n else none with
  | some [a, b, c, d, e, f] =>
    some (.ofNat 48 (((((a * 256 + b) * 256 + c) * 256 + d) * 256 + e) * 256 + f))
  | _ => none

/-- A hex string of frame bytes (R116). -/
def readHexBytes : List Char → Option Bytes
  | [] => some []
  | [_] => none
  | a :: b :: r =>
    (digit a).bind fun h => (digit b).bind fun l =>
      (readHexBytes r).map fun bs => BitVec.ofNat 8 (h * 16 + l) :: bs

/-- `DEST/N`, `N` from 0 to 32 (R112 (c)). DESIGN CHOICE (log entry 19): `N` is read as decimal digits only. -/
def readPrefix (t : List Char) : Option (Ip × Nat) :=
  match pieces '/' t with
  | [d, n] => (readIp d).bind fun ip => (digits 10 n).bind fun k => if k ≤ 32 then some (ip, k) else none
  | _ => none

/-- The GW operand of the prefix form: an address or `direct` (R117). -/
def readGw (t : List Char) : Option Ip := if t = "direct".toList then some 0 else readIp t

/-- The mnemonic and the operands of a line without its comment. -/
def lineParts (t : List Char) : List Char × List (List Char) :=
  let code := trim (t.takeWhile (· ≠ ';'))
  let operands := trim (code.dropWhile fun c => !isBlank c)
  (code.takeWhile fun c => !isBlank c, if operands = [] then [] else (pieces ',' operands).map trim)

/-- The RX operation of a frame, `len` the number of bytes given (R116). DESIGN CHOICE (log entry 19): a frame whose number of
bytes does not fit the 16-bit `len` (R98) is refused. -/
def readRx (inIf : IfIdx) (frame : Bytes) : Option Instr :=
  if frame.length < 65536 then some (.rx inIf frame) else none

/-- The operation a mnemonic and its operands stand for (R116, R117). -/
def readOp (m : List Char) (a : List (List Char)) : Option Line :=
  if m = "cfg.iface".toList then
    match a with
    | [i, mac, ip] => (readIfx i).bind fun i => (readMac mac).bind fun mac => (readIp ip).map fun ip => .op (.cfgIface i mac ip)
    | _ => none
  else if m = "cfg.route".toList then
    match a with
    | [d, k, g, i] =>
      (readIp d).bind fun d => (readIp k).bind fun k => (readIp g).bind fun g => (readIfx i).map fun i => .op (.cfgRoute d k g i)
    | [d, g, i] =>
      (readPrefix d).bind fun d => (readGw g).bind fun g => (readIfx i).map fun i => .routePrefix d.1 d.2 g i
    | _ => none
  else if m = "cfg.arp".toList then
    match a with
    | [ip, mac] => (readIp ip).bind fun ip => (readMac mac).map fun mac => .op (.cfgArp ip mac)
    | _ => none
  else if m = "cfg.mode".toList then
    match a with
    | [x] =>
      if x = "router".toList then some (.op (.cfgMode .router))
      else if x = "switch".toList then some (.op (.cfgMode .switch))
      else none
    | _ => none
  else if m = "cfg.commit".toList then (if a = [] then some (.op .cfgCommit) else none)
  else if m = "rx".toList then
    match a with
    | [i, h] => (readIfx i).bind fun i => (readHexBytes h).bind fun f => (readRx i f).map .op
    | _ => none
  else if m = "tick".toList then
    match a with
    | [] => some (.op .tick)
    | [n] => (readNat n).map .ticks
    | _ => none
  else if m = "tick.s".toList then
    match a with
    | [n] => (readNat n).map .tickSeconds
    | _ => none
  else if m = "sweep.del".toList then
    match a with
    | [mac] => (readMac mac).map fun mac => .op (.sweepDel mac)
    | _ => none
  else none

/-- The records of one line of text; an empty line or a comment stands for none. -/
def assemble (p : Params) (t : List Char) : Option (List Instr) :=
  let parts := lineParts t
  if parts.1 = [] then some [] else (readOp parts.1 parts.2).map (Line.expand p)

end Sys2Proof.Machine
end

