-- ==== Sys2Proof/Machine/Decision.lean ====
section
/-! DEFINITION. Sys2Proof/Machine/Decision.lean: RX in ROUTER personality written a second time, flat, as the complete
pseudocode of R214 with the priority list of R310: one decision on the received bytes, no stage index, no buffers and no
guarded reads. The staged machine of Router.lean is stated to refine it. `F` is the received frame. -/

namespace Sys2Proof.Machine

open Sys2Proof

/-- `hl` (R214). -/
def headerLen (F : Bytes) : Nat := 4 * (field F 14 1 % 16)

/-- `tl` (R214). -/
def totalLen (F : Bytes) : Nat := field F 16 2

/-- `pl` (R104). -/
def payloadLen (F : Bytes) : Nat := totalLen F - headerLen F

/-- The received IPv4 header, options included. -/
def ipHeader (F : Bytes) : Bytes := span F 14 (headerLen F)

/-- `src` (R102). -/
def srcAddr (F : Bytes) : Ip := .ofNat 32 (field F 26 4)

/-- `dst` (R102). -/
def dstAddr (F : Bytes) : Ip := .ofNat 32 (field F 30 4)

/-- `ttl_rx` (R102). -/
def rxTtl (F : Bytes) : Byte := .ofNat 8 (field F 22 1)

/-- The ICMP payload of a reply about `F` (R111). -/
def replyPayload (kind : IcmpKind) (F : Bytes) : Bytes :=
  if kind = .echoReply then span F (14 + headerLen F + 4) (payloadLen F - 4)
  else zeros 4 ++ ipHeader F ++ span F (14 + headerLen F) (min 8 (payloadLen F))

/-- The frame stage S8 transmits: `F` with both MAC addresses, the TTL and the header checksum replaced (R214, R213). -/
def forwardFrame (F : Bytes) (dmac smac : Mac) : Bytes :=
  beBytes 6 dmac.toNat ++ beBytes 6 smac.toNat ++ span F 12 10 ++ [rxTtl F - 1] ++ span F 23 1 ++
    beBytes 2 (csumWithTtl (ipHeader F) (rxTtl F - 1)).toNat ++ F.drop 26

/-- The terminal outcomes of R200 before a reply's own resolution. -/
inductive RouterOutcome where
  | illegal
  | drop (code : ResCode)
  | icmp (kind : IcmpKind)
  | forward (ifx : IfIdx) (frame : Bytes)
deriving DecidableEq, Repr

/-- The decision of R214. -/
def routerOutcome (s : State) (inIf : IfIdx) (F : Bytes) : RouterOutcome :=
  if s.phase ≠ .live then .drop .dropNotLive
  else if s.ifValid inIf = false then .illegal
  else if F.length < 14 ∨ s.par.maxFrame < F.length then .drop .dropMalformed
  else if field F 12 2 ≠ 0x0800 then .drop .dropNotIpv4
  else if F.length < 34 then .drop .dropMalformed
  else if field F 14 1 / 16 ≠ 4 ∨ headerLen F < 20 ∨ F.length < 14 + headerLen F ∨ totalLen F < headerLen F ∨
      F.length < 14 + totalLen F then .drop .dropMalformed
  else if ipv4CsumOk (ipHeader F) (.ofNat 16 (field F 24 2)) = false then .drop .dropBadCsum
  else if (rxTtl F).toNat ≤ 1 then .icmp .timeExceeded
  else if s.isLocal (dstAddr F) then
    if field F 23 1 = 6 ∨ field F 23 1 = 17 then .icmp .portUnreach
    else if field F 23 1 = 1 ∧ 4 ≤ payloadLen F ∧ field F (14 + headerLen F) 1 = 8 then .icmp .echoReply
    else .drop .dropLocalOther
  else
    match rtLookup s.rt (dstAddr F) with
    | none => .icmp .netUnreach
    | some r =>
      if r.ifx = inIf then .drop .dropSameIface
      else
        match arpLookup s.arp (nextHop r (dstAddr F)) with
        | none => .icmp .hostUnreach
        | some m => .forward r.ifx (forwardFrame F m (s.ifSlot r.ifx).mac)

/-- The block after a reply about `F` was asked for: sent, or abandoned where the original source does not resolve
(R231, R234). -/
def replyResult (s : State) (kind : IcmpKind) (F : Bytes) : State :=
  match s.resolve (srcAddr F) with
  | .noRoute => s.endRx (Res.abandoned .icmpAbandonedNoRoute kind)
  | .noArp _ => s.endRx (Res.abandoned .icmpAbandonedNoArp kind)
  | .ok e m =>
    (s.emitTx e (synthFrame m (s.ifSlot e).mac (s.ifSlot e).ip (srcAddr F) kind (replyPayload kind F))).endRx
      (Res.icmp kind (!s.txOk))

/-- The block after an outcome. -/
def applyOutcome (s : State) (F : Bytes) (o : RouterOutcome) : State :=
  match o with
  | .illegal => s.endRx (Res.plain .illegalOp)
  | .drop c => s.endRx (Res.plain c)
  | .icmp k => replyResult s k F
  | .forward ifx frame => (s.emitTx ifx frame).endRx (Res.forward (!s.txOk))

/-- The block after RX `in_if, len, F` in ROUTER personality (R214). -/
def routerResult (s : State) (inIf : IfIdx) (F : Bytes) : State := applyOutcome s F (routerOutcome s inIf F)

end Sys2Proof.Machine
end

