-- ==== Sys2Proof/Safety.lean ====
section
/-! DEFINITION. Sys2Proof/Safety.lean: what counts as a safe state and a safe step, in the terms the statements use: the
invariants the spec states of the block's state (R26, R28, R29, R31, R32, R62), and the conditions under which a rule
of the router speaks. -/

namespace Sys2Proof.Machine

open Sys2Proof

/-- The time of the last sweep timer event, `0` before the first (R282). -/
def State.lastSweep (s : State) : Nat := s.now - s.now % sweepTicks s.par

/-- The invariant of the block's state. -/
structure State.Inv (s : State) : Prop where
  /-- the parameters are in the ranges of R10 -/
  params : s.par.Valid
  /-- IF has N_IF slots (R27) -/
  ifCount : s.ifs.length = s.par.nIf
  /-- RT_CNT <= N_RT (R28) -/
  rtRoom : s.rt.length ≤ s.par.nRt
  /-- every mask is a contiguous prefix mask and every egress index is in range (R28, R144) -/
  rtEntries : ∀ e ∈ s.rt, contiguous e.mask = true ∧ e.ifx.toNat < s.par.nIf
  /-- ARP_CNT <= N_ARP (R29) -/
  arpRoom : s.arp.length ≤ s.par.nArp
  /-- no two valid ARP entries have the same `ip` (R29) -/
  arpKeys : s.arp.Pairwise fun e f => e.ip ≠ f.ip
  /-- LIVE = 1 and CFG_ERR = 1 never hold together (R26) -/
  onePhase : ¬(s.live = true ∧ s.cfgErr = true)
  /-- in phase LIVE every route leaves by a valid interface (R150, R169) -/
  rtLive : s.live = true → ∀ e ∈ s.rt, s.ifValid e.ifx = true
  /-- a key occurs at most once, in the canonical order (R32 (a)) -/
  ltKeys : Lt.wf s.lt
  /-- `LT[k].seen <= NOW` (R32 (b)) -/
  ltSeen : ∀ p ∈ s.lt, p.2.seen ≤ s.now
  /-- `IF[LT[k].ifx].valid = 1` (R32 (c)) -/
  ltIfs : ∀ p ∈ s.lt, s.ifValid p.2.ifx = true
  /-- `|LT| <= N_LT` (R32 (d)) -/
  ltRoom : ∀ n ∈ s.par.nLt, s.lt.length ≤ n
  /-- LT is empty but in phase LIVE and SWITCH personality (R31, R289) -/
  ltUse : s.lt ≠ [] → s.live = true ∧ s.mode = .switch
  /-- VICTIMS is a set of keys of LT (R34, R285) -/
  victimKeys : ∀ k ∈ s.victims, ∃ row, (k, row) ∈ s.lt
  /-- VICTIMS holds no key twice -/
  victimOnce : s.victims.Nodup
  /-- a row that is no pending victim was not stale at the last sweep timer event (R283, R290) -/
  ltFresh : ∀ p ∈ s.lt, p.1 ∉ s.victims → s.lastSweep ≤ p.2.seen + expireTicks s.par
  /-- RXLEN <= MAX_FRAME (R62) -/
  rxRoom : s.rxb.length ≤ s.par.maxFrame
  /-- buffers and working values hold nothing between operations (R20; the values are the model's, log entry 6) -/
  between : s.stage = .done → s.rxb = [] ∧ s.rxIf = 0 ∧ s.txb = [] ∧ s.work = Work.blank

/-- The configuration of the block, frozen in phases LIVE and FAILED (R30). -/
def State.sameConfig (s t : State) : Prop :=
  t.par = s.par ∧ t.mode = s.mode ∧ t.ifs = s.ifs ∧ t.rt = s.rt ∧ t.arp = s.arp

/-- The state R20 names, all of it: what survives from one operation to the next. -/
def State.sameState (s t : State) : Prop :=
  s.sameConfig t ∧ t.live = s.live ∧ t.cfgErr = s.cfgErr ∧ t.lt = s.lt ∧ t.now = s.now ∧ t.victims = s.victims

/-- The three admission tests of R201 and R261 pass. -/
def State.Admits (s : State) (inIf : IfIdx) (F : Bytes) : Prop :=
  s.phase = .live ∧ s.ifValid inIf = true ∧ 14 ≤ F.length ∧ F.length ≤ s.par.maxFrame

/-- The tests of stage S1P pass: the IPv4 header and datagram lie within the frame (R203). -/
def WellShaped (F : Bytes) : Prop :=
  34 ≤ F.length ∧ field F 14 1 / 16 = 4 ∧ 20 ≤ headerLen F ∧ 14 + headerLen F ≤ F.length ∧
    headerLen F ≤ totalLen F ∧ 14 + totalLen F ≤ F.length

/-- The frame reaches stage S3: IPv4, well shaped, header checksum valid (R202 to R204). -/
def ValidIpv4 (F : Bytes) : Prop :=
  field F 12 2 = 0x0800 ∧ WellShaped F ∧ ipv4CsumOk (ipHeader F) (.ofNat 16 (field F 24 2)) = true

/-- The working values of the operation in progress are those stage S1P computes from the frame in RXB (R203, R230). -/
def State.Parsed (s : State) : Prop :=
  WellShaped s.rxb ∧ s.work.ihl = .ofNat 4 (field s.rxb 14 1) ∧ s.work.tl = .ofNat 16 (totalLen s.rxb)

/-- The frames a step has put on the TX port. -/
def State.sent (s t : State) : List Tx := t.out.tx.drop s.out.tx.length

end Sys2Proof.Machine
end

