-- ==== Sys2Proof/Certificates/Slice0/Obligations.lean ====
section
/-! DEFINITION. Sys2Proof/Certificates/Slice0/Obligations.lean: the statements about the block, one definition each. A statement
about a next state writes that state in full, so it is at once the result, the frame and the completion of the
operations it names. -/

open Sys2Proof Sys2Proof.Machine

/-! ## Encodings (30_encoding.md) -/

/-- R92 to R99: every operation record decodes to the operation it encodes, every operand at every value. -/
def Obligations.DecodeOfEncodeIsTheInstruction : Prop :=
  ∀ (i : Instr) (rest : Bytes), i.isRecord = true → i.wellFormed = true →
    decodeRecord (encode i ++ rest) = .record i rest

/-- R92 to R99: a record that decodes is the encoding of what it decodes to, so no bit of it is ignored. -/
def Obligations.DecodedRecordIsItsEncoding : Prop :=
  ∀ (b : Bytes) (i : Instr) (rest : Bytes), decodeRecord b = .record i rest →
    i.isRecord = true ∧ i.wellFormed = true ∧ b = encode i ++ rest

/-- R113: byte 0 decides the format; a CTL record is 16 bytes long, an RX record `4 + len`, `len` its bytes 2 and 3. That a
string shorter than its record is incomplete, and so waited for, is the model's choice (log entry 15). -/
def Obligations.RecordLengthFollowsByteZero : Prop :=
  (∀ (inIf hi lo : Byte) (F rest : Bytes), F.length = hi.toNat * 256 + lo.toNat →
    decodeRecord (0x10 :: inIf :: hi :: lo :: (F ++ rest)) = .record (.rx inIf F) rest) ∧
  (∀ (inIf hi lo : Byte) (F : Bytes), F.length < hi.toNat * 256 + lo.toNat →
    decodeRecord (0x10 :: inIf :: hi :: lo :: F) = .incomplete) ∧
  (∀ (op : Byte) (b rest : Bytes), op ≠ 0x10 → b.length = 15 →
    (∃ i, decodeRecord (op :: (b ++ rest)) = .record i rest) ∨
    (∃ why, decodeRecord (op :: (b ++ rest)) = .illegal why rest)) ∧
  (∀ (op : Byte) (b : Bytes), op ≠ 0x10 → b.length < 15 → decodeRecord (op :: b) = .incomplete)

/-- R115 (a): a CTL record with an undefined opcode, or with a nonzero `rsv` bit of R93 to R99, is refused by name; with a
defined opcode and no such bit it is an operation. -/
def Obligations.IllegalRecordsAreRefusedByName : Prop :=
  ∀ (op : Byte) (b rest : Bytes), op ≠ 0x10 → b.length = 15 →
    let r := op :: b
    let rsvClear : Prop :=
      (op = 0x01 → field r 12 4 = 0) ∧ (op = 0x02 → field r 14 2 = 0) ∧
      (op = 0x03 → field r 1 1 = 0 ∧ field r 12 4 = 0) ∧ (op = 0x04 → field r 1 1 < 2 ∧ field r 2 14 = 0) ∧
      (op = 0x05 → field r 1 15 = 0) ∧ (op = 0x20 → field r 1 15 = 0) ∧
      (op = 0x21 → field r 1 1 = 0 ∧ field r 8 8 = 0)
    let defined : Prop := op ∈ [0x01, 0x02, 0x03, 0x04, 0x05, 0x20, 0x21]
    (¬ defined → decodeRecord (r ++ rest) = .illegal (.undefinedOpcode op) rest) ∧
    (defined → ¬ rsvClear → decodeRecord (r ++ rest) = .illegal (.reservedBits op) rest) ∧
    (defined → rsvClear → ∃ i, decodeRecord (r ++ rest) = .record i rest)

/-- R109, R4: the (type, code) pairs of the ICMPOUT rows are exactly the closed set. -/
def Obligations.IcmpTypeCodesAreTheClosedSet : Prop :=
  ∀ (t c : Byte) (i : Instr), decodeIcmpOut t c = some i ↔
    (t, c, i) ∈ [((11 : Byte), (0 : Byte), Instr.icmpTimeExceeded), (3, 0, .icmpNetUnreach), (3, 1, .icmpHostUnreach),
      (3, 3, .icmpPortUnreach), (0, 0, .icmpEchoReply)]

/-- R114: the three levels of the classification of a received frame. (Marked derived in the spec.) -/
def Obligations.FrameClassesFollowTheThreeLevels : Prop :=
  (∀ et i, classifyEthertype et = some i ↔ et = 0x0800 ∧ i = .frameIpv4) ∧
  (∀ proto pl first,
    ((classifyLocal proto pl first).instr = .frameLocalTcp ↔ proto = 6) ∧
    ((classifyLocal proto pl first).instr = .frameLocalUdp ↔ proto = 17) ∧
    ((classifyLocal proto pl first).instr = .frameLocalEchoreq ↔ proto = 1 ∧ 4 ≤ pl ∧ first = 8) ∧
    ((classifyLocal proto pl first).instr = .frameLocalOther ↔
      proto ≠ 6 ∧ proto ≠ 17 ∧ ¬(proto = 1 ∧ 4 ≤ pl ∧ first = 8)))

/-- Words written out from R93 to R99 and R109 decode to the operations they stand for (95_test_vectors.md K1, K5, K9, K11,
K14, E1, E6). -/
def Obligations.SampleWordsDecode : Prop :=
  decodeTableWord 128 0x01010200000000010a00010100000000 = some (.cfgIface 1 0x020000000001 0x0a000101) ∧
  decodeTableWord 128 0x02010a000100ffffff00000000000000 = some (.cfgRoute 0x0a000100 0xffffff00 0 1) ∧
  decodeTableWord 128 0x03000a000105aabbccddee0100000000 = some (.cfgArp 0x0a000105 0xaabbccddee01) ∧
  decodeTableWord 128 0x04010000000000000000000000000000 = some (.cfgMode .switch) ∧
  decodeTableWord 128 0x05000000000000000000000000000000 = some .cfgCommit ∧
  decodeTableWord 128 0x20000000000000000000000000000000 = some .tick ∧
  decodeTableWord 128 0x2100aa000000000a0000000000000000 = some (.sweepDel 0xaa000000000a) ∧
  decodeTableWord 40 0x10030001ab = some (.rx 3 [0xab]) ∧
  decodeTableWord 16 0x0301 = some .icmpHostUnreach

/-! ## Steps, agents, reset -/

/-- A step between operations runs the operation at the OP port, decoded, with its record consumed; where no other agent
has an enabled step the frame port is the one granted (R68, R90). -/
def Obligations.StepRunsTheDecodedRecord : Prop :=
  ∀ (s : State) (i : Instr) (rest : Bytes), s.env.resetIn = false → s.stage = .done →
    decodeRecord s.env.opPort = .record i rest → i.internalOnly = false →
    (∀ e, s.grant = some (.framePort, e) → step s = exec i { s with env := { e with opPort := rest } }) ∧
    (s.victims = [] → s.env.ticksDue = 0 → step s = exec i { s with env := { s.env with opPort := rest } })

/-- A step of the timebase is one TICK that was due; a step of the sweeper is SWEEP.DEL of some pending victim, and its choice
touches none of the ports (R71). Every victim can be the one (R284), where the choice of it is prepared (log entry 3). -/
def Obligations.StepRunsTimebaseAndSweeper : Prop :=
  ∀ (s : State) (e : Env), s.env.resetIn = false → s.stage = .done →
    (s.grant = some (.timebase, e) → step s = exec .tick { s with env := { e with ticksDue := e.ticksDue - 1 } }) ∧
    (s.grant = some (.sweeper, e) →
      ∃ k ∈ s.victims, ∃ e', step s = exec (.sweepDel k) { s with env := e' } ∧
        e' = { s.env with grants := e'.grants, victimPicks := e'.victimPicks, draws := e'.draws }) ∧
    (∀ k ∈ s.victims, ∃ e',
      step { s with env := { s.env with grants := [.sweeper], victimPicks := [k] } } =
        exec (.sweepDel k) { s with env := e' })

/-- R75: the arbiter grants an agent whose step is enabled, and every enabled agent can be granted; a choice touches none of
the ports. The frame port is enabled exactly when a whole record waits that is no TICK held back by VICTIMS, so an RX is while
a sweep is pending (R283, R80); TICK only while VICTIMS is empty, SWEEP.DEL exactly when it is not. R326: with no step enabled
the block holds its state. That the choice is prepared or a free value (log entry 3), that TICK records may stand at the OP
port (log entry 14) and that an incomplete record is waited for (log entry 15) is the model's reading. -/
def Obligations.GrantsGoToEnabledAgents : Prop :=
  ∀ s : State,
    (∀ a e, s.grant = some (a, e) → a ∈ s.enabledAgents ∧ e = { s.env with grants := e.grants, draws := e.draws }) ∧
    (s.grant = none ↔ s.enabledAgents = []) ∧
    (s.env.resetIn = false → s.stage = .done → s.enabledAgents = [] → step s = .next s) ∧
    (Agent.sweeper ∈ s.enabledAgents ↔ s.victims ≠ []) ∧
    (Agent.timebase ∈ s.enabledAgents ↔ 0 < s.env.ticksDue ∧ s.victims = []) ∧
    (Agent.framePort ∈ s.enabledAgents ↔
      decodeRecord s.env.opPort ≠ .incomplete ∧
        ∀ rest, decodeRecord s.env.opPort = .record .tick rest → s.victims = []) ∧
    (∀ a ∈ s.enabledAgents, ∃ e, ({ s with env := { s.env with grants := [a] } } : State).grant = some (a, e))

/-- The classes and emissions of the opcode table mean what the stages do (R114, R202, R206, R231): an RX operation met in
the middle goes on with the meaning of the row its frame decodes to there, and that is what its stage does; where no row
is decoded the stage runs. That a step may start there is the model's choice (log entry 7). -/
def Obligations.StepInTheMiddleRunsTheClassAndTheStage : Prop :=
  ∀ s : State, s.env.resetIn = false → s.stage ≠ .done →
    (∀ i, s.stageInstr = some i → step s = exec i s) ∧ step s = stageStep s

/-- R115 (b), (c), (d), R321: how the block answers a record the decoder refuses and SWEEP.DEL at the OP port, by phase: the
frame port on its own, and the step of the block where the frame port is granted, as it is where no other agent can step. -/
def Obligations.IllegalRecordsAnswerByPhase : Prop :=
  ∀ s : State,
    let answers (u : State) (o : Outc) : Prop :=
      ∀ rest : Bytes,
        let failed : State := ({ u.consume rest with cfgErr := true }).result (Res.plain .cfgFailed)
        let refused (c : ResCode) : State := (u.consume rest).result (Res.plain c)
        (∀ op, decodeRecord s.env.opPort = .illegal (.undefinedOpcode op) rest →
          (s.phase = .config → o = .next failed) ∧ (s.phase ≠ .config → o = .next (refused .illegalOp))) ∧
        (∀ op, decodeRecord s.env.opPort = .illegal (.reservedBits op) rest → op ∈ [0x20, 0x21] →
          (s.phase = .config → o = .next failed) ∧ (s.phase ≠ .config → o = .next (refused .illegalOp))) ∧
        (∀ op, decodeRecord s.env.opPort = .illegal (.reservedBits op) rest → op ∈ [0x01, 0x02, 0x03, 0x04, 0x05] →
          (s.phase = .config → o = .next failed) ∧ (s.phase = .live → o = .next (refused .illegalOp)) ∧
          (s.phase = .failed → o = .next (refused .cfgFailed))) ∧
        (∀ k, decodeRecord s.env.opPort = .record (.sweepDel k) rest →
          (s.phase = .config → o = .next failed) ∧ (s.phase ≠ .config → o = .next (refused .illegalOp)))
    answers s (framePortStep s) ∧
    (s.env.resetIn = false → s.stage = .done →
      (∀ e, s.grant = some (.framePort, e) → answers { s with env := e } (step s)) ∧
      (s.victims = [] → s.env.ticksDue = 0 → answers s (step s)))

/-- R40: every record taken from the OP port, but a TICK that must wait, ends with exactly one result record, by the frame port
on its own and by the step of the block where the frame port is granted, as it is where no other agent can step. -/
def Obligations.EveryRecordHasOneResult : Prop :=
  ∀ (s : State), (∀ rest, decodeRecord s.env.opPort = .record .tick rest → s.victims = []) →
    decodeRecord s.env.opPort ≠ .incomplete →
    (∃ t r, framePortStep s = .next t ∧ t.out.res = s.out.res ++ [r]) ∧
    (s.env.resetIn = false → s.stage = .done →
      (∃ e, s.grant = some (.framePort, e)) ∨ (s.victims = [] ∧ s.env.ticksDue = 0) →
      ∃ t r, step s = .next t ∧ t.out.res = s.out.res ++ [r])

/-- R340: asserting reset, whatever the block is doing, puts every piece of its state at the reset value, with no Tx and no
result; the parameters and what the environment presents stay. Nothing else leaves phase LIVE or FAILED.
That `par`, `env` and `out` stay, and that `stage` is DONE, is the model's choice (log entries 10 and 5). -/
def Obligations.ResetInputRestoresReset : Prop :=
  (∀ s t : State, step s = .next t → s.env.resetIn = false → s.phase ≠ .config → t.phase = s.phase) ∧
  ∀ s : State, s.env.resetIn = true →
    ∃ t, step s = .next t ∧ t.mode = .router ∧ t.live = false ∧ t.cfgErr = false ∧ (∀ i, (t.ifSlot i).valid = false) ∧
      t.rt = [] ∧ t.arp = [] ∧ t.lt = [] ∧ t.now = 0 ∧ t.victims = [] ∧ t.stage = .done ∧ t.phase = .config ∧
      t.par = s.par ∧ t.out = s.out ∧ t.env = { s.env with resetIn := false }

/-- R42: the state after reset. State.reset has the default parameters of R10 (log entry 1). -/
def Obligations.ResetState : Prop :=
  State.reset.mode = .router ∧ State.reset.live = false ∧ State.reset.cfgErr = false ∧
  (∀ i, (State.reset.ifSlot i).valid = false) ∧ State.reset.rtCnt = 0 ∧ State.reset.rt = [] ∧
  State.reset.arpCnt = 0 ∧ State.reset.arp = [] ∧ State.reset.lt = [] ∧ State.reset.now = 0 ∧
  State.reset.victims = [] ∧ State.reset.phase = .config

/-- R77, R215 (d): from every state between operations a step answers a next state, again between operations: no fault, no
refusal, no operation left unfinished. -/
def Obligations.EveryStepBetweenOperationsCompletes : Prop :=
  ∀ s : State, s.stage = .done → ∃ t, step s = .next t ∧ t.stage = .done

/-! ## The invariant -/

/-- The state after reset meets the invariant. -/
def Obligations.ResetMeetsTheInvariant : Prop := State.reset.Inv

/-- Every step keeps the invariant: table capacities, contiguous masks, unique keys, one phase, the invariants of LT (R32),
VICTIMS a set of keys of LT, nothing left over between operations. -/
def Obligations.StepKeepsTheInvariant : Prop := ∀ s t : State, s.Inv → step s = .next t → t.Inv

/-- R32 (e), R290: under the invariant, whenever VICTIMS is empty every row is younger than EXPIRE_TICKS + SWEEP_TICKS, and
at any time every row that is no pending victim is. (R290 is marked derived in the spec.) -/
def Obligations.LearnedRowsAreBoundedlyStale : Prop :=
  ∀ s : State, s.Inv →
    (s.victims = [] → ∀ p ∈ s.lt, s.now - p.2.seen < expireTicks s.par + sweepTicks s.par) ∧
    (∀ p ∈ s.lt, p.1 ∉ s.victims → s.now - p.2.seen < expireTicks s.par + sweepTicks s.par)

/-! ## Whole-machine rules -/

/-- R25, R26, R30: in phases LIVE and FAILED no step changes the configuration, LIVE or CFG_ERR; only reset does. -/
def Obligations.ConfigurationIsFrozenOutsideConfig : Prop :=
  ∀ s t : State, step s = .next t → s.env.resetIn = false → s.phase ≠ .config →
    s.sameConfig t ∧ t.live = s.live ∧ t.cfgErr = s.cfgErr

/-- R33, R286: NOW moves by 1 or not at all, and only while VICTIMS is empty; nothing but reset sets it back. -/
def Obligations.TimeMovesOnlyByTicks : Prop :=
  ∀ s t : State, step s = .next t → s.env.resetIn = false →
    t.now = s.now ∨ (t.now = s.now + 1 ∧ s.victims = [])

/-- R285, R269: a learned row, a pending victim's too, is kept with its interface and a time no older, or is gone, and then
its key was a pending victim. (R269 is marked derived in the spec.) -/
def Obligations.RowsLeaveOnlyAsVictims : Prop :=
  ∀ s t : State, s.Inv → step s = .next t → s.env.resetIn = false →
    ∀ k row, ltFind s.lt k = some row →
      (∃ row', ltFind t.lt k = some row' ∧ row'.ifx = row.ifx ∧ row.seen ≤ row'.seen) ∨
      (ltFind t.lt k = none ∧ k ∈ s.victims)

/-- R66, R244, R62: from a state of the invariant between operations, every frame a step transmits leaves by a valid
interface and is no longer than MAX_FRAME. -/
def Obligations.TransmittedFramesFitAValidInterface : Prop :=
  ∀ s t : State, s.Inv → s.stage = .done → step s = .next t →
    ∀ x ∈ s.sent t, s.ifValid x.ifx = true ∧ x.bytes.length ≤ s.par.maxFrame

/-! ## Configuration (40_config_ops.md) -/

/-- R142: CFG.IFACE, in every phase. -/
def Obligations.CfgIfaceWritesOneFreshSlot : Prop :=
  ∀ (s : State) (ifx : IfIdx) (mac : Mac) (ip : Ip),
    (s.phase = .live → exec (.cfgIface ifx mac ip) s = .next (s.result (Res.plain .illegalOp))) ∧
    (s.phase = .failed → exec (.cfgIface ifx mac ip) s = .next (s.result (Res.plain .cfgFailed))) ∧
    (s.phase = .config → s.par.nIf ≤ ifx.toNat ∨ (s.ifSlot ifx).valid = true →
      exec (.cfgIface ifx mac ip) s = .next (({ s with cfgErr := true }).result (Res.plain .cfgFailed))) ∧
    (s.phase = .config → ifx.toNat < s.par.nIf → (s.ifSlot ifx).valid = false → s.ifs.length = s.par.nIf →
      ∃ t : State, exec (.cfgIface ifx mac ip) s = .next (t.result (Res.plain .done)) ∧ t = { s with ifs := t.ifs } ∧
        t.ifs.length = s.par.nIf ∧ t.ifSlot ifx = { valid := true, mac := mac, ip := ip } ∧
        ∀ j, j ≠ ifx → t.ifSlot j = s.ifSlot j)

/-- R144: CFG.ROUTE, in every phase. -/
def Obligations.CfgRouteAppendsOneEntry : Prop :=
  ∀ (s : State) (dest mask gw : Ip) (ifx : IfIdx),
    (s.phase = .live → exec (.cfgRoute dest mask gw ifx) s = .next (s.result (Res.plain .illegalOp))) ∧
    (s.phase = .failed → exec (.cfgRoute dest mask gw ifx) s = .next (s.result (Res.plain .cfgFailed))) ∧
    (s.phase = .config → s.par.nRt ≤ s.rtCnt ∨ contiguous mask = false ∨ s.par.nIf ≤ ifx.toNat →
      exec (.cfgRoute dest mask gw ifx) s = .next (({ s with cfgErr := true }).result (Res.plain .cfgFailed))) ∧
    (s.phase = .config → s.rtCnt < s.par.nRt → contiguous mask = true → ifx.toNat < s.par.nIf →
      exec (.cfgRoute dest mask gw ifx) s =
        .next (({ s with rt := s.rt ++ [RouteEntry.mk dest mask gw ifx] }).result
          (Res.plain .done)))

/-- R147, R148: CFG.ARP, in every phase. -/
def Obligations.CfgArpAppendsOneFreshKey : Prop :=
  ∀ (s : State) (ip : Ip) (mac : Mac),
    (s.phase = .live → exec (.cfgArp ip mac) s = .next (s.result (Res.plain .illegalOp))) ∧
    (s.phase = .failed → exec (.cfgArp ip mac) s = .next (s.result (Res.plain .cfgFailed))) ∧
    (s.phase = .config → s.par.nArp ≤ s.arpCnt ∨ (∃ e ∈ s.arp, e.ip = ip) →
      exec (.cfgArp ip mac) s = .next (({ s with cfgErr := true }).result (Res.plain .cfgFailed))) ∧
    (s.phase = .config → s.arpCnt < s.par.nArp → (∀ e ∈ s.arp, e.ip ≠ ip) →
      exec (.cfgArp ip mac) s =
        .next (({ s with arp := s.arp ++ [ArpEntry.mk ip mac] }).result (Res.plain .done)))

/-- R149: CFG.MODE, in every phase. -/
def Obligations.CfgModeSelectsThePersonality : Prop :=
  ∀ (s : State) (m : Mode),
    (s.phase = .live → exec (.cfgMode m) s = .next (s.result (Res.plain .illegalOp))) ∧
    (s.phase = .failed → exec (.cfgMode m) s = .next (s.result (Res.plain .cfgFailed))) ∧
    (s.phase = .config → exec (.cfgMode m) s = .next (({ s with mode := m }).result (Res.plain .done)))

/-- R150: CFG.COMMIT, in every phase. -/
def Obligations.CfgCommitGoesLive : Prop :=
  ∀ s : State,
    (s.phase = .live → exec .cfgCommit s = .next (s.result (Res.plain .illegalOp))) ∧
    (s.phase = .failed → exec .cfgCommit s = .next (s.result (Res.plain .cfgFailed))) ∧
    (s.phase = .config → (∃ e ∈ s.rt, (s.ifSlot e.ifx).valid = false) →
      exec .cfgCommit s = .next (({ s with cfgErr := true }).result (Res.plain .cfgFailed))) ∧
    (s.phase = .config → (∀ e ∈ s.rt, (s.ifSlot e.ifx).valid = true) →
      exec .cfgCommit s = .next (({ s with live := true }).result (Res.plain .done)))

/-- R145: the masks `contiguous` accepts are the 33 prefix masks, among them the greater mask is the longer prefix, and any
other mask is refused as malformed configuration. -/
def Obligations.ContiguousMasksArePrefixMasks : Prop :=
  (∀ m : Ip, contiguous m = true ↔ ∃ n ≤ 32, m = BitVec.ofNat 32 ((2 ^ 32 - 2 ^ (32 - n)) % 2 ^ 32)) ∧
  (∀ m : Ip, contiguous m = true ↔ (~~~m) &&& ((~~~m) + 1) = 0) ∧
  (∀ a b : Nat, a ≤ 32 → b ≤ 32 → (prefixMask b < prefixMask a ↔ b < a)) ∧
  (∀ (s : State) (dest m gw : Ip) (ifx : IfIdx), s.phase = .config → contiguous m = false →
    exec (.cfgRoute dest m gw ifx) s = .next (({ s with cfgErr := true }).result (Res.plain .cfgFailed)))

/-! ## Lookups (41_route_arp_lookup.md) -/

/-- R160 to R164: RT_LOOKUP answers the first loaded among the matching entries of greatest mask, that is of longest prefix,
and nothing exactly when no entry matches; two matching entries of equal masks are duplicates of one prefix. -/
def Obligations.RouteLookupIsLongestPrefixMatch : Prop :=
  ∀ (rt : List RouteEntry) (a : Ip),
    (rtLookup rt a = none ↔ ∀ x ∈ rt, (x.dest &&& x.mask) ≠ (a &&& x.mask)) ∧
    (∀ e, rtLookup rt a = some e ↔
      ∃ pre post, rt = pre ++ e :: post ∧ (e.dest &&& e.mask) = (a &&& e.mask) ∧
        (∀ x ∈ pre, (x.dest &&& x.mask) = (a &&& x.mask) → x.mask < e.mask) ∧
        (∀ x ∈ post, (x.dest &&& x.mask) = (a &&& x.mask) → x.mask ≤ e.mask)) ∧
    (∀ e, rtLookup rt a = some e → ∀ x ∈ rt, (x.dest &&& x.mask) = (a &&& x.mask) →
      (∀ n k, n ≤ 32 → k ≤ 32 → e.mask = prefixMask n → x.mask = prefixMask k → k ≤ n) ∧
      (x.mask = e.mask → (x.dest &&& x.mask) = (e.dest &&& e.mask)))

/-- R166: ARP_LOOKUP answers the MAC of the unique entry with the address, and nothing when there is none. -/
def Obligations.ArpLookupFindsTheUniqueEntry : Prop :=
  ∀ (arp : List ArpEntry) (a : Ip), (arp.Pairwise fun e f => e.ip ≠ f.ip) →
    (∀ m, arpLookup arp a = some m ↔ { ip := a, mac := m } ∈ arp) ∧
    (arpLookup arp a = none ↔ ∀ e ∈ arp, e.ip ≠ a)

/-- R169, by R168: the chain from an address to its egress interface and next-hop MAC. (R169 is marked derived in the spec.) -/
def Obligations.ResolveIsTheRouteGatewayArpChain : Prop :=
  ∀ (s : State) (a : Ip),
    (rtLookup s.rt a = none → s.resolve a = .noRoute) ∧
    (∀ r, rtLookup s.rt a = some r →
      (∀ nh, (nh = if r.gw ≠ 0 then r.gw else a) →
        (arpLookup s.arp nh = none → s.resolve a = .noArp r) ∧
        (∀ m, arpLookup s.arp nh = some m → s.resolve a = .ok r.ifx m)))

/-- R170: an address is local when some valid interface has it, the ingress one or another. -/
def Obligations.LocalMeansSomeValidInterface : Prop :=
  ∀ (s : State) (a : Ip), s.ifs.length = s.par.nIf → s.par.nIf ≤ 255 →
    (s.isLocal a = true ↔ ∃ i : IfIdx, s.ifValid i = true ∧ (s.ifSlot i).ip = a)

/-! ## Checksums (42_checksum_ttl.md) -/

/-- R181 (a): what the fold of CSUM16 leaves, and when CSUM16 is 0xFFFF. (Marked derived in the spec.) -/
def Obligations.FoldedSumIsTheResidue : Prop :=
  ∀ B : Bytes,
    foldedSum B ≤ 0xFFFF ∧ foldedSum B % 0xFFFF = sumWords B % 0xFFFF ∧ (foldedSum B = 0 ↔ ∀ b ∈ B, b = 0) ∧
    (csum16 B = 0xFFFF ↔ ∀ b ∈ B, b = 0)

/-- R181 (d): a string with its CSUM16 stored into a word of it that was zero sums to all ones.
(Marked derived in the spec.) -/
def Obligations.StoredChecksumSumsToAllOnes : Prop :=
  ∀ P Q : Bytes, P.length % 2 = 0 →
    foldedSum (P ++ beBytes 2 (csum16 (P ++ zeros 2 ++ Q)).toNat ++ Q) = 0xFFFF

/-- R183 (a): a received checksum field 0xFFFF never validates a header whose first word is not zero.
(Marked derived in the spec.) -/
def Obligations.AllOnesChecksumNeverValidates : Prop :=
  ∀ H : Bytes, 20 ≤ H.length → field H 0 2 ≠ 0 → ipv4CsumOk H 0xFFFF = false

/-- R188: for a header that passed validation, with a TTL of at least 1, the incremental form `~fold(~csum_rx + ~w + w')`
agrees with the full recomputation of R187. (Marked derived in the spec.) -/
def Obligations.IncrementalChecksumAgrees : Prop :=
  ∀ (H : Bytes) (c : Half), 20 ≤ H.length → H.length % 2 = 0 → field H 10 2 = c.toNat → field H 0 2 ≠ 0 →
    ipv4CsumOk H c = true → 1 ≤ field H 8 1 →
    let w := field H 8 2
    let sum := (0xFFFF - c.toNat) + (0xFFFF - w) + (w - 0x100)
    (csumWithTtl H (.ofNat 8 (field H 8 1 - 1))).toNat = 0xFFFF - carryFold sum sum

/-! ## RX in ROUTER personality (43_router_pipeline.md) -/

/-- R214, R310: the staged machine, with its guarded reads and its buffers, does what the flat pseudocode of R214 decides,
for every state in ROUTER personality and every frame. (Marked derived in the spec.) -/
def Obligations.RouterRxRefinesThePseudocode : Prop :=
  ∀ (s : State) (inIf : IfIdx) (F : Bytes), s.mode = .router →
    exec (.rx inIf F) s = .next (routerResult s inIf F)

/-- R73, R215: RX in ROUTER personality writes no state, puts out one result, and transmits at most one frame. -/
def Obligations.RouterRxWritesNoState : Prop :=
  ∀ (s t : State) (inIf : IfIdx) (F : Bytes), s.mode = .router → exec (.rx inIf F) s = .next t →
    s.sameState t ∧ (∃ r, t.out.res = s.out.res ++ [r]) ∧
    (t.out.tx = s.out.tx ∨ ∃ x, t.out.tx = s.out.tx ++ [x]) ∧
    t.env.opPort = s.env.opPort ∧ t.env.ticksDue = s.env.ticksDue

/-- R73: what RX in ROUTER personality puts out is a function of the configuration, the phase, its operands and the answer of
the transmit primitive alone; the learning table, the time, the pending victims and everything else do not show. -/
def Obligations.RouterRxDependsOnConfigurationAlone : Prop :=
  ∀ (s t : State) (inIf : IfIdx) (F : Bytes), s.mode = .router → s.sameConfig t → t.live = s.live →
    t.cfgErr = s.cfgErr → t.txOk = s.txOk →
    ∃ (s' t' : State) (frames : List Tx) (r : Res),
      exec (.rx inIf F) s = .next s' ∧ exec (.rx inIf F) t = .next t' ∧
      s'.out.tx = s.out.tx ++ frames ∧ t'.out.tx = t.out.tx ++ frames ∧
      s'.out.res = s.out.res ++ [r] ∧ t'.out.res = t.out.res ++ [r]

/-- R201, R261, R310 (1 to 3): the admission tests of RX, in both personalities. -/
def Obligations.RxAdmissionRefusals : Prop :=
  ∀ (s : State) (inIf : IfIdx) (F : Bytes),
    (s.phase ≠ .live → exec (.rx inIf F) s = .next (s.endRx (Res.plain .dropNotLive))) ∧
    (s.phase = .live → s.ifValid inIf = false → exec (.rx inIf F) s = .next (s.endRx (Res.plain .illegalOp))) ∧
    (s.phase = .live → s.ifValid inIf = true → F.length < 14 ∨ s.par.maxFrame < F.length →
      exec (.rx inIf F) s = .next (s.endRx (Res.plain .dropMalformed)))

/-- R202, R203: a frame that is not IPv4, and an IPv4 frame whose header or datagram does not fit, is dropped silently. -/
def Obligations.NonIpv4AndMalformedFramesAreDropped : Prop :=
  ∀ (s : State) (inIf : IfIdx) (F : Bytes), s.mode = .router → s.Admits inIf F →
    (field F 12 2 ≠ 0x0800 → exec (.rx inIf F) s = .next (s.endRx (Res.plain .dropNotIpv4))) ∧
    (field F 12 2 = 0x0800 → ¬ WellShaped F → exec (.rx inIf F) s = .next (s.endRx (Res.plain .dropMalformed)))

/-- R204, R182: a header whose recomputed checksum differs from the received one is dropped silently, whatever its TTL. -/
def Obligations.BadChecksumFramesAreDropped : Prop :=
  ∀ (s : State) (inIf : IfIdx) (F : Bytes), s.mode = .router → s.Admits inIf F → field F 12 2 = 0x0800 → WellShaped F →
    csum16 (memWrite (ipHeader F) 10 2 0) ≠ .ofNat 16 (field F 24 2) →
    exec (.rx inIf F) s = .next (s.endRx (Res.plain .dropBadCsum))

/-- R205, R246: an expired packet is answered by Time Exceeded quoting its header as received, whatever its destination. -/
def Obligations.ExpiredPacketsGetTimeExceeded : Prop :=
  ∀ (s : State) (inIf e : IfIdx) (m : Mac) (F : Bytes), s.mode = .router → s.Admits inIf F → ValidIpv4 F →
    (rxTtl F).toNat ≤ 1 → s.resolve (srcAddr F) = .ok e m →
    exec (.rx inIf F) s =
      .next ((s.emitTx e (synthFrame m (s.ifSlot e).mac (s.ifSlot e).ip (srcAddr F) .timeExceeded
        (zeros 4 ++ ipHeader F ++ span F (14 + headerLen F) (min 8 (payloadLen F))))).endRx
          { code := .icmpSent, icmpType := 11, icmpCode := 0, txCount := 1, sendFail := !s.txOk, learn := .none })

/-- R206, R249, R250: a datagram for the router is answered by Port Unreachable (TCP, UDP) or Echo Reply (Echo Request), or
dropped (anything else); it is never forwarded. -/
def Obligations.LocalDatagramsAreAnsweredByProtocol : Prop :=
  ∀ (s : State) (inIf e : IfIdx) (m : Mac) (F : Bytes), s.mode = .router → s.Admits inIf F → ValidIpv4 F →
    2 ≤ (rxTtl F).toNat → s.isLocal (dstAddr F) = true →
    let reply (k : IcmpKind) (P : Bytes) : State :=
      (s.emitTx e (synthFrame m (s.ifSlot e).mac (s.ifSlot e).ip (srcAddr F) k P)).endRx (Res.icmp k (!s.txOk))
    let echo : Prop := field F 23 1 = 1 ∧ 4 ≤ payloadLen F ∧ field F (14 + headerLen F) 1 = 8
    (s.resolve (srcAddr F) = .ok e m → field F 23 1 = 6 ∨ field F 23 1 = 17 →
      exec (.rx inIf F) s = .next (reply .portUnreach
        (zeros 4 ++ ipHeader F ++ span F (14 + headerLen F) (min 8 (payloadLen F))))) ∧
    (s.resolve (srcAddr F) = .ok e m → echo →
      exec (.rx inIf F) s = .next (reply .echoReply (span F (14 + headerLen F + 4) (payloadLen F - 4)))) ∧
    (field F 23 1 ≠ 6 → field F 23 1 ≠ 17 → ¬ echo →
      exec (.rx inIf F) s = .next (s.endRx (Res.plain .dropLocalOther)))

/-- R208, R210, R247, R248: no route is answered by Network Unreachable, no ARP entry for the next hop by Host Unreachable;
both quote the header as received. -/
def Obligations.UnreachableDestinationsAreReported : Prop :=
  ∀ (s : State) (inIf e : IfIdx) (m : Mac) (F : Bytes), s.mode = .router → s.Admits inIf F → ValidIpv4 F →
    2 ≤ (rxTtl F).toNat → s.isLocal (dstAddr F) = false → s.resolve (srcAddr F) = .ok e m →
    let reply (k : IcmpKind) : State :=
      (s.emitTx e (synthFrame m (s.ifSlot e).mac (s.ifSlot e).ip (srcAddr F) k
        (zeros 4 ++ ipHeader F ++ span F (14 + headerLen F) (min 8 (payloadLen F))))).endRx (Res.icmp k (!s.txOk))
    (s.resolve (dstAddr F) = .noRoute → exec (.rx inIf F) s = .next (reply .netUnreach)) ∧
    (∀ r, s.resolve (dstAddr F) = .noArp r → r.ifx ≠ inIf → exec (.rx inIf F) s = .next (reply .hostUnreach))

/-- R234: where the original source does not resolve, whatever ICMP message was wanted is abandoned: nothing is transmitted
and nothing else is tried. -/
def Obligations.UnresolvedRepliesAreAbandoned : Prop :=
  ∀ (s : State) (inIf : IfIdx) (F : Bytes) (k : IcmpKind), s.mode = .router → routerOutcome s inIf F = .icmp k →
    (s.resolve (srcAddr F) = .noRoute →
      exec (.rx inIf F) s = .next (s.endRx
        { code := .icmpAbandonedNoRoute, icmpType := k.icmpType, icmpCode := k.icmpCode, txCount := 0,
          sendFail := false, learn := .none })) ∧
    (∀ r, s.resolve (srcAddr F) = .noArp r →
      exec (.rx inIf F) s = .next (s.endRx
        { code := .icmpAbandonedNoArp, icmpType := k.icmpType, icmpCode := k.icmpCode, txCount := 0,
          sendFail := false, learn := .none }))

/-- R209: a packet routed back to its ingress interface is dropped silently, whether or not its next hop resolves. -/
def Obligations.SameInterfaceRoutesAreDropped : Prop :=
  ∀ (s : State) (inIf : IfIdx) (r : RouteEntry) (F : Bytes), s.mode = .router → s.Admits inIf F → ValidIpv4 F →
    2 ≤ (rxTtl F).toNat → s.isLocal (dstAddr F) = false → rtLookup s.rt (dstAddr F) = some r → r.ifx = inIf →
    exec (.rx inIf F) s = .next (s.endRx (Res.plain .dropSameIface))

/-- R212, R213, R186, R187: a packet whose next hop resolves leaves by the route's interface with both MAC addresses
rewritten, its TTL one less, its checksum recomputed and every other byte as received, and it passes validation again at
the next router. -/
def Obligations.ForwardedFrameIsRewritten : Prop :=
  ∀ (s : State) (inIf e : IfIdx) (m : Mac) (F : Bytes), s.mode = .router → s.Admits inIf F → ValidIpv4 F →
    2 ≤ (rxTtl F).toNat → s.isLocal (dstAddr F) = false → s.resolve (dstAddr F) = .ok e m → e ≠ inIf →
    ∃ G : Bytes,
      exec (.rx inIf F) s =
        .next ((s.emitTx e G).endRx
          { code := .forwarded, icmpType := 0, icmpCode := 0, txCount := 1, sendFail := !s.txOk, learn := .none }) ∧
      G.length = F.length ∧ field G 0 6 = m.toNat ∧ field G 6 6 = (s.ifSlot e).mac.toNat ∧
      field G 22 1 = field F 22 1 - 1 ∧
      field G 24 2 = (csum16 (memWrite (memWrite (ipHeader F) 8 1 (field F 22 1 - 1)) 10 2 0)).toNat ∧
      span G 12 10 = span F 12 10 ∧ span G 23 1 = span F 23 1 ∧ G.drop 26 = F.drop 26 ∧ ValidIpv4 G

/-- The class FRAME.IPV4 goes on as RX does: on an admitted frame of that class its meaning ends as the pseudocode of R214
decides (R202, R214). That the class is an operation of its own is the model's choice (log entry 7). -/
def Obligations.FrameIpv4RunsTheRestOfThePipeline : Prop :=
  ∀ (s : State), s.Admits s.rxIf s.rxb → field s.rxb 12 2 = 0x0800 →
    exec .frameIpv4 s = .next (routerResult s s.rxIf s.rxb)

/-! ## The synthesizer (44_icmp_responder.md) -/

/-- R246 to R250, R231, R234, R237, R238: each ICMP emission about the parsed frame in RXB sends its message where the source
resolves, and is abandoned where it does not. -/
def Obligations.IcmpEmissionsSendTheirMessage : Prop :=
  ∀ s : State, s.Parsed →
    let F := s.rxb
    let error : Bytes := zeros 4 ++ ipHeader F ++ span F (14 + headerLen F) (min 8 (payloadLen F))
    let gone (c : ResCode) (k : IcmpKind) : State := s.endRx
      { code := c, icmpType := k.icmpType, icmpCode := k.icmpCode, txCount := 0, sendFail := false, learn := .none }
    (∀ (e : IfIdx) (m : Mac), s.resolve (srcAddr F) = .ok e m →
      let sent (k : IcmpKind) (P : Bytes) : State :=
        (s.emitTx e (synthFrame m (s.ifSlot e).mac (s.ifSlot e).ip (srcAddr F) k P)).endRx (Res.icmp k (!s.txOk))
      exec .icmpTimeExceeded s = .next (sent .timeExceeded error) ∧
      exec .icmpNetUnreach s = .next (sent .netUnreach error) ∧
      exec .icmpHostUnreach s = .next (sent .hostUnreach error) ∧
      exec .icmpPortUnreach s = .next (sent .portUnreach error) ∧
      (4 ≤ payloadLen F →
        exec .icmpEchoReply s = .next (sent .echoReply (span F (14 + headerLen F + 4) (payloadLen F - 4))))) ∧
    (s.resolve (srcAddr F) = .noRoute → ∀ k : IcmpKind, exec k.instr s = .next (gone .icmpAbandonedNoRoute k)) ∧
    (∀ r, s.resolve (srcAddr F) = .noArp r → ∀ k : IcmpKind, exec k.instr s = .next (gone .icmpAbandonedNoArp k))

/-- R206: the four local classes, on the frame in RXB: TCP and UDP raise Port Unreachable, an Echo Request raises Echo Reply,
and where the source of the parsed frame resolves that message is sent; anything else is dropped. -/
def Obligations.LocalClassesReplyOrDrop : Prop :=
  ∀ s : State,
    exec .frameLocalTcp s = exec .icmpPortUnreach s ∧ exec .frameLocalUdp s = exec .icmpPortUnreach s ∧
    exec .frameLocalEchoreq s = exec .icmpEchoReply s ∧
    exec .frameLocalOther s = .next (s.endRx (Res.plain .dropLocalOther)) ∧
    ∀ (e : IfIdx) (m : Mac), s.Parsed → s.resolve (srcAddr s.rxb) = .ok e m →
      let F := s.rxb
      let sent (k : IcmpKind) (P : Bytes) : State :=
        (s.emitTx e (synthFrame m (s.ifSlot e).mac (s.ifSlot e).ip (srcAddr F) k P)).endRx (Res.icmp k (!s.txOk))
      exec .frameLocalTcp s =
        .next (sent .portUnreach (zeros 4 ++ ipHeader F ++ span F (14 + headerLen F) (min 8 (payloadLen F)))) ∧
      exec .frameLocalUdp s =
        .next (sent .portUnreach (zeros 4 ++ ipHeader F ++ span F (14 + headerLen F) (min 8 (payloadLen F)))) ∧
      (4 ≤ payloadLen F → exec .frameLocalEchoreq s =
        .next (sent .echoReply (span F (14 + headerLen F + 4) (payloadLen F - 4))))

/-- R110, R240: the writes of R240 leave the layout of R110, field by field, with no byte between or after. -/
def Obligations.SynthesizedFrameHasTheLayout : Prop :=
  ∀ (m n : Mac) (ip src : Ip) (k : IcmpKind) (P : Bytes), ∃ hc ic : Half,
    synthFrame m n ip src k P =
      beBytes 6 m.toNat ++ beBytes 6 n.toNat ++ [0x08, 0x00, 0x45, 0x00] ++ beBytes 2 (24 + P.length) ++
        [0x00, 0x00, 0x00, 0x00, 0x40, 0x01] ++ beBytes 2 hc.toNat ++ beBytes 4 ip.toNat ++ beBytes 4 src.toNat ++
        [k.icmpType, k.icmpCode] ++ beBytes 2 ic.toNat ++ P ∧
    hc = csum16 ([0x45, 0x00] ++ beBytes 2 (24 + P.length) ++ [0x00, 0x00, 0x00, 0x00, 0x40, 0x01] ++ zeros 2 ++
      beBytes 4 ip.toNat ++ beBytes 4 src.toNat) ∧
    ic = csum16 ([k.icmpType, k.icmpCode] ++ zeros 2 ++ P)

/-- R251 (b): the header of a synthesized frame passes validation and its ICMP message sums to all ones.
(Marked derived in the spec.) -/
def Obligations.SynthesizedChecksumsHold : Prop :=
  ∀ (m n : Mac) (ip src : Ip) (k : IcmpKind) (P : Bytes),
    let G := synthFrame m n ip src k P
    ipv4CsumOk (span G 14 20) (.ofNat 16 (field G 24 2)) = true ∧ foldedSum (span G 34 (4 + P.length)) = 0xFFFF

/-! ## RX in SWITCH personality (45_switch_learning.md) -/

/-- R262, R263: the insert-or-refresh: a present key keeps its interface and takes the current time, an absent key is
inserted while there is room, a full table learns nothing, and no other row changes. -/
def Obligations.UpsertInsertsOrRefreshesOneRow : Prop :=
  ∀ (s : State) (k : Mac) (i : IfIdx), Lt.wf s.lt →
    (∀ row, ltFind s.lt k = some row →
      s.upsertOutcome k = .refreshed ∧ ltFind (s.upsertTable k i) k = some { ifx := row.ifx, seen := s.now } ∧
        (s.upsertTable k i).length = s.lt.length) ∧
    (ltFind s.lt k = none → (∀ n ∈ s.par.nLt, s.lt.length < n) →
      s.upsertOutcome k = .inserted ∧ ltFind (s.upsertTable k i) k = some { ifx := i, seen := s.now } ∧
        (s.upsertTable k i).length = s.lt.length + 1) ∧
    (ltFind s.lt k = none → ¬(∀ n ∈ s.par.nLt, s.lt.length < n) →
      s.upsertOutcome k = .tableFull ∧ s.upsertTable k i = s.lt) ∧
    (∀ j, j ≠ k → ltFind (s.upsertTable k i) j = ltFind s.lt j) ∧ Lt.wf (s.upsertTable k i)

/-- R260, R264, R265: a frame whose destination is in LT after the upsert leaves unmodified by the learned interface alone,
even when that is the ingress interface. -/
def Obligations.SwitchForwardsDirected : Prop :=
  ∀ (s : State) (inIf : IfIdx) (F : Bytes) (row : LtRow), s.mode = .switch → s.Admits inIf F →
    let smac : Mac := .ofNat 48 (field F 6 6)
    let dmac : Mac := .ofNat 48 (field F 0 6)
    ltFind (s.upsertTable smac inIf) dmac = some row →
    exec (.rx inIf F) s =
      .next ((({ s with lt := s.upsertTable smac inIf }).emitTx row.ifx F).endRx
        { code := .swDirected, icmpType := 0, icmpCode := 0, txCount := 1, sendFail := !s.txOk,
          learn := s.upsertOutcome smac })

/-- R260, R265, R266: any other frame leaves unmodified by every valid interface but the ingress one, in ascending order. -/
def Obligations.SwitchFloodsUnknownDestinations : Prop :=
  ∀ (s : State) (inIf : IfIdx) (F : Bytes), s.mode = .switch → s.Admits inIf F → s.par.nIf ≤ 255 →
    let smac : Mac := .ofNat 48 (field F 6 6)
    let dmac : Mac := .ofNat 48 (field F 0 6)
    ltFind (s.upsertTable smac inIf) dmac = none →
    ∃ ports : List IfIdx,
      (∀ i, i ∈ ports ↔ s.ifValid i = true ∧ i ≠ inIf) ∧ (ports.Pairwise fun i j => i.toNat < j.toNat) ∧
      exec (.rx inIf F) s =
        .next ((({ s with lt := s.upsertTable smac inIf }).emitAll F ports).endRx
          { code := .swFlooded, icmpType := 0, icmpCode := 0, txCount := .ofNat 8 ports.length,
            sendFail := s.anyFail F ports, learn := s.upsertOutcome smac })

/-- R269: what one RX in SWITCH personality may change and how many frames it transmits; `N` is the number of valid
interfaces. (Marked derived in the spec.) -/
def Obligations.SwitchRxFrame : Prop :=
  ∀ (s t : State) (inIf : IfIdx) (F : Bytes), s.mode = .switch → Lt.wf s.lt → s.par.nIf ≤ 255 →
    exec (.rx inIf F) s = .next t →
    let N : Nat := ((List.range s.par.nIf).filter fun i => s.ifValid (.ofNat 8 i)).length
    s.sameConfig t ∧ t.live = s.live ∧ t.cfgErr = s.cfgErr ∧ t.now = s.now ∧ t.victims = s.victims ∧
    (∃ r, t.out.res = s.out.res ++ [r] ∧ r.txCount.toNat = (s.sent t).length) ∧
    ((s.sent t).length = 0 ∨ (s.sent t).length = 1 ∨ (s.sent t).length = N - 1) ∧ t.lt.length ≤ s.lt.length + 1 ∧
    (∀ j, j ≠ BitVec.ofNat 48 (field F 6 6) → ltFind t.lt j = ltFind s.lt j) ∧
    (∀ j row row', ltFind s.lt j = some row → ltFind t.lt j = some row' → row'.ifx = row.ifx) ∧
    (∀ x ∈ s.sent t, x.bytes = F)

/-! ## Time and the sweep (46_expiration.md) -/

/-- R280 to R283, R286: TICK counts, and at a sweep timer event latches exactly the keys strictly more than EXPIRE_TICKS old;
while VICTIMS is not empty it waits.
That a waiting TICK is a step that holds the state is the model's choice (log entry 9). -/
def Obligations.TickCountsAndSnapshots : Prop :=
  ∀ s : State,
    (s.victims = [] → (s.now + 1) % s.par.ticksPerSec ≠ 0 →
      exec .tick s = .next (({ s with now := s.now + 1 }).result (Res.plain .done))) ∧
    (s.victims = [] → (s.now + 1) % s.par.ticksPerSec = 0 →
      ∃ V, exec .tick s = .next (({ s with now := s.now + 1, victims := V }).result (Res.plain .done)) ∧
        ∀ k, k ∈ V ↔ ∃ row, (k, row) ∈ s.lt ∧ s.now + 1 - row.seen > 15 * s.par.ticksPerSec) ∧
    (s.victims ≠ [] → exec .tick s = .next s)

/-- R284, R285: SWEEP.DEL removes the row of a latched key whatever its age, and the key from VICTIMS; no Tx, no result, and
nothing else changes. -/
def Obligations.SweepDelRemovesALatchedRow : Prop :=
  ∀ (s : State) (k : Mac), k ∈ s.victims →
    ∃ t, exec (.sweepDel k) s = .next t ∧ t = { s with lt := t.lt, victims := t.victims } ∧ ltFind t.lt k = none ∧
      (∀ j, j ≠ k → ltFind t.lt j = ltFind s.lt j) ∧ (∀ j, j ∈ t.victims ↔ j ∈ s.victims ∧ j ≠ k)
end

