-- ==== Sys2Proof/Laws/State.lean ====
section
/-! SUPPORT. Sys2Proof/Laws/State.lean: what each update of the state leaves in each field, one lemma a field, so that no later
proof unfolds a record update. -/

namespace Sys2Proof.Machine

open Sys2Proof

/-! ## `result` -/

@[simp] theorem result_par (s : State) (r : Res) : (s.result r).par = s.par := rfl
@[simp] theorem result_mode (s : State) (r : Res) : (s.result r).mode = s.mode := rfl
@[simp] theorem result_live (s : State) (r : Res) : (s.result r).live = s.live := rfl
@[simp] theorem result_cfgErr (s : State) (r : Res) : (s.result r).cfgErr = s.cfgErr := rfl
@[simp] theorem result_ifs (s : State) (r : Res) : (s.result r).ifs = s.ifs := rfl
@[simp] theorem result_rt (s : State) (r : Res) : (s.result r).rt = s.rt := rfl
@[simp] theorem result_arp (s : State) (r : Res) : (s.result r).arp = s.arp := rfl
@[simp] theorem result_lt (s : State) (r : Res) : (s.result r).lt = s.lt := rfl
@[simp] theorem result_now (s : State) (r : Res) : (s.result r).now = s.now := rfl
@[simp] theorem result_victims (s : State) (r : Res) : (s.result r).victims = s.victims := rfl
@[simp] theorem result_stage (s : State) (r : Res) : (s.result r).stage = s.stage := rfl
@[simp] theorem result_rxb (s : State) (r : Res) : (s.result r).rxb = s.rxb := rfl
@[simp] theorem result_rxIf (s : State) (r : Res) : (s.result r).rxIf = s.rxIf := rfl
@[simp] theorem result_txb (s : State) (r : Res) : (s.result r).txb = s.txb := rfl
@[simp] theorem result_work (s : State) (r : Res) : (s.result r).work = s.work := rfl
@[simp] theorem result_env (s : State) (r : Res) : (s.result r).env = s.env := rfl
@[simp] theorem result_tx (s : State) (r : Res) : (s.result r).out.tx = s.out.tx := rfl
@[simp] theorem result_res (s : State) (r : Res) : (s.result r).out.res = s.out.res ++ [r] := rfl

/-! ## `endRx` -/

@[simp] theorem endRx_par (s : State) (r : Res) : (s.endRx r).par = s.par := rfl
@[simp] theorem endRx_mode (s : State) (r : Res) : (s.endRx r).mode = s.mode := rfl
@[simp] theorem endRx_live (s : State) (r : Res) : (s.endRx r).live = s.live := rfl
@[simp] theorem endRx_cfgErr (s : State) (r : Res) : (s.endRx r).cfgErr = s.cfgErr := rfl
@[simp] theorem endRx_ifs (s : State) (r : Res) : (s.endRx r).ifs = s.ifs := rfl
@[simp] theorem endRx_rt (s : State) (r : Res) : (s.endRx r).rt = s.rt := rfl
@[simp] theorem endRx_arp (s : State) (r : Res) : (s.endRx r).arp = s.arp := rfl
@[simp] theorem endRx_lt (s : State) (r : Res) : (s.endRx r).lt = s.lt := rfl
@[simp] theorem endRx_now (s : State) (r : Res) : (s.endRx r).now = s.now := rfl
@[simp] theorem endRx_victims (s : State) (r : Res) : (s.endRx r).victims = s.victims := rfl
@[simp] theorem endRx_stage (s : State) (r : Res) : (s.endRx r).stage = .done := rfl
@[simp] theorem endRx_rxb (s : State) (r : Res) : (s.endRx r).rxb = [] := rfl
@[simp] theorem endRx_rxIf (s : State) (r : Res) : (s.endRx r).rxIf = 0 := rfl
@[simp] theorem endRx_txb (s : State) (r : Res) : (s.endRx r).txb = [] := rfl
@[simp] theorem endRx_work (s : State) (r : Res) : (s.endRx r).work = Work.blank := rfl
@[simp] theorem endRx_env (s : State) (r : Res) : (s.endRx r).env = s.env := rfl
@[simp] theorem endRx_tx (s : State) (r : Res) : (s.endRx r).out.tx = s.out.tx := rfl
@[simp] theorem endRx_res (s : State) (r : Res) : (s.endRx r).out.res = s.out.res ++ [r] := rfl

/-! ## `emitTx` -/

@[simp] theorem emitTx_par (s : State) (i : IfIdx) (b : Bytes) : (s.emitTx i b).par = s.par := rfl
@[simp] theorem emitTx_mode (s : State) (i : IfIdx) (b : Bytes) : (s.emitTx i b).mode = s.mode := rfl
@[simp] theorem emitTx_live (s : State) (i : IfIdx) (b : Bytes) : (s.emitTx i b).live = s.live := rfl
@[simp] theorem emitTx_cfgErr (s : State) (i : IfIdx) (b : Bytes) : (s.emitTx i b).cfgErr = s.cfgErr := rfl
@[simp] theorem emitTx_ifs (s : State) (i : IfIdx) (b : Bytes) : (s.emitTx i b).ifs = s.ifs := rfl
@[simp] theorem emitTx_rt (s : State) (i : IfIdx) (b : Bytes) : (s.emitTx i b).rt = s.rt := rfl
@[simp] theorem emitTx_arp (s : State) (i : IfIdx) (b : Bytes) : (s.emitTx i b).arp = s.arp := rfl
@[simp] theorem emitTx_lt (s : State) (i : IfIdx) (b : Bytes) : (s.emitTx i b).lt = s.lt := rfl
@[simp] theorem emitTx_now (s : State) (i : IfIdx) (b : Bytes) : (s.emitTx i b).now = s.now := rfl
@[simp] theorem emitTx_victims (s : State) (i : IfIdx) (b : Bytes) : (s.emitTx i b).victims = s.victims := rfl
@[simp] theorem emitTx_stage (s : State) (i : IfIdx) (b : Bytes) : (s.emitTx i b).stage = s.stage := rfl
@[simp] theorem emitTx_rxb (s : State) (i : IfIdx) (b : Bytes) : (s.emitTx i b).rxb = s.rxb := rfl
@[simp] theorem emitTx_rxIf (s : State) (i : IfIdx) (b : Bytes) : (s.emitTx i b).rxIf = s.rxIf := rfl
@[simp] theorem emitTx_txb (s : State) (i : IfIdx) (b : Bytes) : (s.emitTx i b).txb = s.txb := rfl
@[simp] theorem emitTx_work (s : State) (i : IfIdx) (b : Bytes) : (s.emitTx i b).work = s.work := rfl
@[simp] theorem emitTx_tx (s : State) (i : IfIdx) (b : Bytes) : (s.emitTx i b).out.tx = s.out.tx ++ [⟨i, b⟩] := rfl
@[simp] theorem emitTx_res (s : State) (i : IfIdx) (b : Bytes) : (s.emitTx i b).out.res = s.out.res := rfl

/-! ## `emitAll` -/

@[simp] theorem emitAll_par (s : State) (b : Bytes) (l : List IfIdx) : (s.emitAll b l).par = s.par := by
  induction l generalizing s with
  | nil => rfl
  | cons i rest ih => simp [State.emitAll, ih]
@[simp] theorem emitAll_mode (s : State) (b : Bytes) (l : List IfIdx) : (s.emitAll b l).mode = s.mode := by
  induction l generalizing s with
  | nil => rfl
  | cons i rest ih => simp [State.emitAll, ih]
@[simp] theorem emitAll_live (s : State) (b : Bytes) (l : List IfIdx) : (s.emitAll b l).live = s.live := by
  induction l generalizing s with
  | nil => rfl
  | cons i rest ih => simp [State.emitAll, ih]
@[simp] theorem emitAll_cfgErr (s : State) (b : Bytes) (l : List IfIdx) : (s.emitAll b l).cfgErr = s.cfgErr := by
  induction l generalizing s with
  | nil => rfl
  | cons i rest ih => simp [State.emitAll, ih]
@[simp] theorem emitAll_ifs (s : State) (b : Bytes) (l : List IfIdx) : (s.emitAll b l).ifs = s.ifs := by
  induction l generalizing s with
  | nil => rfl
  | cons i rest ih => simp [State.emitAll, ih]
@[simp] theorem emitAll_rt (s : State) (b : Bytes) (l : List IfIdx) : (s.emitAll b l).rt = s.rt := by
  induction l generalizing s with
  | nil => rfl
  | cons i rest ih => simp [State.emitAll, ih]
@[simp] theorem emitAll_arp (s : State) (b : Bytes) (l : List IfIdx) : (s.emitAll b l).arp = s.arp := by
  induction l generalizing s with
  | nil => rfl
  | cons i rest ih => simp [State.emitAll, ih]
@[simp] theorem emitAll_lt (s : State) (b : Bytes) (l : List IfIdx) : (s.emitAll b l).lt = s.lt := by
  induction l generalizing s with
  | nil => rfl
  | cons i rest ih => simp [State.emitAll, ih]
@[simp] theorem emitAll_now (s : State) (b : Bytes) (l : List IfIdx) : (s.emitAll b l).now = s.now := by
  induction l generalizing s with
  | nil => rfl
  | cons i rest ih => simp [State.emitAll, ih]
@[simp] theorem emitAll_victims (s : State) (b : Bytes) (l : List IfIdx) : (s.emitAll b l).victims = s.victims := by
  induction l generalizing s with
  | nil => rfl
  | cons i rest ih => simp [State.emitAll, ih]
@[simp] theorem emitAll_stage (s : State) (b : Bytes) (l : List IfIdx) : (s.emitAll b l).stage = s.stage := by
  induction l generalizing s with
  | nil => rfl
  | cons i rest ih => simp [State.emitAll, ih]
@[simp] theorem emitAll_rxb (s : State) (b : Bytes) (l : List IfIdx) : (s.emitAll b l).rxb = s.rxb := by
  induction l generalizing s with
  | nil => rfl
  | cons i rest ih => simp [State.emitAll, ih]
@[simp] theorem emitAll_rxIf (s : State) (b : Bytes) (l : List IfIdx) : (s.emitAll b l).rxIf = s.rxIf := by
  induction l generalizing s with
  | nil => rfl
  | cons i rest ih => simp [State.emitAll, ih]
@[simp] theorem emitAll_txb (s : State) (b : Bytes) (l : List IfIdx) : (s.emitAll b l).txb = s.txb := by
  induction l generalizing s with
  | nil => rfl
  | cons i rest ih => simp [State.emitAll, ih]
@[simp] theorem emitAll_work (s : State) (b : Bytes) (l : List IfIdx) : (s.emitAll b l).work = s.work := by
  induction l generalizing s with
  | nil => rfl
  | cons i rest ih => simp [State.emitAll, ih]
@[simp] theorem emitAll_tx (s : State) (b : Bytes) (l : List IfIdx) :
    (s.emitAll b l).out.tx = s.out.tx ++ l.map fun i => ⟨i, b⟩ := by
  induction l generalizing s with
  | nil => simp [State.emitAll]
  | cons i rest ih => simp [State.emitAll, ih]
@[simp] theorem emitAll_res (s : State) (b : Bytes) (l : List IfIdx) : (s.emitAll b l).out.res = s.out.res := by
  induction l generalizing s with
  | nil => rfl
  | cons i rest ih => simp [State.emitAll, ih]

/-! ## `consume` -/

@[simp] theorem consume_par (s : State) (rest : Bytes) : (s.consume rest).par = s.par := rfl
@[simp] theorem consume_mode (s : State) (rest : Bytes) : (s.consume rest).mode = s.mode := rfl
@[simp] theorem consume_live (s : State) (rest : Bytes) : (s.consume rest).live = s.live := rfl
@[simp] theorem consume_cfgErr (s : State) (rest : Bytes) : (s.consume rest).cfgErr = s.cfgErr := rfl
@[simp] theorem consume_ifs (s : State) (rest : Bytes) : (s.consume rest).ifs = s.ifs := rfl
@[simp] theorem consume_rt (s : State) (rest : Bytes) : (s.consume rest).rt = s.rt := rfl
@[simp] theorem consume_arp (s : State) (rest : Bytes) : (s.consume rest).arp = s.arp := rfl
@[simp] theorem consume_lt (s : State) (rest : Bytes) : (s.consume rest).lt = s.lt := rfl
@[simp] theorem consume_now (s : State) (rest : Bytes) : (s.consume rest).now = s.now := rfl
@[simp] theorem consume_victims (s : State) (rest : Bytes) : (s.consume rest).victims = s.victims := rfl
@[simp] theorem consume_stage (s : State) (rest : Bytes) : (s.consume rest).stage = s.stage := rfl
@[simp] theorem consume_rxb (s : State) (rest : Bytes) : (s.consume rest).rxb = s.rxb := rfl
@[simp] theorem consume_rxIf (s : State) (rest : Bytes) : (s.consume rest).rxIf = s.rxIf := rfl
@[simp] theorem consume_txb (s : State) (rest : Bytes) : (s.consume rest).txb = s.txb := rfl
@[simp] theorem consume_work (s : State) (rest : Bytes) : (s.consume rest).work = s.work := rfl
@[simp] theorem consume_out (s : State) (rest : Bytes) : (s.consume rest).out = s.out := rfl

/-! ## `applyReset` -/

@[simp] theorem applyReset_par (s : State) : s.applyReset.par = s.par := rfl
@[simp] theorem applyReset_out (s : State) : s.applyReset.out = s.out := rfl
@[simp] theorem applyReset_mode (s : State) : s.applyReset.mode = .router := rfl
@[simp] theorem applyReset_live (s : State) : s.applyReset.live = false := rfl
@[simp] theorem applyReset_cfgErr (s : State) : s.applyReset.cfgErr = false := rfl
@[simp] theorem applyReset_rt (s : State) : s.applyReset.rt = [] := rfl
@[simp] theorem applyReset_arp (s : State) : s.applyReset.arp = [] := rfl
@[simp] theorem applyReset_lt (s : State) : s.applyReset.lt = [] := rfl
@[simp] theorem applyReset_now (s : State) : s.applyReset.now = 0 := rfl
@[simp] theorem applyReset_victims (s : State) : s.applyReset.victims = [] := rfl
@[simp] theorem applyReset_stage (s : State) : s.applyReset.stage = .done := rfl

/-! ## The transient state ends with the operation -/

/-- `endRx` depends on the state R20 names and the ports alone: what the operation left in the stage index, the buffers
and the working values does not show. -/
theorem endRx_transient (s : State) (g : Stage) (rxb : Bytes) (rxIf : IfIdx) (txb : Bytes) (w : Work) (r : Res) :
    ({ s with stage := g, rxb := rxb, rxIf := rxIf, txb := txb, work := w }).endRx r = s.endRx r := rfl

/-- The same after a transmission. -/
theorem emitTx_endRx_transient (s : State) (g : Stage) (rxb : Bytes) (rxIf : IfIdx) (txb : Bytes) (w : Work)
    (i : IfIdx) (b : Bytes) (r : Res) :
    (({ s with stage := g, rxb := rxb, rxIf := rxIf, txb := txb, work := w }).emitTx i b).endRx r =
      (s.emitTx i b).endRx r := rfl

/-- The answer of the transmit primitive does not depend on the transient state. -/
theorem txOk_transient (s : State) (g : Stage) (rxb : Bytes) (rxIf : IfIdx) (txb : Bytes) (w : Work) :
    ({ s with stage := g, rxb := rxb, rxIf := rxIf, txb := txb, work := w }).txOk = s.txOk := rfl

end Sys2Proof.Machine
end

