-- ==== Sys2Proof/Laws/Agents.lean ====
section
/-! SUPPORT. Sys2Proof/Laws/Agents.lean: everything the arbiter and the sweeper's choice can answer (R75, R284), one lemma each. -/

namespace Sys2Proof.Machine

open Sys2Proof

theorem pickBy_mem {α : Type} {n : Nat} {l : List α} {a : α} (h : pickBy n l = some a) : a ∈ l := by
  unfold pickBy at h
  split at h
  · cases h
  · cases h; simp
  · exact List.mem_of_getElem? h

theorem pickBy_none {α : Type} {n : Nat} {l : List α} : pickBy n l = none ↔ l = [] := by
  unfold pickBy
  split
  · simp
  · simp
  · rename_i a b r
    have h : n % (r.length + 2) < (a :: b :: r).length := Nat.mod_lt n (by simp)
    rw [List.getElem?_eq_getElem h]
    simp

/-- A choice by number among something answers one of its members. -/
theorem pickBy_cases {α : Type} (n : Nat) {l : List α} (h : l ≠ []) : ∃ c ∈ l, pickBy n l = some c := by
  cases hp : pickBy n l with
  | none => exact absurd (pickBy_none.mp hp) h
  | some c => exact ⟨c, pickBy_mem hp, rfl⟩

/-- The arbiter grants nobody where no agent has an enabled step; otherwise it grants one that has, and the choice touches
only the prepared grants and the counter of free values. -/
theorem grant_cases (s : State) :
    (s.grant = none ∧ s.enabledAgents = []) ∨
    ∃ a gs d, s.grant = some (a, { s.env with grants := gs, draws := d }) ∧ a ∈ s.enabledAgents := by
  unfold State.grant
  cases h : s.enabledAgents with
  | nil => exact .inl ⟨rfl, rfl⟩
  | cons a l =>
    right
    cases l with
    | nil => exact ⟨a, s.env.grants, s.env.draws, rfl, by simp⟩
    | cons b r =>
      obtain ⟨c, hc, hp⟩ := pickBy_cases (Config.freeGrant s.env.draws) (l := a :: b :: r) (by simp)
      simp only [hp]
      cases hg : s.env.grants with
      | nil => exact ⟨c, [], _, by rfl, hc⟩
      | cons g later =>
        simp only
        split
        · rename_i hm
          exact ⟨g, later, s.env.draws, rfl, hm⟩
        · exact ⟨c, later, _, rfl, hc⟩

/-- The sweeper picks a pending victim where there is one, and the choice touches only the prepared picks and the counter
of free values. -/
theorem pickVictim_cases (s : State) :
    (s.pickVictim = none ∧ s.victims = []) ∨
    ∃ k ks d, s.pickVictim = some (k, { s.env with victimPicks := ks, draws := d }) ∧ k ∈ s.victims := by
  unfold State.pickVictim
  cases h : s.victims with
  | nil => exact .inl ⟨rfl, rfl⟩
  | cons a l =>
    right
    cases l with
    | nil => exact ⟨a, s.env.victimPicks, s.env.draws, rfl, by simp⟩
    | cons b r =>
      obtain ⟨c, hc, hp⟩ := pickBy_cases (Config.freeVictim s.env.draws) (l := a :: b :: r) (by simp)
      simp only [hp]
      cases hg : s.env.victimPicks with
      | nil => exact ⟨c, [], _, by rfl, hc⟩
      | cons g later =>
        simp only
        split
        · rename_i hm
          exact ⟨g, later, s.env.draws, rfl, hm⟩
        · exact ⟨c, later, _, rfl, hc⟩

/-! ## What a step can be -/

theorem timebase_enabled {s : State} (h : Agent.timebase ∈ s.enabledAgents) : s.victims = [] := by
  by_contra hv
  have ht : s.timebaseReady = false := by simp [State.timebaseReady, hv]
  simp [State.enabledAgents, ht] at h

theorem sweeper_enabled {s : State} (h : Agent.sweeper ∈ s.enabledAgents) : s.victims ≠ [] := by
  intro hv
  simp [State.enabledAgents, State.sweeperReady, hv] at h

/-- Everything a step can be: reset, idle, the frame port's record, the timebase's TICK, the sweeper's SWEEP.DEL, or the rest
of an RX operation. -/
theorem step_cases (s : State) :
    (s.env.resetIn = true ∧ step s = .next s.applyReset) ∨
    (s.env.resetIn = false ∧ s.stage ≠ .done ∧ step s = resume s) ∨
    (s.env.resetIn = false ∧ s.stage = .done ∧
      (step s = .next s ∨
       (∃ gs d, step s = framePortStep { s with env := { s.env with grants := gs, draws := d } }) ∨
       (s.victims = [] ∧ ∃ gs d,
         step s = execTick { s with env := { s.env with grants := gs, draws := d, ticksDue := s.env.ticksDue - 1 } }) ∨
       (∃ k ∈ s.victims, ∃ gs ks d,
         step s = execSweepDel k { s with env := { s.env with grants := gs, victimPicks := ks, draws := d } }))) := by
  cases hr : s.env.resetIn with
  | true => exact .inl ⟨rfl, by rw [step, if_pos hr]⟩
  | false =>
    have hr' : ¬s.env.resetIn = true := by simp [hr]
    by_cases hs : s.stage = .done
    · refine .inr (.inr ⟨rfl, hs, ?_⟩)
      have e : step s = idleStep s := by rw [step, if_neg hr', if_pos hs]
      rw [e, idleStep]
      obtain ⟨hg, -⟩ | ⟨a, gs, d, hg, ha⟩ := grant_cases s
      · exact .inl (by rw [hg])
      · right
        rw [hg]
        cases a with
        | framePort => exact .inl ⟨gs, d, rfl⟩
        | timebase => exact .inr (.inl ⟨timebase_enabled ha, gs, d, rfl⟩)
        | sweeper =>
          obtain ⟨-, hv⟩ | ⟨k, ks, d', hk, hm⟩ := pickVictim_cases { s with env := { s.env with grants := gs, draws := d } }
          · exact absurd hv (sweeper_enabled ha)
          · refine .inr (.inr ⟨k, hm, gs, ks, d', ?_⟩)
            simp only [agentStep, sweeperStep, hk]
            rfl
    · exact .inr (.inl ⟨rfl, hs, by rw [step, if_neg hr', if_neg hs]⟩)

/-- Where the frame port is granted, the step of the block is the step of the frame port (R68, R75). -/
theorem step_framePort {s : State} {e : Env} (hr : s.env.resetIn = false) (hs : s.stage = .done)
    (hg : s.grant = some (.framePort, e)) : step s = framePortStep { s with env := e } := by
  rw [step, if_neg (by simp [hr]), if_pos hs, idleStep, hg]
  rfl

/-- The frame port is ready exactly where a whole record waits that is no TICK held back by VICTIMS (R75 (b), R286). -/
theorem framePortReady_iff (s : State) :
    s.framePortReady = true ↔ decodeRecord s.env.opPort ≠ .incomplete ∧
      ∀ rest, decodeRecord s.env.opPort = .record .tick rest → s.victims = [] := by
  unfold State.framePortReady
  cases decodeRecord s.env.opPort with
  | record i rest => by_cases hi : i = .tick <;> simp [hi]
  | illegal why rest => simp
  | incomplete => simp

/-- Which agents have an enabled step, one by one. -/
theorem mem_enabledAgents (s : State) (a : Agent) :
    a ∈ s.enabledAgents ↔
      match a with
      | .framePort => s.framePortReady = true
      | .timebase => s.timebaseReady = true
      | .sweeper => s.sweeperReady = true := by
  unfold State.enabledAgents
  cases a <;> cases s.framePortReady <;> cases s.timebaseReady <;> cases s.sweeperReady <;> simp

/-- Where the grant of an enabled agent is prepared, that agent is granted. -/
theorem grant_prepared {s : State} {a : Agent} {later : List Agent} (hg : s.env.grants = a :: later)
    (ha : a ∈ s.enabledAgents) : ∃ e, s.grant = some (a, e) := by
  unfold State.grant
  cases h : s.enabledAgents with
  | nil => simp only [h, List.not_mem_nil] at ha
  | cons b l =>
    rw [h] at ha
    cases l with
    | nil => exact ⟨s.env, by rw [List.mem_singleton.mp ha]⟩
    | cons c r => exact ⟨{ s.env with grants := later }, by simp only [hg, if_pos ha]⟩

/-- Where no other agent can step and a whole record waits, the frame port is granted and nothing is chosen. -/
theorem grant_framePort_alone {s : State} (hv : s.victims = []) (ht : s.env.ticksDue = 0)
    (hd : decodeRecord s.env.opPort ≠ .incomplete) : s.grant = some (.framePort, s.env) := by
  have hp : s.framePortReady = true := (framePortReady_iff s).mpr ⟨hd, fun _ _ => hv⟩
  have he : s.enabledAgents = [.framePort] := by
    simp [State.enabledAgents, hp, State.timebaseReady, State.sweeperReady, hv, ht]
  simp only [State.grant, he]

end Sys2Proof.Machine
end

