-- ==== Sys2Proof/Laws/Asm.lean ====
section
/-! SUPPORT. Sys2Proof/Laws/Asm.lean: every operation the assembler answers has an encoding. -/

namespace Sys2Proof.Machine

open Sys2Proof

/-- The RX operation is read exactly where its frame's number of bytes fits `len`. -/
theorem readRx_eq_some {inIf : IfIdx} {frame : Bytes} {i : Instr} :
    readRx inIf frame = some i ↔ frame.length < 65536 ∧ i = .rx inIf frame := by
  unfold readRx
  split <;> simp_all [eq_comm]

theorem readRx_wellFormed {inIf : IfIdx} {frame : Bytes} {i : Instr} (h : readRx inIf frame = some i) :
    i.wellFormed = true := by
  obtain ⟨hl, rfl⟩ := readRx_eq_some.mp h
  simp [Instr.wellFormed, hl]

/-- A line that is read stands for one well-formed operation, or is a pseudo-operation. -/
theorem readOp_wellFormed {m : List Char} {a : List (List Char)} {i : Instr} (h : readOp m a = some (.op i)) :
    i.wellFormed = true := by
  unfold readOp at h
  repeat' split at h
  all_goals simp only [Option.bind_eq_some_iff, Option.map_eq_some_iff, reduceCtorEq, Option.some.injEq, Line.op.injEq] at h
  all_goals first
    | (obtain ⟨_, _, _, _, _, hr, rfl⟩ := h; exact readRx_wellFormed hr)
    | (simp only [and_false, exists_false] at h)
    | (subst h; rfl)
    | (obtain ⟨_, _, _, _, _, _, _, _, rfl⟩ := h; rfl)

/-- Every record of an assembled line has an encoding. -/
theorem assemble_wellFormed {p : Params} {t : List Char} {l : List Instr} (h : assemble p t = some l) :
    ∀ i ∈ l, i.wellFormed = true := by
  unfold assemble at h
  simp only at h
  split at h
  · cases h; simp
  · obtain ⟨line, hl, rfl⟩ := Option.map_eq_some_iff.mp h
    intro i hi
    cases line with
    | op j => rw [List.mem_singleton.mp hi]; exact readOp_wellFormed hl
    | routePrefix d n g x => rw [List.mem_singleton.mp hi]; rfl
    | ticks n => rw [List.eq_of_mem_replicate hi]; rfl
    | tickSeconds n => rw [List.eq_of_mem_replicate hi]; rfl

end Sys2Proof.Machine
end

