-- ==== Sys2Proof/Laws/Bytes.lean ====
section
/-! SUPPORT. Sys2Proof/Laws/Bytes.lean: big-endian values and byte strings: reading back what was written, lengths, and
reads of a concatenation. -/

namespace Sys2Proof

@[simp] theorem beNat_nil : beNat [] = 0 := rfl

@[simp] theorem beNat_cons (b : Byte) (r : Bytes) : beNat (b :: r) = b.toNat * 256 ^ r.length + beNat r := rfl

@[simp] theorem beBytes_length (n v : Nat) : (beBytes n v).length = n := by
  induction n with
  | zero => rfl
  | succ n ih => simp [beBytes, ih]

@[simp] theorem zeros_length (n : Nat) : (zeros n).length = n := by simp [zeros]

theorem beNat_lt (b : Bytes) : beNat b < 256 ^ b.length := by
  induction b with
  | nil => simp
  | cons x r ih =>
    have hx : x.toNat ≤ 255 := by omega
    calc beNat (x :: r) = x.toNat * 256 ^ r.length + beNat r := rfl
      _ < x.toNat * 256 ^ r.length + 256 ^ r.length := by omega
      _ = (x.toNat + 1) * 256 ^ r.length := by ring
      _ ≤ 256 * 256 ^ r.length := Nat.mul_le_mul_right _ (by omega)
      _ = 256 ^ (x :: r).length := by simp [pow_succ]; ring

theorem beNat_append (a b : Bytes) : beNat (a ++ b) = beNat a * 256 ^ b.length + beNat b := by
  induction a with
  | nil => simp
  | cons x r ih => simp [ih, pow_add]; ring

/-- MemWrite then MemRead: the bytes of a value have that value, modulo their width. -/
theorem beNat_beBytes (n v : Nat) : beNat (beBytes n v) = v % 256 ^ n := by
  induction n with
  | zero => simp [beBytes, Nat.mod_one]
  | succ n ih =>
    simp only [beBytes, beNat_cons, ih, beBytes_length, BitVec.toNat_ofNat]
    have h : v % 256 ^ (n + 1) = v % 256 ^ n + 256 ^ n * (v / 256 ^ n % 256) := Nat.mod_pow_succ
    rw [h, Nat.mul_comm (256 ^ n)]
    exact Nat.add_comm _ _

/-- A byte string is the big-endian bytes of its own value. -/
theorem beBytes_beNat (b : Bytes) : beBytes b.length (beNat b) = b := by
  induction b with
  | nil => rfl
  | cons x r ih =>
    have hlt := beNat_lt r
    have hpos : 0 < 256 ^ r.length := by positivity
    have hdiv : (x.toNat * 256 ^ r.length + beNat r) / 256 ^ r.length = x.toNat := by
      rw [Nat.add_comm, Nat.add_mul_div_right _ _ hpos, Nat.div_eq_of_lt hlt]; simp
    have hcong : ∀ n, ∀ k v : Nat, beBytes n (k * 256 ^ n + v) = beBytes n v := by
      intro n
      induction n with
      | zero => intros; rfl
      | succ n ihn =>
        intro k v
        have e : k * 256 ^ (n + 1) + v = (k * 256) * 256 ^ n + v := by ring
        have hp : 0 < 256 ^ n := by positivity
        simp only [beBytes]
        rw [e, ihn, Nat.add_comm, Nat.add_mul_div_right _ _ hp]
        congr 1
        apply BitVec.eq_of_toNat_eq
        simp [Nat.add_mul_mod_self_right]
    simp [beBytes, hdiv, hcong, ih]

@[simp] theorem zeros_zero : zeros 0 = [] := rfl

theorem beNat_zeros (n : Nat) : beNat (zeros n) = 0 := by
  induction n with
  | zero => rfl
  | succ n ih => simpa [zeros, List.replicate_succ] using ih

theorem beNat_eq_zero (b : Bytes) : beNat b = 0 ↔ b = zeros b.length := by
  induction b with
  | nil => simp
  | cons x r ih =>
    have hpos : 256 ^ r.length ≠ 0 := by positivity
    simp only [beNat_cons, Nat.add_eq_zero_iff, Nat.mul_eq_zero, hpos, or_false, ih, List.length_cons, zeros,
      List.replicate_succ, List.cons.injEq]
    refine and_congr_left fun _ => ⟨fun h => BitVec.eq_of_toNat_eq (by simpa using h), fun h => by simp [h]⟩

/-! ## Byte strings -/

theorem span_length (F : Bytes) (a n : Nat) : (span F a n).length = min n (F.length - a) := by simp [span]

theorem span_length_of_le {F : Bytes} {a n : Nat} (h : a + n ≤ F.length) : (span F a n).length = n := by
  simp [span]; omega

theorem span_zero (F : Bytes) (n : Nat) : span F 0 n = F.take n := by simp [span]

@[simp] theorem span_nothing (F : Bytes) (a : Nat) : span F a 0 = [] := by simp [span]

/-- A byte string falls into what lies before, at and after an offset. -/
theorem span_split (F : Bytes) (a n m : Nat) : span F a (n + m) = span F a n ++ span F (a + n) m := by
  simp [span, List.take_add, List.drop_drop]

theorem span_append_left {P : Bytes} {a n : Nat} (Q : Bytes) (h : a + n ≤ P.length) :
    span (P ++ Q) a n = span P a n := by
  simp only [span]
  rw [List.drop_append_of_le_length (by omega), List.take_append_of_le_length (by simp; omega)]

theorem span_append_right {P : Bytes} {a : Nat} (Q : Bytes) (n : Nat) (h : P.length ≤ a) :
    span (P ++ Q) a n = span Q (a - P.length) n := by
  simp only [span, List.drop_append, List.drop_eq_nil_of_le h, List.nil_append]

theorem take_append_span_append_drop {F : Bytes} {a n : Nat} :
    F.take a ++ span F a n ++ F.drop (a + n) = F := by
  simp only [span]
  rw [← List.drop_drop, List.append_assoc, List.take_append_drop, List.take_append_drop]

theorem field_lt (F : Bytes) (a n : Nat) : field F a n < 256 ^ n := by
  have h := beNat_lt (span F a n)
  have hl : (span F a n).length ≤ n := by simp [span_length]
  exact lt_of_lt_of_le h (Nat.pow_le_pow_right (by omega) hl)

theorem field_append_left {P : Bytes} {a n : Nat} (Q : Bytes) (h : a + n ≤ P.length) :
    field (P ++ Q) a n = field P a n := by simp [field, span_append_left Q h]

/-- The field just after a prefix of known length. -/
theorem field_after {P Q R : Bytes} {a n : Nat} (ha : P.length = a) (hn : Q.length = n) :
    field (P ++ (Q ++ R)) a n = beNat Q := by
  subst ha hn
  rw [field, span_append_right _ _ (le_refl _)]
  simp [span]

/-- The value of a field determines its bytes. -/
theorem span_eq_beBytes_field {F : Bytes} {a n : Nat} (h : a + n ≤ F.length) : span F a n = beBytes n (field F a n) := by
  have hl := span_length_of_le h
  conv_lhs => rw [← beBytes_beNat (span F a n), hl]
  rfl

/-! ## Writing into a buffer -/

namespace Machine

theorem writeBytes_in {b : Bytes} {a : Nat} (v : Bytes) (h : a ≤ b.length) :
    writeBytes b a v = b.take a ++ v ++ b.drop (a + v.length) := by
  simp [writeBytes, Nat.sub_eq_zero_of_le h]

theorem writeBytes_length {b : Bytes} {a : Nat} {v : Bytes} (h : a + v.length ≤ b.length) :
    (writeBytes b a v).length = b.length := by
  rw [writeBytes_in v (by omega)]; simp; omega

theorem memWrite_length {b : Bytes} {a n : Nat} (v : Nat) (h : a + n ≤ b.length) :
    (memWrite b a n v).length = b.length := writeBytes_length (by simpa using h)

/-- Writing over the middle of a concatenation. -/
theorem writeBytes_mid {P Q R v : Bytes} {a : Nat} (ha : P.length = a) (hv : v.length = Q.length) :
    writeBytes (P ++ (Q ++ R)) a v = P ++ (v ++ R) := by
  subst ha
  rw [writeBytes_in v (by simp), hv]
  simp [List.drop_append]

/-- Writing at the end of a buffer appends. -/
theorem writeBytes_end {P v : Bytes} {a : Nat} (ha : P.length = a) : writeBytes P a v = P ++ v := by
  subst ha
  rw [writeBytes_in v (le_refl _)]
  simp

/-- MemRead after MemWrite at the same place. -/
theorem field_memWrite_same {b : Bytes} {a n : Nat} (v : Nat) (h : a + n ≤ b.length) :
    field (memWrite b a n v) a n = v % 256 ^ n := by
  rw [memWrite, writeBytes_in _ (by omega), List.append_assoc, field_after (by simp; omega) (beBytes_length n v),
    beNat_beBytes]

/-- MemWrite leaves every byte below the place alone. -/
theorem span_memWrite_before {b : Bytes} {a n c m : Nat} (v : Nat) (h : a + n ≤ b.length) (hc : c + m ≤ a) :
    span (memWrite b a n v) c m = span b c m := by
  rw [memWrite, writeBytes_in _ (by omega), List.append_assoc, span_append_left _ (by simp; omega)]
  conv_rhs => rw [← List.take_append_drop a b, span_append_left _ (by simp; omega)]

/-- MemWrite leaves every byte after the place alone. -/
theorem span_memWrite_after {b : Bytes} {a n c : Nat} (m v : Nat) (h : a + n ≤ b.length) (hc : a + n ≤ c) :
    span (memWrite b a n v) c m = span b c m := by
  rw [memWrite, writeBytes_in _ (by omega), span_append_right _ _ (by simp; omega)]
  simp only [span, List.drop_drop, List.length_append, List.length_take, beBytes_length]
  congr 2
  omega

end Machine
end Sys2Proof
end

