-- ==== Sys2Proof/Laws/Checksum.lean ====
section
/-! SUPPORT. Sys2Proof/Laws/Checksum.lean: the arithmetic of CSUM16 (R180, R181): the end-around carry loop in closed form and
the word sum of a concatenation. -/

namespace Sys2Proof.Machine

open Sys2Proof

/-- What the end-around carry loop of R180 leaves: the representative in 1 .. 0xFFFF of the sum's residue. -/
theorem carryFold_closed (fuel s : Nat) (h : s ≤ fuel + 0xFFFF) :
    carryFold fuel s = if s = 0 then 0 else (s - 1) % 0xFFFF + 1 := by
  induction fuel generalizing s with
  | zero => rw [carryFold]; split <;> omega
  | succ n ih =>
    rw [carryFold]
    by_cases hs : 0xFFFF < s
    · rw [if_pos hs, ih _ (by omega), if_neg (by omega), if_neg (by omega)]
      omega
    · rw [if_neg hs]
      split <;> omega

theorem foldedSum_closed (B : Bytes) :
    foldedSum B = if sumWords B = 0 then 0 else (sumWords B - 1) % 0xFFFF + 1 := carryFold_closed _ _ (by omega)

theorem foldedSum_le (B : Bytes) : foldedSum B ≤ 0xFFFF := by
  rw [foldedSum_closed]; split <;> omega

/-- The value of CSUM16 as a number. -/
theorem csum16_toNat (B : Bytes) : (csum16 B).toNat = 0xFFFF - foldedSum B := by
  have h := foldedSum_le B
  simp only [csum16, BitVec.toNat_not, BitVec.toNat_ofNat]
  omega

/-- The word sum of a concatenation whose first part is whole words. -/
theorem sumWords_append (P Q : Bytes) (h : P.length % 2 = 0) : sumWords (P ++ Q) = sumWords P + sumWords Q := by
  induction P using sumWords.induct with
  | case1 => simp [sumWords]
  | case2 a => simp at h
  | case3 a b r ih =>
    simp only [List.length_cons] at h
    simp only [List.cons_append, sumWords, ih (by omega)]
    omega

theorem sumWords_pair (a b : Byte) : sumWords [a, b] = a.toNat * 256 + b.toNat := by simp [sumWords]

theorem sumWords_zeros_two : sumWords (zeros 2) = 0 := rfl

/-- The word sum of a stored 16-bit value is the value. -/
theorem sumWords_beBytes_two (v : Nat) (h : v < 0x10000) : sumWords (beBytes 2 v) = v := by
  simp only [beBytes, sumWords, BitVec.toNat_ofNat]
  omega

theorem sumWords_eq_zero (B : Bytes) : sumWords B = 0 ↔ ∀ b ∈ B, b = 0 := by
  have hz : ∀ x : Byte, x.toNat = 0 ↔ x = 0 := fun x =>
    ⟨fun h => BitVec.eq_of_toNat_eq (by simpa using h), fun h => by simp [h]⟩
  induction B using sumWords.induct with
  | case1 => simp [sumWords]
  | case2 a => simp [sumWords, hz]
  | case3 a b r ih => simp [sumWords, hz, ih, and_assoc]

/-- A word of zeros replaced by the checksum of the whole string makes the folded sum all ones (R181 (d)). -/
theorem foldedSum_stored (P Q : Bytes) (h : P.length % 2 = 0) :
    foldedSum (P ++ (beBytes 2 (csum16 (P ++ (zeros 2 ++ Q))).toNat ++ Q)) = 0xFFFF := by
  have hle := foldedSum_le (P ++ (zeros 2 ++ Q))
  have hc := csum16_toNat (P ++ (zeros 2 ++ Q))
  have hl : (beBytes 2 (csum16 (P ++ (zeros 2 ++ Q))).toNat).length % 2 = 0 := by simp
  have hs : sumWords (P ++ (zeros 2 ++ Q)) = sumWords P + sumWords Q := by
    rw [sumWords_append _ _ h, sumWords_append _ _ (by simp), sumWords_zeros_two]; omega
  have ht : sumWords (P ++ (beBytes 2 (csum16 (P ++ (zeros 2 ++ Q))).toNat ++ Q)) =
      sumWords P + (csum16 (P ++ (zeros 2 ++ Q))).toNat + sumWords Q := by
    rw [sumWords_append _ _ h, sumWords_append _ _ hl, sumWords_beBytes_two _ (by omega)]; omega
  rw [foldedSum_closed] at hle hc ⊢
  rw [ht, hc, hs]
  split_ifs <;> omega

end Sys2Proof.Machine
end

