-- ==== Sys2Proof/Laws/Decode.lean ====
section
/-! SUPPORT. Sys2Proof/Laws/Decode.lean: the two record formats of R113, one lemma each, and the parts of a record's fields. -/

namespace Sys2Proof

theorem field_first (x : Byte) (r : Bytes) : field (x :: r) 0 1 = x.toNat := by simp [field, span]

theorem span_cons_succ (x : Byte) (r : Bytes) (a n : Nat) : span (x :: r) (a + 1) n = span r a n := by simp [span]

theorem field_cons_succ (x : Byte) (r : Bytes) (a n : Nat) : field (x :: r) (a + 1) n = field r a n := by
  simp [field, span_cons_succ]

/-- A value of `n` bytes read back from its bytes. -/
theorem ofNat_beNat_beBytes {n : Nat} (v : BitVec (8 * n)) : BitVec.ofNat (8 * n) (beNat (beBytes n v.toNat)) = v := by
  have h : (256 : Nat) ^ n = 2 ^ (8 * n) := by rw [show (256 : Nat) = 2 ^ 8 from rfl, ← pow_mul]
  rw [beNat_beBytes, h, Nat.mod_eq_of_lt v.isLt]
  simp

/-- A byte other than 0x10 begins a record of 16 bytes (R113). -/
theorem decodeRecord_ctl {op : Byte} {b : Bytes} (rest : Bytes) (h : op ≠ 0x10) (hb : b.length = 15) :
    decodeRecord (op :: (b ++ rest)) =
      match decodeCtl (op :: b) with
      | .ok i => .record i rest
      | .error why => .illegal why rest := by
  have hop : op.toNat ≠ 16 := fun e => h (BitVec.eq_of_toNat_eq e)
  have hlen : recordLength (op :: (b ++ rest)) = 16 := by simp [recordLength, field_first, hop]
  have hl : (op :: (b ++ rest)).length = 16 + rest.length := by simp [hb]; omega
  have htake : (op :: (b ++ rest)).take 16 = op :: b := by simp [← hb]
  have hdrop : (op :: (b ++ rest)).drop 16 = rest := by simp [← hb]
  unfold decodeRecord
  rw [if_neg (by omega), if_neg (by omega), if_neg (by rw [field_first]; exact hop), htake, hdrop]
  all_goals (cases decodeCtl (op :: b) <;> rfl)

/-- The byte 0x10 begins a record of `4 + len` bytes (R113). -/
theorem decodeRecord_rx (inIf hi lo : Byte) {F : Bytes} (rest : Bytes) (h : F.length = hi.toNat * 256 + lo.toNat) :
    decodeRecord (0x10 :: inIf :: hi :: lo :: (F ++ rest)) = .record (.rx inIf F) rest := by
  have h2 : field (0x10 :: inIf :: hi :: lo :: (F ++ rest)) 2 2 = F.length := by simp [field, span, h]
  have h0 : field (0x10 :: inIf :: hi :: lo :: (F ++ rest)) 0 1 = 16 := by simp [field_first]
  have hlen : recordLength (0x10 :: inIf :: hi :: lo :: (F ++ rest)) = 4 + F.length := by
    unfold recordLength; rw [if_pos h0, h2]
  unfold decodeRecord
  rw [if_neg (by simp), hlen, if_neg (by simp; omega), if_pos h0, h2]
  congr 1
  · congr 1
    · simp [field, span]
    · simp [span]
  · simp [Nat.add_comm 4]

end Sys2Proof
end

