-- ==== Sys2Proof/Laws/Tables.lean ====
section
/-! SUPPORT. Sys2Proof/Laws/Tables.lean: what the lookup loops find and what the operations of the learning table do: one
lemma for each, which later proofs cite instead of unfolding a loop. -/

namespace Sys2Proof.Machine

open Sys2Proof

/-! ## RT_LOOKUP -/

/-- The loop of RT_LOOKUP with a best entry already found: it stays unless a later matching entry has a strictly greater
mask, and then the loop goes on with the first of those. -/
theorem rtScan_some (a : Ip) (rt : List RouteEntry) (b : RouteEntry) :
    (rtScan a rt (some b) = some b ∧ ∀ x ∈ rt, x.covers a = true → x.mask ≤ b.mask) ∨
    ∃ pre e post, rt = pre ++ e :: post ∧ rtScan a rt (some b) = some e ∧ e.covers a = true ∧ b.mask < e.mask ∧
      (∀ x ∈ pre, x.covers a = true → x.mask < e.mask) ∧ (∀ x ∈ post, x.covers a = true → x.mask ≤ e.mask) := by
  induction rt generalizing b with
  | nil => left; simp [rtScan]
  | cons y rest ih =>
    simp only [rtScan]
    by_cases hy : y.covers a = true ∧ b.mask < y.mask
    · rw [if_pos (by simp [hy.1, hy.2])]
      rcases ih y with ⟨h, hle⟩ | ⟨pre, e, post, rfl, h, hc, hlt, hp, hq⟩
      · exact .inr ⟨[], y, rest, rfl, h, hy.1, hy.2, by simp, hle⟩
      · refine .inr ⟨y :: pre, e, post, rfl, h, hc, BitVec.lt_trans hy.2 hlt, ?_, hq⟩
        rintro x (_ | ⟨_, hx⟩)
        · exact fun _ => hlt
        · exact hp x hx
    · rw [if_neg (by simpa using hy)]
      have hyb : y.covers a = true → y.mask ≤ b.mask := fun h => by
        simpa [BitVec.not_lt] using fun hlt => hy ⟨h, hlt⟩
      rcases ih b with ⟨h, hle⟩ | ⟨pre, e, post, rfl, h, hc, hlt, hp, hq⟩
      · refine .inl ⟨h, ?_⟩
        rintro x (_ | ⟨_, hx⟩)
        · exact hyb
        · exact hle x hx
      · refine .inr ⟨y :: pre, e, post, rfl, h, hc, hlt, ?_, hq⟩
        rintro x (_ | ⟨_, hx⟩)
        · exact fun hc => BitVec.lt_def.mpr (Nat.lt_of_le_of_lt (BitVec.le_def.mp (hyb hc)) (BitVec.lt_def.mp hlt))
        · exact hp x hx

/-- RT_LOOKUP answers nothing, and nothing matches, or it answers the first entry among those of greatest mask. -/
theorem rtLookup_cases (rt : List RouteEntry) (a : Ip) :
    (rtLookup rt a = none ∧ ∀ x ∈ rt, x.covers a = false) ∨
    ∃ pre e post, rt = pre ++ e :: post ∧ rtLookup rt a = some e ∧ e.covers a = true ∧
      (∀ x ∈ pre, x.covers a = true → x.mask < e.mask) ∧ (∀ x ∈ post, x.covers a = true → x.mask ≤ e.mask) := by
  unfold rtLookup
  induction rt with
  | nil => left; simp [rtScan]
  | cons y rest ih =>
    simp only [rtScan]
    by_cases hy : y.covers a = true
    · rw [if_pos hy]
      rcases rtScan_some a rest y with ⟨h, hle⟩ | ⟨pre, e, post, rfl, h, hc, hlt, hp, hq⟩
      · exact .inr ⟨[], y, rest, rfl, h, hy, by simp, hle⟩
      · refine .inr ⟨y :: pre, e, post, rfl, h, hc, ?_, hq⟩
        rintro x (_ | ⟨_, hx⟩)
        · exact fun _ => hlt
        · exact hp x hx
    · have hy' : y.covers a = false := by simpa using hy
      rw [if_neg hy]
      rcases ih with ⟨h, hle⟩ | ⟨pre, e, post, rfl, h, hc, hp, hq⟩
      · refine .inl ⟨h, ?_⟩
        rintro x (_ | ⟨_, hx⟩)
        · exact hy'
        · exact hle x hx
      · refine .inr ⟨y :: pre, e, post, rfl, h, hc, ?_, hq⟩
        rintro x (_ | ⟨_, hx⟩)
        · exact fun h => absurd h hy
        · exact hp x hx

theorem rtLookup_mem {rt : List RouteEntry} {a : Ip} {e : RouteEntry} (h : rtLookup rt a = some e) : e ∈ rt := by
  rcases rtLookup_cases rt a with ⟨h', -⟩ | ⟨pre, e', post, rfl, h', -⟩
  · simp [h'] at h
  · obtain rfl : e' = e := by simpa [h'] using h
    simp

/-! ## ARP_LOOKUP -/

theorem arpLookup_none {arp : List ArpEntry} {a : Ip} : arpLookup arp a = none ↔ ∀ e ∈ arp, e.ip ≠ a := by
  induction arp with
  | nil => simp [arpLookup]
  | cons e rest ih => by_cases h : e.ip = a <;> simp [arpLookup, h, ih]

theorem arpLookup_mem {arp : List ArpEntry} {a : Ip} {m : Mac} (h : arpLookup arp a = some m) :
    ∃ e ∈ arp, e.ip = a ∧ e.mac = m := by
  induction arp with
  | nil => simp [arpLookup] at h
  | cons e rest ih =>
    by_cases he : e.ip = a
    · exact ⟨e, by simp, he, by simpa [arpLookup, he] using h⟩
    · obtain ⟨x, hx, hh⟩ := ih (by simpa [arpLookup, he] using h)
      exact ⟨x, by simp [hx], hh⟩

/-! ## RESOLVE -/

theorem resolve_ok_route {s : State} {a : Ip} {e : IfIdx} {m : Mac} (h : s.resolve a = .ok e m) :
    ∃ r ∈ s.rt, r.ifx = e := by
  unfold State.resolve at h
  split at h
  · cases h
  · rename_i r hr
    split at h
    · cases h
    · cases h
      exact ⟨r, rtLookup_mem hr, rfl⟩

/-! ## The learning table -/

theorem ltFind_some {lt : List (Mac × LtRow)} {k : Mac} {row : LtRow} (h : ltFind lt k = some row) :
    (k, row) ∈ lt := by
  induction lt with
  | nil => simp [ltFind] at h
  | cons p rest ih =>
    obtain ⟨m, r⟩ := p
    by_cases hm : m = k
    · simp_all [ltFind]
    · simp only [ltFind, if_neg hm] at h
      exact List.mem_cons_of_mem _ (ih h)

theorem ltFind_none {lt : List (Mac × LtRow)} {k : Mac} : ltFind lt k = none ↔ ∀ p ∈ lt, p.1 ≠ k := by
  induction lt with
  | nil => simp [ltFind]
  | cons p rest ih =>
    obtain ⟨m, r⟩ := p
    by_cases hm : m = k <;> simp [ltFind, hm, ih]

/-- In the canonical form a listed row is the row found. -/
theorem ltFind_of_mem {lt : List (Mac × LtRow)} (h : Lt.wf lt) {k : Mac} {row : LtRow} (hm : (k, row) ∈ lt) :
    ltFind lt k = some row := by
  induction lt with
  | nil => simp at hm
  | cons p rest ih =>
    obtain ⟨m, r⟩ := p
    rw [Lt.wf, List.pairwise_cons] at h
    rcases List.mem_cons.mp hm with he | hr
    · cases he; simp [ltFind]
    · have : m ≠ k := fun e => by have := h.1 _ hr; simp [e] at this
      simp [ltFind, this, ih h.2 hr]

/-- What `LT[k] <- row` lists: the new row, and every row of another key. -/
theorem mem_ltPut {lt : List (Mac × LtRow)} (h : Lt.wf lt) (k : Mac) (row : LtRow) (p : Mac × LtRow) :
    p ∈ ltPut lt k row ↔ p = (k, row) ∨ (p ∈ lt ∧ p.1 ≠ k) := by
  induction lt with
  | nil => simp [ltPut]
  | cons q rest ih =>
    obtain ⟨m, r⟩ := q
    rw [Lt.wf, List.pairwise_cons] at h
    simp only [ltPut]
    by_cases hk : k = m
    · subst hk
      have hne : ∀ x ∈ rest, x.1 ≠ k := fun x hx e => by have := h.1 x hx; simp [e] at this
      simp only [if_true, List.mem_cons]
      constructor
      · rintro (rfl | hp)
        · simp
        · exact .inr ⟨.inr hp, hne p hp⟩
      · rintro (rfl | ⟨rfl | hp, hp'⟩)
        · simp
        · simp at hp'
        · exact .inr hp
    · rw [if_neg hk]
      have hm : m ≠ k := fun e => hk e.symm
      split
      · rename_i hlt
        have hne : ∀ x ∈ (m, r) :: rest, x.1 ≠ k := by
          intro x hx e
          rcases List.mem_cons.mp hx with rfl | hx
          · exact hm e
          · have := h.1 x hx; rw [e] at this; simp at this; omega
        simp only [List.mem_cons] at hne ⊢
        constructor
        · rintro (rfl | hp)
          · simp
          · exact .inr ⟨hp, hne p hp⟩
        · rintro (rfl | ⟨hp, -⟩)
          · simp
          · exact .inr hp
      · simp only [List.mem_cons, ih h.2]
        constructor
        · rintro (rfl | rfl | ⟨hp, hp'⟩)
          · exact .inr ⟨.inl rfl, hm⟩
          · simp
          · exact .inr ⟨.inr hp, hp'⟩
        · rintro (rfl | ⟨rfl | hp, hp'⟩)
          · simp
          · simp
          · exact .inr (.inr ⟨hp, hp'⟩)

/-- `LT[k] <- row` keeps the canonical form. -/
theorem ltPut_wf {lt : List (Mac × LtRow)} (h : Lt.wf lt) (k : Mac) (row : LtRow) : Lt.wf (ltPut lt k row) := by
  induction lt with
  | nil => simp [ltPut, Lt.wf]
  | cons q rest ih =>
    obtain ⟨m, r⟩ := q
    have h' := h
    rw [Lt.wf, List.pairwise_cons] at h'
    simp only [ltPut]
    split
    · rename_i hk
      subst hk
      exact List.pairwise_cons.mpr h'
    · rename_i hk
      split
      · rename_i hlt
        refine List.pairwise_cons.mpr ⟨fun x hx => ?_, h⟩
        rcases List.mem_cons.mp hx with rfl | hx
        · exact hlt
        · exact lt_trans hlt (h'.1 x hx)
      · rename_i hlt
        refine List.pairwise_cons.mpr ⟨fun x hx => ?_, ih h'.2⟩
        rcases (mem_ltPut h'.2 k row x).mp hx with rfl | ⟨hx, -⟩
        · have : m.toNat ≠ k.toNat := fun e => hk (BitVec.eq_of_toNat_eq e).symm
          simp only at hlt ⊢
          omega
        · exact h'.1 x hx

/-- The size of LT after `LT[k] <- row`. -/
theorem ltPut_length (lt : List (Mac × LtRow)) (k : Mac) (row : LtRow) :
    (ltPut lt k row).length ≤ lt.length + 1 := by
  induction lt with
  | nil => simp [ltPut]
  | cons q rest ih =>
    simp only [ltPut]
    split
    · simp
    · split <;> simp; omega

/-- Replacing the row of a key that is present keeps the size. -/
theorem ltPut_length_of_mem {lt : List (Mac × LtRow)} (h : Lt.wf lt) {k : Mac} {old : LtRow} (row : LtRow)
    (hm : (k, old) ∈ lt) : (ltPut lt k row).length = lt.length := by
  induction lt with
  | nil => simp at hm
  | cons q rest ih =>
    obtain ⟨m, r⟩ := q
    rw [Lt.wf, List.pairwise_cons] at h
    simp only [ltPut]
    split
    · simp
    · rename_i hk
      rcases List.mem_cons.mp hm with he | hr
      · cases he; exact absurd rfl hk
      · rw [if_neg (by have := h.1 _ hr; simp at this; omega)]
        simp [ih h.2 hr]

theorem ltFind_ltPut_same {lt : List (Mac × LtRow)} (h : Lt.wf lt) (k : Mac) (row : LtRow) :
    ltFind (ltPut lt k row) k = some row :=
  ltFind_of_mem (ltPut_wf h k row) ((mem_ltPut h k row _).mpr (.inl rfl))

theorem ltFind_ltPut_other {lt : List (Mac × LtRow)} (h : Lt.wf lt) {k j : Mac} (row : LtRow) (hj : j ≠ k) :
    ltFind (ltPut lt k row) j = ltFind lt j := by
  cases hf : ltFind lt j with
  | none =>
    rw [ltFind_none] at hf ⊢
    intro p hp
    rcases (mem_ltPut h k row p).mp hp with rfl | ⟨hp, -⟩
    · exact fun e => hj e.symm
    · exact hf p hp
  | some r =>
    exact ltFind_of_mem (ltPut_wf h k row) ((mem_ltPut h k row _).mpr (.inr ⟨ltFind_some hf, hj⟩))

@[simp] theorem mem_ltErase {lt : List (Mac × LtRow)} {k : Mac} {p : Mac × LtRow} :
    p ∈ ltErase lt k ↔ p ∈ lt ∧ p.1 ≠ k := by simp [ltErase]

theorem ltErase_wf {lt : List (Mac × LtRow)} (h : Lt.wf lt) (k : Mac) : Lt.wf (ltErase lt k) :=
  List.Pairwise.sublist List.filter_sublist h

theorem ltErase_length (lt : List (Mac × LtRow)) (k : Mac) : (ltErase lt k).length ≤ lt.length :=
  List.length_filter_le _ _

theorem ltFind_ltErase_same (lt : List (Mac × LtRow)) (k : Mac) : ltFind (ltErase lt k) k = none := by
  rw [ltFind_none]; simp

theorem ltFind_ltErase_other {lt : List (Mac × LtRow)} {k j : Mac} (hj : j ≠ k) :
    ltFind (ltErase lt k) j = ltFind lt j := by
  induction lt with
  | nil => rfl
  | cons p rest ih =>
    obtain ⟨m, r⟩ := p
    by_cases hm : m = k
    · have : m ≠ j := fun e => hj (e ▸ hm)
      simpa [ltErase, hm, ltFind, this, hj.symm] using ih
    · by_cases hmj : m = j
      · simp [ltErase, ltFind, hmj, hj]
      · simpa [ltErase, hm, ltFind, hmj] using ih

end Sys2Proof.Machine
end

