-- ==== Sys2Proof/Laws/Ops.lean ====
section
/-! SUPPORT. Sys2Proof/Laws/Ops.lean: one lemma for each shared operation, saying once everything it can do. -/

namespace Sys2Proof.Machine

open Sys2Proof

/-! ## Guarded reads -/

theorem withRead_in {s : State} {a n : Nat} (h : a + n ≤ s.rxb.length) (k : Nat → Outc) :
    withRead s a n k = k (field s.rxb a n) := by
  simp [withRead, State.memRead, State.rxLen, h]

theorem withSlice_in {s : State} {a n : Nat} (h : a + n ≤ s.rxb.length) (k : Bytes → Outc) :
    withSlice s a n k = k (span s.rxb a n) := by
  simp [withSlice, State.rxLen, h]

/-! ## Phases -/

theorem phase_live {s : State} : s.phase = .live ↔ s.cfgErr = false ∧ s.live = true := by
  unfold State.phase
  cases s.cfgErr <;> cases s.live <;> simp

theorem phase_config {s : State} : s.phase = .config ↔ s.cfgErr = false ∧ s.live = false := by
  unfold State.phase
  cases s.cfgErr <;> cases s.live <;> simp

theorem phase_failed {s : State} : s.phase = .failed ↔ s.cfgErr = true := by
  unfold State.phase
  cases s.cfgErr <;> cases s.live <;> simp

/-! ## Refused configuration and illegal records -/

/-- The common check lets the operation through in phase CONFIG and otherwise only answers a result (R140). -/
theorem cfgCheck_cases (s : State) (k : Outc) :
    (s.phase = .config ∧ cfgCheck s k = k) ∨
    (s.phase ≠ .config ∧ ∃ c, cfgCheck s k = .next (s.result (Res.plain c))) := by
  unfold cfgCheck
  cases h : s.phase
  · exact .inl ⟨rfl, rfl⟩
  · exact .inr ⟨by simp, _, rfl⟩
  · exact .inr ⟨by simp, _, rfl⟩

/-- A refused record sets CFG_ERR in phase CONFIG and otherwise only answers a result (R115). -/
theorem rejectRecord_cases (why : Illegal) (s : State) :
    (s.phase = .config ∧ rejectRecord why s = malformedCfg s) ∨
    (s.phase ≠ .config ∧ ∃ c, rejectRecord why s = .next (s.result (Res.plain c))) := by
  have hi : (s.phase = .config ∧ illegalRecord s = malformedCfg s) ∨
      (s.phase ≠ .config ∧ ∃ c, illegalRecord s = .next (s.result (Res.plain c))) := by
    unfold illegalRecord
    cases h : s.phase
    · exact .inl ⟨rfl, rfl⟩
    · exact .inr ⟨by simp, _, rfl⟩
    · exact .inr ⟨by simp, _, rfl⟩
  cases why with
  | undefinedOpcode op => exact hi
  | reservedBits op =>
    simp only [rejectRecord]
    split
    · exact cfgCheck_cases s _
    · exact hi

/-- The same for an illegal record that is no CFG.* record. -/
theorem illegalRecord_cases (s : State) :
    (s.phase = .config ∧ illegalRecord s = malformedCfg s) ∨
    (s.phase ≠ .config ∧ ∃ c, illegalRecord s = .next (s.result (Res.plain c))) :=
  rejectRecord_cases (.undefinedOpcode 0) s

/-! ## Admission -/

/-- The admission tests end the operation with a result and nothing else, or let it through (R201). -/
theorem admission_cases (s : State) (k : Outc) :
    (∃ c, admission s k = .next (s.endRx (Res.plain c))) ∨
    (s.phase = .live ∧ s.ifValid s.rxIf = true ∧ 14 ≤ s.rxb.length ∧ s.rxb.length ≤ s.par.maxFrame ∧ admission s k = k) := by
  unfold admission raiseDrop
  by_cases h1 : s.phase = .live
  · rw [if_neg (by simpa using h1)]
    cases h2 : s.ifValid s.rxIf
    · exact .inl ⟨.illegalOp, by simp⟩
    · rw [if_neg (by simp)]
      by_cases h3 : s.rxLen < 14 ∨ s.par.maxFrame < s.rxLen
      · exact .inl ⟨_, by rw [if_pos h3]⟩
      · rw [if_neg h3]
        simp only [State.rxLen, not_or, Nat.not_lt] at h3
        exact .inr ⟨h1, rfl, h3.1, h3.2, rfl⟩
  · exact .inl ⟨_, by rw [if_pos (by simpa using h1)]⟩

/-! ## The synthesizer -/

/-- `raise Icmp` with the transient state it leaves out of sight: the read of the source, RESOLVE, the payload, the frame. -/
theorem raiseIcmp_closed (kind : IcmpKind) (s : State) :
    raiseIcmp kind s =
      withRead s 26 4 fun src =>
        match s.resolve (.ofNat 32 src) with
        | .noRoute => .next (s.endRx (Res.abandoned .icmpAbandonedNoRoute kind))
        | .noArp _ => .next (s.endRx (Res.abandoned .icmpAbandonedNoArp kind))
        | .ok e m =>
          withPayload s kind fun P =>
            .next ((s.emitTx e (synthFrame m (s.ifSlot e).mac (s.ifSlot e).ip (.ofNat 32 src) kind P)).endRx
              (Res.icmp kind (!s.txOk))) := by
  unfold raiseIcmp
  congr 1

/-- `raise Icmp` on a parsed frame: everything it can do is what R231 writes, on the received bytes. -/
theorem raiseIcmp_eq {s : State} {kind : IcmpKind} (hlen : 34 ≤ s.rxb.length) (hhl : s.work.hl = headerLen s.rxb)
    (hpl : s.work.pl = payloadLen s.rxb) (hin : 14 + (headerLen s.rxb + payloadLen s.rxb) ≤ s.rxb.length)
    (hecho : kind = .echoReply → 4 ≤ payloadLen s.rxb) :
    raiseIcmp kind s = .next (replyResult s kind s.rxb) := by
  unfold raiseIcmp replyResult
  rw [withRead_in (by omega)]
  have hr : ∀ w g, State.resolve { s with stage := g, work := w } = s.resolve := fun _ _ => rfl
  simp only [hr]
  change (match s.resolve (srcAddr s.rxb) with | .noRoute => _ | .noArp _ => _ | .ok e m => _) = _
  cases s.resolve (srcAddr s.rxb) with
  | noRoute => rfl
  | noArp r => rfl
  | ok e m =>
    simp only [withPayload]
    have hhl' : ∀ i a, Work.hl { s.work with icmp := i, src := a } = headerLen s.rxb := fun _ _ => hhl
    have hpl' : ∀ i a, Work.pl { s.work with icmp := i, src := a } = payloadLen s.rxb := fun _ _ => hpl
    simp only [hhl', hpl']
    by_cases hk : kind = .echoReply
    · have := hecho hk
      rw [if_pos hk, withSlice_in (by simp only; omega)]
      simp only [replyPayload, if_pos hk]
      rfl
    · rw [if_neg hk, withSlice_in (by simp only; omega)]
      rw [withSlice_in (by simp only; have := Nat.min_le_right 8 (payloadLen s.rxb); omega)]
      simp only [replyPayload, if_neg hk]
      rfl

/-- A reply writes nothing of the state R20 names. -/
theorem replyResult_cases (s : State) (kind : IcmpKind) (F : Bytes) :
    (∃ r, replyResult s kind F = s.endRx r) ∨
    ∃ e m r, s.resolve (srcAddr F) = .ok e m ∧ replyResult s kind F =
      (s.emitTx e (synthFrame m (s.ifSlot e).mac (s.ifSlot e).ip (srcAddr F) kind (replyPayload kind F))).endRx r := by
  unfold replyResult
  cases h : s.resolve (srcAddr F) with
  | noRoute => exact .inl ⟨_, rfl⟩
  | noArp r => exact .inl ⟨_, rfl⟩
  | ok e m => exact .inr ⟨e, m, _, rfl, rfl⟩

end Sys2Proof.Machine
end

