-- ==== Sys2Proof/Laws/PerInstr.lean ====
section
/-! SUPPORT. Sys2Proof/Laws/PerInstr.lean: the statements made for every instruction, one lemma for each constructor. -/

namespace Sys2Proof.Laws.EncodeLength

open Sys2Proof

/-- The encoding of a record is as long as its own first bytes say (R113): 16 bytes, or `4 + len`. -/
def Statement (i : Instr) : Prop :=
  i.isRecord = true → i.wellFormed = true → (encode i).length = recordLength (encode i)

/-- An encoding of 16 bytes whose first byte is not 0x10. -/
theorem of_ctl {b : Bytes} {op : Byte} {r : Bytes} (h : b = op :: r) (hr : r.length = 15) (hop : op ≠ 0x10) :
    b.length = recordLength b := by
  have : op.toNat ≠ 16 := fun e => hop (BitVec.eq_of_toNat_eq e)
  subst h
  simp [recordLength, field_first, hr, this]

theorem cfgIface (ifx : IfIdx) (mac : Mac) (ip : Ip) : Statement (.cfgIface ifx mac ip) :=
  fun _ _ => of_ctl rfl (by simp) (by decide)

theorem cfgRoute (dest mask gw : Ip) (ifx : IfIdx) : Statement (.cfgRoute dest mask gw ifx) :=
  fun _ _ => of_ctl rfl (by simp) (by decide)

theorem cfgArp (ip : Ip) (mac : Mac) : Statement (.cfgArp ip mac) := fun _ _ => of_ctl rfl (by simp) (by decide)

theorem cfgMode (mode : Mode) : Statement (.cfgMode mode) := by
  cases mode <;> exact fun _ _ => of_ctl rfl (by simp) (by decide)

theorem cfgCommit : Statement .cfgCommit := fun _ _ => of_ctl rfl (by simp) (by decide)

theorem rx (inIf : IfIdx) (frame : Bytes) : Statement (.rx inIf frame) := by
  intro _ hw
  simp only [Instr.wellFormed, decide_eq_true_eq] at hw
  have h2 : field (encode (.rx inIf frame)) 2 2 = frame.length := by
    have := field_after (P := [0x10, inIf]) (R := frame) rfl (beBytes_length 2 frame.length)
    rw [beNat_beBytes, Nat.mod_eq_of_lt (by omega)] at this
    exact this
  have h0 : field (encode (.rx inIf frame)) 0 1 = 16 := field_first _ _
  rw [recordLength, if_pos h0, h2]
  simp [encode]
  omega

theorem tick : Statement .tick := fun _ _ => of_ctl rfl (by simp) (by decide)

theorem sweepDel (mac : Mac) : Statement (.sweepDel mac) := fun _ _ => of_ctl rfl (by simp) (by decide)

theorem frameIpv4 : Statement .frameIpv4 := by simp [Statement, Instr.isRecord]

theorem frameLocalTcp : Statement .frameLocalTcp := by simp [Statement, Instr.isRecord]

theorem frameLocalUdp : Statement .frameLocalUdp := by simp [Statement, Instr.isRecord]

theorem frameLocalEchoreq : Statement .frameLocalEchoreq := by simp [Statement, Instr.isRecord]

theorem frameLocalOther : Statement .frameLocalOther := by simp [Statement, Instr.isRecord]

theorem icmpTimeExceeded : Statement .icmpTimeExceeded := by simp [Statement, Instr.isRecord]

theorem icmpNetUnreach : Statement .icmpNetUnreach := by simp [Statement, Instr.isRecord]

theorem icmpHostUnreach : Statement .icmpHostUnreach := by simp [Statement, Instr.isRecord]

theorem icmpPortUnreach : Statement .icmpPortUnreach := by simp [Statement, Instr.isRecord]

theorem icmpEchoReply : Statement .icmpEchoReply := by simp [Statement, Instr.isRecord]

end Sys2Proof.Laws.EncodeLength
end

