-- ==== Sys2Proof/Laws/Router.lean ====
section
/-! SUPPORT. Sys2Proof/Laws/Router.lean: one lemma for each stage of the router: on a frame that passed the stages before it,
the stage ends as the corresponding tail of the pseudocode of R214 decides. -/

namespace Sys2Proof.Machine

open Sys2Proof

/-! ## The pseudocode from a stage on -/

/-- R214 from stage S5 on. -/
def fromS5 (s : State) (inIf : IfIdx) (F : Bytes) : RouterOutcome :=
  match rtLookup s.rt (dstAddr F) with
  | none => .icmp .netUnreach
  | some r =>
    if r.ifx = inIf then .drop .dropSameIface
    else
      match arpLookup s.arp (nextHop r (dstAddr F)) with
      | none => .icmp .hostUnreach
      | some m => .forward r.ifx (forwardFrame F m (s.ifSlot r.ifx).mac)

/-- R214 from stage S4 on. -/
def fromS4 (s : State) (inIf : IfIdx) (F : Bytes) : RouterOutcome :=
  if s.isLocal (dstAddr F) then
    if field F 23 1 = 6 ∨ field F 23 1 = 17 then .icmp .portUnreach
    else if field F 23 1 = 1 ∧ 4 ≤ payloadLen F ∧ field F (14 + headerLen F) 1 = 8 then .icmp .echoReply
    else .drop .dropLocalOther
  else fromS5 s inIf F

/-- R214 from stage S2 on. -/
def fromS2 (s : State) (inIf : IfIdx) (F : Bytes) : RouterOutcome :=
  if ipv4CsumOk (ipHeader F) (.ofNat 16 (field F 24 2)) = false then .drop .dropBadCsum
  else if (rxTtl F).toNat ≤ 1 then .icmp .timeExceeded
  else fromS4 s inIf F

/-- R214 from stage S1P on. -/
def fromS1P (s : State) (inIf : IfIdx) (F : Bytes) : RouterOutcome :=
  if F.length < 34 then .drop .dropMalformed
  else if field F 14 1 / 16 ≠ 4 ∨ headerLen F < 20 ∨ F.length < 14 + headerLen F ∨ totalLen F < headerLen F ∨
      F.length < 14 + totalLen F then .drop .dropMalformed
  else fromS2 s inIf F

theorem routerOutcome_eq (s : State) (inIf : IfIdx) (F : Bytes) :
    routerOutcome s inIf F =
      if s.phase ≠ .live then .drop .dropNotLive
      else if s.ifValid inIf = false then .illegal
      else if F.length < 14 ∨ s.par.maxFrame < F.length then .drop .dropMalformed
      else if field F 12 2 ≠ 0x0800 then .drop .dropNotIpv4
      else fromS1P s inIf F := rfl

/-- An outcome is applied to the state R20 names: what the operation left in the transient state does not show. -/
theorem applyOutcome_transient (s : State) (F : Bytes) (o : RouterOutcome) (g : Stage) (rxb : Bytes) (rxIf : IfIdx)
    (txb : Bytes) (w : Work) :
    applyOutcome { s with stage := g, rxb := rxb, rxIf := rxIf, txb := txb, work := w } F o = applyOutcome s F o := by
  cases o <;> rfl

/-! ## What stage S1P leaves -/

/-- The working values agree with the frame, and its header and datagram lie within it. -/
structure ReadyFor (s : State) : Prop where
  long  : 34 ≤ s.rxb.length
  hl    : s.work.hl = headerLen s.rxb
  pl    : s.work.pl = payloadLen s.rxb
  min   : 20 ≤ headerLen s.rxb
  order : headerLen s.rxb ≤ totalLen s.rxb
  fits  : 14 + totalLen s.rxb ≤ s.rxb.length

theorem ReadyFor.inside {s : State} (h : ReadyFor s) : 14 + (headerLen s.rxb + payloadLen s.rxb) ≤ s.rxb.length := by
  have := h.order; have := h.fits; simp only [payloadLen]; omega

/-! ## The frame of stage S8 -/

/-- The four writes of R212 leave the frame of R213. -/
theorem forwardFrame_of_writes {F : Bytes} (h : 34 ≤ F.length) (m n : Mac) :
    memWrite (memWrite (memWrite (memWrite F 0 6 m.toNat) 6 6 n.toNat) 22 1 (rxTtl F - 1).toNat) 24 2
      (csumWithTtl (ipHeader F) (rxTtl F - 1)).toNat = forwardFrame F m n := by
  have hF : F = span F 0 6 ++ (span F 6 6 ++ (span F 12 10 ++ (span F 22 1 ++ (span F 23 1 ++ (span F 24 2 ++
      F.drop 26))))) := by
    have e (a b : Nat) : F.drop a = span F a b ++ F.drop (a + b) := by
      simp only [span]; rw [← List.drop_drop, List.take_append_drop]
    conv_lhs => rw [← List.drop_zero (l := F), e 0 6, e 6 6, e 12 10, e 22 1, e 23 1, e 24 2]
  have hl (a b : Nat) (hb : a + b ≤ 34) : (span F a b).length = b := span_length_of_le (by omega)
  have e1 : memWrite F 0 6 m.toNat = beBytes 6 m.toNat ++ (span F 6 6 ++ (span F 12 10 ++ (span F 22 1 ++
      (span F 23 1 ++ (span F 24 2 ++ F.drop 26))))) := by
    conv_lhs => rw [hF, memWrite]
    exact writeBytes_mid (P := []) rfl (by rw [hl 0 6 (by omega)]; simp)
  have e2 : memWrite (memWrite F 0 6 m.toNat) 6 6 n.toNat = beBytes 6 m.toNat ++ (beBytes 6 n.toNat ++
      (span F 12 10 ++ (span F 22 1 ++ (span F 23 1 ++ (span F 24 2 ++ F.drop 26))))) := by
    rw [e1, memWrite]
    exact writeBytes_mid (by simp) (by rw [hl 6 6 (by omega)]; simp)
  have e3 (v : Nat) : memWrite (memWrite (memWrite F 0 6 m.toNat) 6 6 n.toNat) 22 1 v =
      (beBytes 6 m.toNat ++ beBytes 6 n.toNat ++ span F 12 10) ++ (beBytes 1 v ++
      (span F 23 1 ++ (span F 24 2 ++ F.drop 26))) := by
    rw [e2, memWrite, ← List.append_assoc, ← List.append_assoc]
    exact writeBytes_mid (by simp [hl 12 10]) (by rw [hl 22 1 (by omega)]; simp)
  have e4 (v w : Nat) : memWrite (memWrite (memWrite (memWrite F 0 6 m.toNat) 6 6 n.toNat) 22 1 v) 24 2 w =
      (beBytes 6 m.toNat ++ beBytes 6 n.toNat ++ span F 12 10 ++ beBytes 1 v ++ span F 23 1) ++
      (beBytes 2 w ++ F.drop 26) := by
    rw [e3, memWrite, ← List.append_assoc, ← List.append_assoc]
    exact writeBytes_mid (by simp [hl 12 10, hl 23 1]) (by rw [hl 24 2 (by omega)]; simp)
  have hb : ∀ x : Byte, beBytes 1 x.toNat = [x] := fun x => by simp [beBytes]
  rw [e4, hb]
  simp [forwardFrame, List.append_assoc]

/-! ## The stages, last first -/

theorem stageS5_eq {s : State} (h : ReadyFor s) (hd : s.work.dst = dstAddr s.rxb)
    (ht : s.work.ttlNew = rxTtl s.rxb - 1) (hc : s.work.csumNew = csumWithTtl (ipHeader s.rxb) (rxTtl s.rxb - 1)) :
    stageS5 s = .next (applyOutcome s s.rxb (fromS5 s s.rxIf s.rxb)) := by
  unfold stageS5 fromS5
  rw [hd]
  cases hr : rtLookup s.rt (dstAddr s.rxb) with
  | none =>
    exact (raiseIcmp_eq h.long h.hl h.pl h.inside (by simp)).trans
      (congrArg _ (applyOutcome_transient s s.rxb (.icmp .netUnreach) s.stage s.rxb s.rxIf s.txb _))
  | some r =>
    simp only [stageS6]
    by_cases hif : r.ifx = s.rxIf
    · simp only [if_pos hif]
      rfl
    · simp only [if_neg hif, stageS7, hd]
      cases ha : arpLookup s.arp (nextHop r (dstAddr s.rxb)) with
      | none =>
        exact (raiseIcmp_eq h.long h.hl h.pl h.inside (by simp)).trans
          (congrArg _ (applyOutcome_transient s s.rxb (.icmp .hostUnreach) .s7 s.rxb s.rxIf s.txb
            { s.work with dst := dstAddr s.rxb, route := some r, nh := nextHop r (dstAddr s.rxb) }))
      | some m =>
        simp only [stageS8, ht, hc]
        rw [show ∀ w g, State.ifSlot { s with stage := g, work := w } r.ifx = s.ifSlot r.ifx from fun _ _ => rfl,
          forwardFrame_of_writes h.long]
        rfl

theorem stageS4_eq {s : State} (h : ReadyFor s) (ht : s.work.ttlNew = rxTtl s.rxb - 1)
    (hc : s.work.csumNew = csumWithTtl (ipHeader s.rxb) (rxTtl s.rxb - 1)) :
    stageS4 s = .next (applyOutcome s s.rxb (fromS4 s s.rxIf s.rxb)) := by
  unfold stageS4
  have hlong := h.long
  rw [withRead_in (by omega)]
  simp only
  rw [show State.isLocal { s with work := { s.work with dst := BitVec.ofNat 32 (field s.rxb 30 4) } }
    (BitVec.ofNat 32 (field s.rxb 30 4)) = s.isLocal (dstAddr s.rxb) from rfl]
  unfold fromS4
  by_cases hl : s.isLocal (dstAddr s.rxb) = true
  · rw [if_pos hl, if_pos hl, withRead_in (by simp only; omega)]
    have hp : (BitVec.ofNat 8 (field s.rxb 23 1)).toNat = field s.rxb 23 1 := by
      have := field_lt s.rxb 23 1
      simp; omega
    have hread : withLocalClass
        { s with work := { s.work with dst := BitVec.ofNat 32 (field s.rxb 30 4), proto := BitVec.ofNat 8 (field s.rxb 23 1) } }
        = fun k => k (classifyLocal (field s.rxb 23 1) (payloadLen s.rxb) (field s.rxb (14 + headerLen s.rxb) 1)) := by
      funext k
      have hin := h.inside
      have e1 : ∀ d p, Work.hl { s.work with dst := d, proto := p } = headerLen s.rxb := fun _ _ => h.hl
      have e2 : ∀ d p, Work.pl { s.work with dst := d, proto := p } = payloadLen s.rxb := fun _ _ => h.pl
      unfold withLocalClass readsIcmpType
      simp only [e1, e2, hp]
      by_cases hr : BitVec.ofNat 8 (field s.rxb 23 1) = 1 ∧ 4 ≤ payloadLen s.rxb
      · rw [if_pos (by simpa using hr), withRead_in (by simp only; omega)]
      · rw [if_neg (by simpa using hr)]
        congr 1
        have hr' : ¬(field s.rxb 23 1 = 1 ∧ 4 ≤ payloadLen s.rxb) := fun ⟨a, b⟩ => hr ⟨by rw [a]; rfl, b⟩
        simp only [classifyLocal]
        have n0 : ∀ x, ¬(field s.rxb 23 1 = 1 ∧ 4 ≤ payloadLen s.rxb ∧ x) := fun x ⟨a, b, _⟩ => hr' ⟨a, b⟩
        simp only [n0, if_false]
    simp only [hread]
    have icmp (k : IcmpKind) (hk : k = .echoReply → 4 ≤ payloadLen s.rxb) (d : Ip) (p : Byte) :
        raiseIcmp k { s with work := { s.work with dst := d, proto := p } } = .next (replyResult s k s.rxb) :=
      raiseIcmp_eq h.long h.hl h.pl h.inside hk
    simp only [classifyLocal]
    by_cases h6 : field s.rxb 23 1 = 6
    · rw [if_pos h6, if_pos (.inl h6)]
      exact icmp .portUnreach (by simp) _ _
    · rw [if_neg h6]
      by_cases h17 : field s.rxb 23 1 = 17
      · rw [if_pos h17, if_pos (.inr h17)]
        exact icmp .portUnreach (by simp) _ _
      · rw [if_neg h17, if_neg (not_or.mpr ⟨h6, h17⟩)]
        split
        · rename_i he
          exact icmp .echoReply (fun _ => he.2.1) _ _
        · rfl
  · rw [if_neg hl, if_neg hl]
    exact stageS5_eq ⟨h.long, h.hl, h.pl, h.min, h.order, h.fits⟩ rfl ht hc

theorem stageS2_eq {s : State} (h : ReadyFor s) :
    stageS2 s = .next (applyOutcome s s.rxb (fromS2 s s.rxIf s.rxb)) := by
  have hlong := h.long
  have hin := h.inside
  unfold stageS2
  rw [h.hl, withSlice_in (by omega), withRead_in (by omega)]
  unfold fromS2 ipHeader
  simp only
  by_cases hok : ipv4CsumOk (span s.rxb 14 (headerLen s.rxb)) (BitVec.ofNat 16 (field s.rxb 24 2)) = true
  · simp only [if_pos hok]
    rw [if_neg (by simp [hok])]
    unfold stageS3
    rw [withRead_in (by simp only; omega)]
    have hx : ∀ c t, Work.hl { s.work with csumRx := c, ttlRx := t } = headerLen s.rxb := fun _ _ => h.hl
    simp only [ttlExpired, decide_eq_true_eq]
    rw [show BitVec.ofNat 8 (field s.rxb 22 1) = rxTtl s.rxb from rfl]
    by_cases ht : (rxTtl s.rxb).toNat ≤ 1
    · rw [if_pos ht, if_pos ht]
      exact raiseIcmp_eq (s := { s with stage := .s3, work := { s.work with csumRx := _, ttlRx := _ } }) h.long h.hl
        h.pl h.inside (by simp)
    · rw [if_neg ht, if_neg ht, hx, withSlice_in (by simp only; omega)]
      exact stageS4_eq ⟨h.long, h.hl, h.pl, h.min, h.order, h.fits⟩ rfl rfl
  · simp only [if_neg hok]
    rw [if_pos (by simpa using hok)]
    rfl

/-- Stage S1P and everything after it, on any frame. -/
theorem stageS1P_eq (s : State) : stageS1P s = .next (applyOutcome s s.rxb (fromS1P s s.rxIf s.rxb)) := by
  unfold stageS1P fromS1P
  change (if s.rxb.length < 34 then _ else _) = _
  by_cases hlong : s.rxb.length < 34
  · rw [if_pos hlong, if_pos hlong]
    rfl
  · rw [if_neg hlong, if_neg hlong, withRead_in (by omega), withRead_in (by omega)]
    have hhl : Work.hl { s.work with ihl := .ofNat 4 (field s.rxb 14 1), tl := .ofNat 16 (field s.rxb 16 2) } =
        headerLen s.rxb := by simp [Work.hl, headerLen]
    have htl : (BitVec.ofNat 16 (field s.rxb 16 2)).toNat = totalLen s.rxb := by
      have := field_lt s.rxb 16 2
      simp only [BitVec.toNat_ofNat, totalLen]; omega
    have hih : (BitVec.ofNat 4 (field s.rxb 14 1)).toNat = field s.rxb 14 1 % 16 := by simp
    have hlen : ∀ w, State.rxLen { s with work := w } = s.rxb.length := fun _ => rfl
    simp only [hhl, htl, hih, hlen]
    have hh : headerLen s.rxb = 4 * (field s.rxb 14 1 % 16) := rfl
    by_cases h1 : field s.rxb 14 1 / 16 ≠ 4
    · rw [if_pos h1, if_pos (.inl h1)]; rfl
    rw [if_neg h1]
    by_cases h2 : field s.rxb 14 1 % 16 < 5
    · rw [if_pos h2, if_pos (.inr (.inl (by omega)))]; rfl
    rw [if_neg h2]
    by_cases h3 : s.rxb.length < 14 + headerLen s.rxb
    · rw [if_pos h3, if_pos (.inr (.inr (.inl h3)))]; rfl
    rw [if_neg h3]
    by_cases h4 : totalLen s.rxb < headerLen s.rxb
    · rw [if_pos h4, if_pos (.inr (.inr (.inr (.inl h4))))]; rfl
    rw [if_neg h4]
    by_cases h5 : s.rxb.length < 14 + totalLen s.rxb
    · rw [if_pos h5, if_pos (.inr (.inr (.inr (.inr h5))))]; rfl
    rw [if_neg h5, if_neg (by simp only [not_or]; exact ⟨h1, by omega, h3, h4, h5⟩)]
    refine stageS2_eq (s := { s with stage := .s2, work := _ }) ⟨by simp only; omega, hhl, ?_, by simp only; omega,
      by simp only; omega, by simp only; omega⟩
    simp only [Work.pl, hhl, htl, payloadLen]

/-- Stage S1 and everything after it. -/
theorem stageS1_eq {s : State} (h : 14 ≤ s.rxb.length) :
    stageS1 s = .next (applyOutcome s s.rxb
      (if field s.rxb 12 2 ≠ 0x0800 then .drop .dropNotIpv4 else fromS1P s s.rxIf s.rxb)) := by
  unfold stageS1 classifyEthertype
  rw [withRead_in (by omega)]
  by_cases he : field s.rxb 12 2 = 0x0800
  · simp only [if_pos he]
    rw [if_neg (by simp [he])]
    exact stageS1P_eq { s with stage := .s1p, work := _ }
  · simp only [if_neg he]
    rw [if_pos he]
    rfl

end Sys2Proof.Machine
end

