-- ==== Sys2Proof/Tests/Slice0.lean ====
section
/-! SUPPORT. Sys2Proof/Tests/Slice0.lean: the model's own tests, each about one step or one decoding, with results taken
from 95_test_vectors.md (the vector is named in each docstring), and a witness for the hypotheses of every statement. -/

namespace Sys2Proof.Tests

open Sys2Proof Sys2Proof.Machine

/-! ## Helpers -/

/-- The next state an outcome holds. -/
def after : Outc → Option State
  | .next t => some t
  | .fault _ => none
  | .refused _ => none

/-- The frames and the results on the ports after an outcome. -/
def ports (o : Outc) : Option (List Tx × List Res) := (after o).map fun t => (t.out.tx, t.out.res)

/-- A 46-byte frame of Part 6: destination and source MAC, ethertype, the IPv4 header as one number and the usual payload. -/
def udpFrame (header : Nat) : Bytes :=
  beBytes 14 0x020000000000aabbccddee070800 ++ beBytes 20 header ++ beBytes 12 0x04d2162e000c000061626364

/-- The frame that carries the ICMP message of Part 6 back to 10.0.0.7, `n` payload bytes long. -/
def replyFrame (totalLength checksum icmp n payload : Nat) : Bytes :=
  beBytes 14 0xaabbccddee070200000000000800 ++ [0x45, 0x00] ++ beBytes 2 totalLength ++ [0, 0, 0, 0, 0x40, 0x01] ++
    beBytes 2 checksum ++ beBytes 4 0x0a000001 ++ beBytes 4 0x0a000007 ++ beBytes 4 icmp ++ beBytes n payload

/-- The table of N_IF = 8 slots with the first ones given. -/
def slots (l : List IfSlot) : List IfSlot := l ++ List.replicate (8 - l.length) IfSlot.undefined

/-- CFG-B of Part 2, loaded and committed; every transmission is answered by success. -/
def cfgB : State :=
  { State.reset with
    live := true
    ifs := slots [⟨true, 0x020000000000, 0x0a000001⟩, ⟨true, 0x020000000001, 0x0a000101⟩, ⟨true, 0x020000000002, 0xc0a80701⟩]
    rt := [⟨0x0a000100, 0xffffff00, 0, 1⟩, ⟨0x0a000000, 0xffffff00, 0, 0⟩, ⟨0xac100000, 0xfff00000, 0xc0a807fe, 2⟩,
      ⟨0xac100500, 0xffffff00, 0x0a000109, 1⟩]
    arp := [⟨0x0a000105, 0xaabbccddee01⟩, ⟨0x0a000007, 0xaabbccddee07⟩, ⟨0xc0a807fe, 0xaabbccddeefe⟩]
    env := { Env.idle with txAnswers := [true, true, true] } }

/-- Stations A and B of Part 7. -/
def staA : Mac := 0xaa000000000a
def staB : Mac := 0xaa000000000b

/-- FAB, FBA and FAX of Part 7. -/
def fAB : Bytes := beBytes 18 0xaa000000000baa000000000a0806deadbeef
def fBA : Bytes := beBytes 18 0xaa000000000aaa000000000b0806cafef00d
def fAX : Bytes := beBytes 18 0xffffffffffffaa000000000a080601020304

/-- The switch of Part 7 with a learning table, a time and pending victims. -/
def sw (lt : List (Mac × LtRow)) (now : Nat) (victims : List Mac) : State :=
  { State.reset with
    mode := .switch, live := true
    ifs := slots [⟨true, 0x020000000000, 0⟩, ⟨true, 0x020000000001, 0⟩, ⟨true, 0x020000000002, 0⟩]
    lt := lt, now := now, victims := victims
    env := { Env.idle with txAnswers := [true, true, true] } }

/-- A state with bytes at its OP port. -/
def offer (s : State) (b : Bytes) : State := { s with env := { s.env with opPort := b } }

/-- The phase FAILED. -/
def failed : State := { State.reset with cfgErr := true }

/-- CFG-B with the RX operation on a frame standing at a stage, its header parsed. -/
def parsed (F : Bytes) (stage : Stage) : State :=
  { cfgB with
    stage := stage, rxb := F, rxIf := 0
    work := { Work.blank with ihl := .ofNat 4 (field F 14 1), tl := .ofNat 16 (field F 16 2) } }

/-! ## Well-formedness -/

/-- An RX operation whose frame does not fit the 16-bit `len` field (R98) is refused. -/
theorem test_wellFormed_refuses_long_frame :
    (Instr.rx 0 (List.replicate 65536 0)).wellFormed = false := by
  simp only [Instr.wellFormed, List.length_replicate]
  decide

/-- A frame of 65535 bytes is accepted. -/
theorem test_wellFormed_accepts_longest_frame :
    (Instr.rx 0 (List.replicate 65535 0)).wellFormed = true := by
  simp only [Instr.wellFormed, List.length_replicate]
  decide

/-- The assembler refuses such a frame (log entry 19). -/
theorem test_readRx_refuses_long_frame : readRx 0 (List.replicate 65536 0) = none := by
  simp only [readRx, List.length_replicate]
  decide

/-! ## Decoding, from the bytes of 95_test_vectors.md -/

/-- K1 (R93). -/
theorem test_decode_cfgIface :
    decodeRecord (beBytes 16 0x01010200000000010a00010100000000) =
      .record (.cfgIface 1 0x020000000001 0x0a000101) [] := by decide

/-- CFG-B's fourth route (R94). -/
theorem test_decode_cfgRoute :
    decodeRecord (beBytes 16 0x0201ac100500ffffff000a0001090000) =
      .record (.cfgRoute 0xac100500 0xffffff00 0x0a000109 1) [] := by decide

/-- K9 (R95). -/
theorem test_decode_cfgArp :
    decodeRecord (beBytes 16 0x03000a000105aabbccddee0100000000) =
      .record (.cfgArp 0x0a000105 0xaabbccddee01) [] := by decide

/-- K11 (R96). -/
theorem test_decode_cfgMode :
    decodeRecord (beBytes 16 0x04010000000000000000000000000000) = .record (.cfgMode .switch) [] := by decide

/-- K12: bit 1 of byte 1 is `rsv` (R96). -/
theorem test_decode_cfgMode_reserved :
    decodeRecord (beBytes 16 0x04020000000000000000000000000000) = .illegal (.reservedBits 0x04) [] := by decide

/-- K14 (R97). -/
theorem test_decode_cfgCommit :
    decodeRecord (beBytes 16 0x05000000000000000000000000000000) = .record .cfgCommit [] := by decide

/-- Program P3 line 6 (R98), with the next record's first byte left over. -/
theorem test_decode_rx :
    decodeRecord (beBytes 22 0x10000012aa000000000baa000000000a0806deadbeef ++ [0x20]) = .record (.rx 0 fAB) [0x20] := by
  decide

/-- E1 (R99). -/
theorem test_decode_tick :
    decodeRecord (beBytes 16 0x20000000000000000000000000000000) = .record .tick [] := by decide

/-- E6 with the key A (R99, program P3 line 14). -/
theorem test_decode_sweepDel :
    decodeRecord (beBytes 16 0x2100aa000000000a0000000000000000) = .record (.sweepDel staA) [] := by decide

/-- K17: an opcode R91 does not list. -/
theorem test_decode_undefined :
    decodeRecord (beBytes 16 0x06000000000000000000000000000000) = .illegal (.undefinedOpcode 0x06) [] := by decide

/-- The (type, code) words of the ICMPOUT rows (R109), and one pair outside the closed set. -/
theorem test_decode_icmp :
    [0x0b00, 0x0300, 0x0301, 0x0303, 0x0000, 0x0302].map (decodeTableWord 16) =
      [some .icmpTimeExceeded, some .icmpNetUnreach, some .icmpHostUnreach, some .icmpPortUnreach, some .icmpEchoReply,
        none] := by decide

/-- The frame classes (R114): ethertypes of V1 and V4; protocols of V6, V26, V5, V15, and V16 (ICMP type 0), V19b (`pl = 3`). -/
theorem test_classify :
    [0x0800, 0x0806].map classifyEthertype = [some .frameIpv4, none] ∧
    [(6, 20, 0), (17, 12, 0), (1, 13, 8), (47, 4, 0), (1, 10, 0), (1, 3, 8)].map
        (fun x => (classifyLocal x.1 x.2.1 x.2.2).instr) =
      [.frameLocalTcp, .frameLocalUdp, .frameLocalEchoreq, .frameLocalOther, .frameLocalOther, .frameLocalOther] := by
  decide

/-- K19: the prefix form assembles to the record of 10.0.0.0 / 255.0.0.0 (R112, R117). -/
theorem test_assemble_prefix :
    assemble Params.default "cfg.route 10.0.0.0/8, direct, 0 ; K19".toList =
      some [.cfgRoute 0x0a000000 0xff000000 0 0] := by decide

/-- The text of K9 and of an RX operation (R116). -/
theorem test_assemble_lines :
    assemble Params.default "cfg.arp 10.0.1.5, aa:bb:cc:dd:ee:01".toList = some [.cfgArp 0x0a000105 0xaabbccddee01] ∧
    assemble Params.default "rx 3, 00ff".toList = some [.rx 3 [0x00, 0xff]] ∧
    assemble Params.default "tick 2".toList = some [.tick, .tick] := by decide

/-! ## Configuration (Part 3) -/

/-- K1. -/
theorem test_cfgIface_defines_slot :
    (after (exec (.cfgIface 1 0x020000000001 0x0a000101) State.reset)).map (fun t => (t.ifSlot 1, t.out.res)) =
      some (⟨true, 0x020000000001, 0x0a000101⟩, [Res.plain .done]) := by decide

/-- K3: `ifx = 8 >= N_IF`. -/
theorem test_cfgIface_out_of_range :
    (after (exec (.cfgIface 8 0x020000000008 0x0a000801) State.reset)).map (fun t => (t.cfgErr, t.ifs, t.out.res)) =
      some (true, State.reset.ifs, [Res.plain .cfgFailed]) := by decide

/-- K5. -/
theorem test_cfgRoute_appends :
    (after (exec (.cfgRoute 0x0a000100 0xffffff00 0 1) State.reset)).map (fun t => (t.rt, t.rtCnt, t.cfgErr)) =
      some ([⟨0x0a000100, 0xffffff00, 0, 1⟩], 1, false) := by decide

/-- K6: mask 255.0.255.0. -/
theorem test_cfgRoute_bad_mask :
    (after (exec (.cfgRoute 0x0a000000 0xff00ff00 0 1) State.reset)).map (fun t => (t.rt, t.cfgErr)) =
      some ([], true) := by decide

/-- K9. -/
theorem test_cfgArp_appends :
    (after (exec (.cfgArp 0x0a000105 0xaabbccddee01) State.reset)).map (fun t => (t.arp, t.arpCnt)) =
      some ([⟨0x0a000105, 0xaabbccddee01⟩], 1) := by decide

/-- K10: a duplicate key. -/
theorem test_cfgArp_duplicate :
    (after (exec (.cfgArp 0x0a000105 0xaabbccddee02) { State.reset with arp := [⟨0x0a000105, 0xaabbccddee01⟩] })).map
      (fun t => (t.arp, t.cfgErr)) = some ([⟨0x0a000105, 0xaabbccddee01⟩], true) := by decide

/-- K11. -/
theorem test_cfgMode_switch :
    (after (exec (.cfgMode .switch) State.reset)).map (fun t => (t.mode, t.out.res)) =
      some (.switch, [Res.plain .done]) := by decide

/-- K14. -/
theorem test_cfgCommit_live :
    (after (exec .cfgCommit State.reset)).map (fun t => (t.live, t.out.res)) = some (true, [Res.plain .done]) := by decide

/-- K13: a route names an undefined interface. -/
theorem test_cfgCommit_bad_route :
    (after (exec .cfgCommit { State.reset with rt := [⟨0x0a000100, 0xffffff00, 0, 1⟩] })).map
      (fun t => (t.live, t.cfgErr, t.out.res)) = some (false, true, [Res.plain .cfgFailed]) := by decide

/-- K12 through the OP port: the refused record fails the configuration. -/
theorem test_step_reserved_bits :
    (after (step (offer State.reset (beBytes 16 0x04020000000000000000000000000000)))).map
      (fun t => (t.mode, t.cfgErr, t.out.res)) = some (.router, true, [Res.plain .cfgFailed]) := by decide

/-! ## Lookups and checksums (Parts 4 and 5) -/

/-- L1, L3, L4, L6. -/
theorem test_rtLookup :
    [0x0a000105, 0xac100909, 0xac100509, 0xac200000].map (fun a => (rtLookup cfgB.rt a).map RouteEntry.ifx) =
      [some 1, some 2, some 1, none] := by decide

/-- L13. -/
theorem test_resolve :
    cfgB.resolve 0x0a000105 = .ok 1 0xaabbccddee01 ∧ cfgB.resolve 0xac100509 = .noArp ⟨0xac100500, 0xffffff00, 0x0a000109, 1⟩ ∧
      cfgB.resolve 0x08080808 = .noRoute := by decide

/-- L14. -/
theorem test_isLocal : [0x0a000101, 0xc0a80701, 0x0a000105].map cfgB.isLocal = [true, true, false] := by decide

/-- A1, A2, A3, A4, A5. -/
theorem test_csum16 :
    [beBytes 20 0x450000730000400040110000c0a80001c0a800c7, beBytes 8 0x0001f203f4f5f6f7, zeros 20, [], [0xff, 0xff],
      [1, 2, 3]].map csum16 = [0xb861, 0x220d, 0xffff, 0xffff, 0x0000, 0xfbfd] := by decide

/-! ## RX in ROUTER personality (Part 6, CFG-B) -/

/-- V1: forwarded. -/
theorem test_rx_forward :
    ports (exec (.rx 0 (udpFrame 0x450000201234000005118e8e0a0000070a000105)) cfgB) =
      some ([⟨1, beBytes 14 0xaabbccddee010200000000010800 ++ beBytes 20 0x450000201234000004118f8e0a0000070a000105 ++
        beBytes 12 0x04d2162e000c000061626364⟩], [⟨.forwarded, 0, 0, 1, false, .none⟩]) := by decide

/-- V10: by the gateway of the /12 route. -/
theorem test_rx_gateway :
    ports (exec (.rx 0 (udpFrame 0x45000020000500000911f2a80a000007ac100909)) cfgB) =
      some ([⟨2, beBytes 14 0xaabbccddeefe0200000000020800 ++ beBytes 20 0x45000020000500000811f3a80a000007ac100909 ++
        beBytes 12 0x04d2162e000c000061626364⟩], [⟨.forwarded, 0, 0, 1, false, .none⟩]) := by decide

/-- V2: Time Exceeded, run as the emission on the parsed frame. -/
theorem test_icmpTimeExceeded :
    ports (exec .icmpTimeExceeded (parsed (udpFrame 0x45000020123400000111928e0a0000070a000105) .icmp)) =
      some ([⟨0, replyFrame 0x38 0x66be 0x0b00d9f3 32
        0x0000000045000020123400000111928e0a0000070a00010504d2162e000c0000⟩], [⟨.icmpSent, 11, 0, 1, false, .none⟩]) := by
  decide

/-- V7: Network Unreachable. -/
theorem test_icmpNetUnreach :
    ports (exec .icmpNetUnreach (parsed (udpFrame 0x4500002000020000401160b50a00000708080808) .icmp)) =
      some ([⟨0, replyFrame 0x38 0x66be 0x0300e1f3 32
        0x000000004500002000020000401160b50a0000070808080804d2162e000c0000⟩], [⟨.icmpSent, 3, 0, 1, false, .none⟩]) := by
  decide

/-- V8: Host Unreachable. -/
theorem test_icmpHostUnreach :
    ports (exec .icmpHostUnreach (parsed (udpFrame 0x4500002000030000401165770a0000070a00014d) .icmp)) =
      some ([⟨0, replyFrame 0x38 0x66be 0x0301e1f2 32
        0x000000004500002000030000401165770a0000070a00014d04d2162e000c0000⟩], [⟨.icmpSent, 3, 1, 1, false, .none⟩]) := by
  decide

/-- V26: Port Unreachable about a UDP datagram. -/
theorem test_icmpPortUnreach :
    ports (exec .icmpPortUnreach (parsed (udpFrame 0x45000020001800004011a9050a000007c0a80701) .icmp)) =
      some ([⟨0, replyFrame 0x38 0x66be 0x0303e1f0 32
        0x0000000045000020001800004011a9050a000007c0a8070104d2162e000c0000⟩], [⟨.icmpSent, 3, 3, 1, false, .none⟩]) := by
  decide

/-- The frames of V5 (Echo Request), V6 (TCP) and V15 (protocol 47). -/
def echoFrame : Bytes :=
  beBytes 14 0x020000000000aabbccddee070800 ++ beBytes 20 0x45000021beef00004001a6e50a0000070a000101 ++
    beBytes 13 0x0800b42a0001000268656c6c6f
def tcpFrame : Bytes :=
  beBytes 14 0x020000000000aabbccddee070800 ++ beBytes 20 0x4500002800010000400666c80a0000070a000001 ++
    beBytes 20 0xc0de005000000001000000005002200000000000
def greFrame : Bytes :=
  beBytes 14 0x020000000000aabbccddee070800 ++ beBytes 20 0x4500001800100000402f66a00a0000070a000001 ++ [0, 0, 8, 0]

/-- V5: Echo Reply, the odd-length message. -/
theorem test_icmpEchoReply :
    ports (exec .icmpEchoReply (parsed echoFrame .icmp)) =
      some ([⟨0, replyFrame 0x21 0x66d5 0x0000bc2a 9 0x0001000268656c6c6f⟩], [⟨.icmpSent, 0, 0, 1, false, .none⟩]) := by
  decide

/-- V5 through the class FRAME.LOCAL.ECHOREQ. -/
theorem test_frameLocalEchoreq :
    ports (exec .frameLocalEchoreq (parsed echoFrame .s4)) =
      some ([⟨0, replyFrame 0x21 0x66d5 0x0000bc2a 9 0x0001000268656c6c6f⟩], [⟨.icmpSent, 0, 0, 1, false, .none⟩]) := by
  decide

/-- V6 through the class FRAME.LOCAL.TCP. -/
theorem test_frameLocalTcp :
    ports (exec .frameLocalTcp (parsed tcpFrame .s4)) =
      some ([⟨0, replyFrame 0x38 0x66be 0x03033bcd 32
        0x000000004500002800010000400666c80a0000070a000001c0de005000000001⟩], [⟨.icmpSent, 3, 3, 1, false, .none⟩]) := by
  decide

/-- V26 through the class FRAME.LOCAL.UDP: the type, code and quoted header. -/
theorem test_frameLocalUdp :
    (ports (exec .frameLocalUdp (parsed (udpFrame 0x45000020001800004011a9050a000007c0a80701) .s4))).map
      (fun x => (x.2, x.1.map fun f => (field f.bytes 34 2, field f.bytes 42 20))) =
      some ([⟨.icmpSent, 3, 3, 1, false, .none⟩], [(0x0303, 0x45000020001800004011a9050a000007c0a80701)]) := by decide

/-- V15 through the class FRAME.LOCAL.OTHER. -/
theorem test_frameLocalOther :
    ports (exec .frameLocalOther (parsed greFrame .s4)) = some ([], [Res.plain .dropLocalOther]) := by decide

/-- V3 through the class FRAME.IPV4: a bad checksum is dropped silently. -/
theorem test_frameIpv4_bad_checksum :
    ports (exec .frameIpv4 { cfgB with rxb := udpFrame 0x450000201234000005118d8b0a0000070a000105 }) =
      some ([], [Res.plain .dropBadCsum]) := by decide

/-- V17 through the class FRAME.IPV4: TTL 255 is unsigned. -/
theorem test_frameIpv4_ttl_255 :
    ports (exec .frameIpv4 { cfgB with rxb := udpFrame 0x4500002000120000ff11a6af0a0000070a000105 }) =
      some ([⟨1, beBytes 14 0xaabbccddee010200000000010800 ++ beBytes 20 0x4500002000120000fe11a7af0a0000070a000105 ++
        beBytes 12 0x04d2162e000c000061626364⟩], [⟨.forwarded, 0, 0, 1, false, .none⟩]) := by decide

/-! ## RX in SWITCH personality (Part 7) -/

/-- W1. -/
theorem test_switch_floods :
    (after (exec (.rx 0 fAB) (sw [] 100 []))).map (fun t => (t.out.tx, t.out.res, t.lt)) =
      some ([⟨1, fAB⟩, ⟨2, fAB⟩], [⟨.swFlooded, 0, 0, 2, false, .inserted⟩], [(staA, ⟨0, 100⟩)]) := by decide

/-- W4: A is now seen on interface 2, and its row keeps interface 0. -/
theorem test_switch_refresh_keeps_interface :
    (after (exec (.rx 2 fAB) (sw [(staA, ⟨0, 150⟩), (staB, ⟨1, 100⟩)] 150 []))).map (fun t => (t.out.tx, t.out.res, t.lt)) =
      some ([⟨1, fAB⟩], [⟨.swDirected, 0, 0, 1, false, .refreshed⟩], [(staA, ⟨0, 150⟩), (staB, ⟨1, 100⟩)]) := by decide

/-! ## Time (Part 8) -/

/-- E3: the snapshot latches a row 15900 ticks old. -/
theorem test_tick_latches :
    (after (exec .tick (sw [(staA, ⟨0, 100⟩)] 15999 []))).map (fun t => (t.now, t.victims)) = some (16000, [staA]) := by
  decide

/-- E4: an age of exactly EXPIRE_TICKS is not stale. -/
theorem test_tick_strict :
    (after (exec .tick (sw [(staA, ⟨0, 1000⟩)] 15999 []))).map (fun t => (t.now, t.victims)) = some (16000, []) := by
  decide

/-- E6. -/
theorem test_sweepDel :
    (after (exec (.sweepDel staA) (sw [(staA, ⟨0, 100⟩)] 16000 [staA]))).map (fun t => (t.lt, t.victims, t.out.res)) =
      some ([], [], []) := by decide

/-- E7, program P3 lines 13 and 14: a row refreshed after the snapshot is deleted all the same. -/
theorem test_sweepDel_refreshed :
    (after (exec (.sweepDel staA) (sw [(staA, ⟨0, 16000⟩), (staB, ⟨1, 15500⟩)] 16000 [staA]))).map
      (fun t => (t.lt, t.victims)) = some ([(staB, ⟨1, 15500⟩)], []) := by decide

/-! ## Placing an instruction -/

/-- A record, a TICK and an ICMPOUT word placed in the reset state are run by the next step (K1, E1, and the reply of a block
without routes, which is abandoned). -/
theorem test_withFetchWord :
    (after (step (State.reset.withFetchWord 128 0x01010200000000010a00010100000000))).map (fun t => (t.ifSlot 1).ip) =
      some 0x0a000101 ∧
    (after (step (State.reset.withFetchWord 128 0x20000000000000000000000000000000))).map State.now = some 1 ∧
    ports (step (State.reset.withFetchWord 16 0x0b00)) = some ([], [Res.abandoned .icmpAbandonedNoRoute .timeExceeded]) := by
  decide

/-- SWEEP.DEL placed in the reset state is the sweeper's next step. -/
theorem test_withFetchWord_sweepDel :
    (State.reset.withFetchWord 128 0x2100aa000000000a0000000000000000).victims = [staA] ∧
    (after (step (State.reset.withFetchWord 128 0x2100aa000000000a0000000000000000))).map (fun t => (t.victims, t.out.res)) =
      some ([], []) := by decide

/-! ## Witnesses: the hypotheses of the statements can be met -/

/-- A state of the invariant: two learned rows, one of them pending. -/
theorem inv_sw : (sw [(staA, ⟨0, 100⟩), (staB, ⟨1, 15500⟩)] 16000 [staA]).Inv where
  params := by decide
  ifCount := by decide
  rtRoom := by decide
  rtEntries := by decide
  arpRoom := by decide
  arpKeys := by decide
  onePhase := by decide
  rtLive := by decide
  ltKeys := by decide
  ltSeen := by decide
  ltIfs := by decide
  ltRoom := by decide
  ltUse := by decide
  victimKeys := by
    intro k hk
    exact ⟨⟨0, 100⟩, by simp_all [sw]⟩
  victimOnce := by decide
  ltFresh := by decide
  rxRoom := by decide
  between := by decide

/-- A state of the invariant with a row at the greatest age it may have while nothing is pending. -/
theorem inv_sw_oldest : (sw [(staA, ⟨0, 0⟩)] 15999 []).Inv where
  params := by decide
  ifCount := by decide
  rtRoom := by decide
  rtEntries := by decide
  arpRoom := by decide
  arpKeys := by decide
  onePhase := by decide
  rtLive := by decide
  ltKeys := by decide
  ltSeen := by decide
  ltIfs := by decide
  ltRoom := by decide
  ltUse := by decide
  victimKeys := by simp [sw]
  victimOnce := by decide
  ltFresh := by decide
  rxRoom := by decide
  between := by decide

/-- What waits at the OP port is no part of the invariant. -/
theorem inv_offer {s : State} (h : s.Inv) (b : Bytes) : (offer s b).Inv where
  params := h.params
  ifCount := h.ifCount
  rtRoom := h.rtRoom
  rtEntries := h.rtEntries
  arpRoom := h.arpRoom
  arpKeys := h.arpKeys
  onePhase := h.onePhase
  rtLive := h.rtLive
  ltKeys := h.ltKeys
  ltSeen := h.ltSeen
  ltIfs := h.ltIfs
  ltRoom := h.ltRoom
  ltUse := h.ltUse
  victimKeys := h.victimKeys
  victimOnce := h.victimOnce
  ltFresh := h.ltFresh
  rxRoom := h.rxRoom
  between := h.between

/-- The TICK record, and one with its last byte 01 (E9). -/
def tickRecord : Bytes := beBytes 16 0x20000000000000000000000000000000
def badTick : Bytes := beBytes 16 0x20000000000000000000000000000001

/-- The records of K4, K17 and of SWEEP.DEL A. -/
def badIface : Bytes := beBytes 16 0x01010200000000010a00010100000001
def undefinedRecord : Bytes := beBytes 16 0x06000000000000000000000000000000
def sweepRecord : Bytes := beBytes 16 0x2100aa000000000a0000000000000000

/-- W1 as a record. -/
def rxRecord : Bytes := [0x10, 0, 0, 18] ++ fAB

/-- The switch between operations, one TICK due. -/
def swDue : State := { sw [(staA, ⟨0, 100⟩)] 500 [] with env := { Env.idle with ticksDue := 1 } }

theorem witness_DecodeOfEncode :
    ∀ i ∈ [Instr.cfgIface 255 (-1) (-1), .cfgRoute (-1) (-1) (-1) 255, .cfgMode .router, .rx 255 [], .sweepDel (-1)],
      i.isRecord = true ∧ i.wellFormed = true := by decide

theorem witness_DecodedRecord : ∃ b i rest, decodeRecord b = .record i rest := ⟨rxRecord, .rx 0 fAB, [], by decide⟩

theorem witness_RecordLength :
    ([] : Bytes).length = (0 : Byte).toNat * 256 + (0 : Byte).toNat ∧
    (zeros 256).length = (1 : Byte).toNat * 256 + (0 : Byte).toNat ∧
    ([] : Bytes).length < (0 : Byte).toNat * 256 + (1 : Byte).toNat ∧
    ((0x11 : Byte) ≠ 0x10 ∧ (zeros 15).length = 15) ∧ ((0x11 : Byte) ≠ 0x10 ∧ (zeros 14).length < 15) := by
  simp only [zeros, List.length_replicate]
  decide

theorem witness_IllegalRecords :
    (0x06 : Byte) ∉ [(0x01 : Byte), 0x02, 0x03, 0x04, 0x05, 0x20, 0x21] ∧
    ((0x04 : Byte) ∈ [(0x01 : Byte), 0x02, 0x03, 0x04, 0x05, 0x20, 0x21] ∧ ¬ field (0x04 :: 0x02 :: zeros 14) 1 1 < 2) ∧
    (field (0x04 :: 0x01 :: zeros 14) 1 1 < 2 ∧ field (0x04 :: 0x01 :: zeros 14) 2 14 = 0) := by decide

theorem witness_StepRunsTheRecord :
    (offer cfgB tickRecord).env.resetIn = false ∧ (offer cfgB tickRecord).stage = .done ∧
    decodeRecord (offer cfgB tickRecord).env.opPort = .record .tick [] ∧ Instr.tick.internalOnly = false ∧
    (offer cfgB tickRecord).grant = some (.framePort, (offer cfgB tickRecord).env) ∧
    (offer cfgB tickRecord).victims = [] ∧ (offer cfgB tickRecord).env.ticksDue = 0 := by decide

theorem witness_StepRunsAgents :
    (swDue.env.resetIn = false ∧ swDue.stage = .done ∧ swDue.grant = some (.timebase, swDue.env)) ∧
    (sw [(staA, ⟨0, 100⟩)] 16000 [staA]).grant = some (.sweeper, (sw [(staA, ⟨0, 100⟩)] 16000 [staA]).env) := by decide

theorem witness_Grants :
    swDue.grant = some (.timebase, swDue.env) ∧
    (cfgB.env.resetIn = false ∧ cfgB.stage = .done ∧ cfgB.enabledAgents = []) ∧
    (.framePort ∈ (offer (sw [(staA, ⟨0, 100⟩)] 16000 [staA]) rxRecord).enabledAgents ∧
      .sweeper ∈ (offer (sw [(staA, ⟨0, 100⟩)] 16000 [staA]) rxRecord).enabledAgents ∧
      .framePort ∈ (offer swDue rxRecord).enabledAgents ∧ .timebase ∈ (offer swDue rxRecord).enabledAgents) ∧
    ((offer (sw [(staA, ⟨0, 100⟩)] 16000 [staA]) tickRecord).victims ≠ [] ∧
      decodeRecord (offer (sw [(staA, ⟨0, 100⟩)] 16000 [staA]) tickRecord).env.opPort = .record .tick []) := by decide

theorem witness_StepInTheMiddle :
    (parsed tcpFrame .s4).env.resetIn = false ∧ (parsed tcpFrame .s4).stage ≠ .done ∧
    (parsed tcpFrame .s1).stageInstr = some .frameIpv4 ∧ (parsed tcpFrame .icmp).stageInstr = some .icmpTimeExceeded ∧
    (parsed tcpFrame .s4).stageInstr = some .frameLocalTcp ∧ (parsed echoFrame .s4).stageInstr = some .frameLocalEchoreq ∧
    (parsed greFrame .s4).stageInstr = some .frameLocalOther := by decide

/-- Each kind of illegal record, in each phase, with the frame port granted because no other agent can step. -/
theorem witness_IllegalByPhase :
    (∀ s ∈ [State.reset, cfgB, failed], ∀ b ∈ [undefinedRecord, badTick, badIface, sweepRecord],
      (offer s b).env.resetIn = false ∧ (offer s b).stage = .done ∧ (offer s b).victims = [] ∧
      (offer s b).env.ticksDue = 0 ∧ (offer s b).grant = some (.framePort, (offer s b).env)) ∧
    decodeRecord undefinedRecord = .illegal (.undefinedOpcode 0x06) [] ∧
    decodeRecord badTick = .illegal (.reservedBits 0x20) [] ∧ decodeRecord badIface = .illegal (.reservedBits 0x01) [] ∧
    decodeRecord sweepRecord = .record (.sweepDel staA) [] ∧
    State.reset.phase = .config ∧ cfgB.phase = .live ∧ failed.phase = .failed := by decide

theorem witness_OneResult :
    (∀ rest, decodeRecord (offer cfgB tickRecord).env.opPort = .record .tick rest → (offer cfgB tickRecord).victims = []) ∧
    decodeRecord (offer cfgB tickRecord).env.opPort ≠ .incomplete ∧
    ((offer cfgB tickRecord).env.resetIn = false ∧ (offer cfgB tickRecord).stage = .done) ∧
    (offer cfgB tickRecord).grant = some (.framePort, (offer cfgB tickRecord).env) ∧
    ((offer cfgB tickRecord).victims = [] ∧ (offer cfgB tickRecord).env.ticksDue = 0) :=
  ⟨fun _ _ => rfl, by decide, by decide, by decide, by decide⟩

/-- Program P3 lines 13 and 14 through the step of the block: with A pending, the grant decides whether the RX or the
deletion comes first. -/
theorem test_step_rx_during_sweep :
    let s := offer (sw [(staA, ⟨0, 500⟩), (staB, ⟨1, 15500⟩)] 16000 [staA]) rxRecord
    let under (a : Agent) := after (step { s with env := { s.env with grants := [a] } })
    (under .framePort).map (fun t => (t.out.tx, t.lt, t.victims)) =
      some ([⟨1, fAB⟩], [(staA, ⟨0, 16000⟩), (staB, ⟨1, 15500⟩)], [staA]) ∧
    (under .sweeper).map (fun t => (t.out.tx, t.lt, t.victims)) = some ([], [(staB, ⟨1, 15500⟩)], []) := by decide

/-- K18 and E9 through the step of the block: an illegal record in phase LIVE is refused and taken from the OP port. -/
theorem test_step_illegal_live :
    [undefinedRecord, badTick].map (fun b => (after (step (offer cfgB b))).map fun t => (t.env.opPort, t.now, t.out.res)) =
      [some ([], 0, [Res.plain .illegalOp]), some ([], 0, [Res.plain .illegalOp])] := by decide

theorem witness_Reset :
    (∃ t, step (offer cfgB tickRecord) = .next t) ∧ (offer cfgB tickRecord).env.resetIn = false ∧
    (offer cfgB tickRecord).phase ≠ .config ∧ { cfgB with env := { Env.idle with resetIn := true } }.env.resetIn = true :=
  ⟨⟨_, rfl⟩, by decide, by decide, by decide⟩

theorem witness_Invariant :
    ∃ s t, s.Inv ∧ s.stage = .done ∧ step s = .next t ∧ s.env.resetIn = false ∧ s.phase ≠ .config ∧
      ltFind s.lt staA = some ⟨0, 100⟩ ∧ staA ∈ s.victims ∧ ltFind s.lt staB = some ⟨1, 15500⟩ ∧ staB ∉ s.victims :=
  ⟨_, _, inv_sw, rfl, rfl, rfl, by decide, by decide, by decide, by decide, by decide⟩

theorem witness_BoundedlyStale :
    (sw [(staA, ⟨0, 0⟩)] 15999 []).Inv ∧ (sw [(staA, ⟨0, 0⟩)] 15999 []).victims = [] ∧
      (staA, (⟨0, 0⟩ : LtRow)) ∈ (sw [(staA, ⟨0, 0⟩)] 15999 []).lt := ⟨inv_sw_oldest, rfl, by decide⟩

theorem witness_Transmitted :
    ∃ t, (offer (sw [(staA, ⟨0, 0⟩)] 15999 []) rxRecord).Inv ∧
      (offer (sw [(staA, ⟨0, 0⟩)] 15999 []) rxRecord).stage = .done ∧
      step (offer (sw [(staA, ⟨0, 0⟩)] 15999 []) rxRecord) = .next t ∧
      (⟨1, fAB⟩ : Tx) ∈ (offer (sw [(staA, ⟨0, 0⟩)] 15999 []) rxRecord).sent t :=
  ⟨_, inv_offer inv_sw_oldest rxRecord, rfl, rfl, by decide⟩

/-- Every phase, the interface indexes at the end of the range, a slot taken and a slot free. -/
theorem witness_CfgIface :
    cfgB.phase = .live ∧ failed.phase = .failed ∧
    (State.reset.phase = .config ∧ State.reset.par.nIf ≤ (8 : IfIdx).toNat) ∧
    ({ cfgB with live := false }.phase = .config ∧ ({ cfgB with live := false }.ifSlot 0).valid = true) ∧
    (State.reset.phase = .config ∧ (7 : IfIdx).toNat < State.reset.par.nIf ∧ (State.reset.ifSlot 7).valid = false ∧
      State.reset.ifs.length = State.reset.par.nIf) := by decide

/-- CFG-B before its commit, with tables that just fit. -/
def tight : State := { cfgB with live := false, par := { Params.default with nRt := 4, nArp := 3 } }

theorem witness_CfgRoute :
    cfgB.phase = .live ∧ failed.phase = .failed ∧ (tight.phase = .config ∧ tight.par.nRt ≤ tight.rtCnt) ∧
    (State.reset.phase = .config ∧ contiguous 0xff00ff00 = false) ∧ State.reset.par.nIf ≤ (8 : IfIdx).toNat ∧
    (State.reset.rtCnt < State.reset.par.nRt ∧ contiguous 0 = true ∧ contiguous (-1) = true ∧
      (7 : IfIdx).toNat < State.reset.par.nIf) := by decide

theorem witness_CfgArp :
    cfgB.phase = .live ∧ failed.phase = .failed ∧ (tight.phase = .config ∧ tight.par.nArp ≤ tight.arpCnt) ∧
    ({ cfgB with live := false }.phase = .config ∧ ∃ e ∈ cfgB.arp, e.ip = 0x0a000105) ∧
    ({ cfgB with live := false }.arpCnt < cfgB.par.nArp ∧ ∀ e ∈ cfgB.arp, e.ip ≠ 0x0a000106) := by decide

theorem witness_CfgMode : cfgB.phase = .live ∧ failed.phase = .failed ∧ State.reset.phase = .config := by decide

theorem witness_CfgCommit :
    cfgB.phase = .live ∧ failed.phase = .failed ∧
    (∃ e ∈ { State.reset with rt := [⟨0x0a000100, 0xffffff00, 0, 1⟩] }.rt, (State.reset.ifSlot e.ifx).valid = false) ∧
    ({ cfgB with live := false }.phase = .config ∧ ∀ e ∈ cfgB.rt, (cfgB.ifSlot e.ifx).valid = true) := by decide

theorem witness_Masks :
    (prefixMask 0 < prefixMask 32 ∧ prefixMask 31 < prefixMask 32) ∧
    (State.reset.phase = .config ∧ contiguous 0xff00ff00 = false ∧ contiguous 0x7fffffff = false) := by decide

theorem witness_Route :
    rtLookup cfgB.rt 0xac100509 = some ⟨0xac100500, 0xffffff00, 0x0a000109, 1⟩ ∧
    (⟨0xac100000, 0xfff00000, 0xc0a807fe, 2⟩ : RouteEntry) ∈ cfgB.rt ∧
    ((0xac100000 : Ip) &&& 0xfff00000) = (0xac100509 &&& 0xfff00000) ∧
    (0xffffff00 : Ip) = prefixMask 24 ∧ (0xfff00000 : Ip) = prefixMask 12 ∧ rtLookup cfgB.rt 0 = none := by decide

theorem witness_Arp :
    (cfgB.arp.Pairwise fun e f => e.ip ≠ f.ip) ∧ arpLookup cfgB.arp 0x0a000105 = some 0xaabbccddee01 ∧
      arpLookup cfgB.arp 0x0a000109 = none := by decide

theorem witness_Resolve :
    rtLookup cfgB.rt 0x08080808 = none ∧
    rtLookup cfgB.rt 0x0a000105 = some ⟨0x0a000100, 0xffffff00, 0, 1⟩ ∧ arpLookup cfgB.arp 0x0a000105 ≠ none ∧
    rtLookup cfgB.rt 0xac100509 = some ⟨0xac100500, 0xffffff00, 0x0a000109, 1⟩ ∧ arpLookup cfgB.arp 0x0a000109 = none := by
  decide

theorem witness_Local : cfgB.ifs.length = cfgB.par.nIf ∧ cfgB.par.nIf ≤ 255 := by decide

/-- The header of V1 and of V25 (a). -/
def headerV1 : Bytes := beBytes 20 0x450000201234000005118e8e0a0000070a000105
def headerV25 : Bytes := beBytes 20 0x45000020a0c20000051100000a0000070a000105

theorem witness_Checksums :
    (([] : Bytes).length % 2 = 0 ∧ (zeros 10).length % 2 = 0) ∧ (20 ≤ headerV1.length ∧ field headerV1 0 2 ≠ 0) ∧
    (headerV1.length % 2 = 0 ∧ field headerV1 10 2 = (0x8e8e : Half).toNat ∧ ipv4CsumOk headerV1 0x8e8e = true ∧
      1 ≤ field headerV1 8 1) ∧
    (field headerV25 10 2 = (0 : Half).toNat ∧ ipv4CsumOk headerV25 0 = true) := by decide

theorem witness_RouterRx :
    cfgB.mode = .router ∧ (∃ t, exec (.rx 0 tcpFrame) cfgB = .next t) ∧
    cfgB.sameConfig { cfgB with now := 5 } ∧ { cfgB with now := 5 }.txOk = cfgB.txOk :=
  ⟨rfl, ⟨_, rfl⟩, ⟨rfl, rfl, rfl, rfl, rfl⟩, rfl⟩

theorem witness_Admission :
    (State.reset.phase ≠ .live ∧ failed.phase ≠ .live) ∧
    (cfgB.phase = .live ∧ cfgB.ifValid 5 = false ∧ cfgB.ifValid 8 = false ∧ cfgB.ifValid 255 = false) ∧
    (cfgB.ifValid 0 = true ∧ (zeros 13).length < 14 ∧ cfgB.par.maxFrame < (zeros 1519).length) := by
  simp only [zeros, List.length_replicate]
  decide

/-- The frames of V20 (a), (b), (c), (d) and (f). -/
def badVersion : Bytes := udpFrame 0x5500002000150000051190ad0a0000070a000105
def shortHeader : Bytes := (udpFrame 0x45000020001500000511a0ad0a0000070a000105).take 33
def longTotal : Bytes := udpFrame 0x45000040001500000511a08d0a0000070a000105
def smallIhl : Bytes := udpFrame 0x44000020001500000511a0ad0a0000070a000105
def smallTotal : Bytes := udpFrame 0x45000010001500000511a0ad0a0000070a000105

/-- V4 and V20, with the shortest admitted frame. -/
theorem witness_NotIpv4OrMalformed :
    cfgB.mode = .router ∧ (cfgB.Admits 0 (zeros 14) ∧ field (zeros 14) 12 2 ≠ 0x0800) ∧
    ∀ F ∈ [badVersion, shortHeader, longTotal, smallIhl, smallTotal],
      cfgB.Admits 0 F ∧ field F 12 2 = 0x0800 ∧ ¬ WellShaped F := by
  unfold State.Admits WellShaped
  decide

/-- V3 and V24. -/
theorem witness_BadChecksum :
    ∀ F ∈ [udpFrame 0x450000201234000005118d8b0a0000070a000105, udpFrame 0x4500002000170000011111110a0000070a000105],
      cfgB.Admits 0 F ∧ field F 12 2 = 0x0800 ∧ WellShaped F ∧
        csum16 (memWrite (ipHeader F) 10 2 0) ≠ .ofNat 16 (field F 24 2) := by
  unfold State.Admits WellShaped
  decide

/-- V2 (TTL 1) and V2b (TTL 0). -/
theorem witness_Expired :
    ∀ F ∈ [udpFrame 0x45000020123400000111928e0a0000070a000105, udpFrame 0x45000020123400000011938e0a0000070a000105],
      cfgB.Admits 0 F ∧ ValidIpv4 F ∧ (rxTtl F).toNat ≤ 1 ∧ cfgB.resolve (srcAddr F) = .ok 0 0xaabbccddee07 := by
  unfold State.Admits ValidIpv4 WellShaped
  decide

/-- The frames of V26, V19 (`pl = 4`) and V19b (`pl = 3`). -/
def udpLocal : Bytes := udpFrame 0x45000020001800004011a9050a000007c0a80701
def echoEmpty : Bytes :=
  beBytes 14 0x020000000000aabbccddee070800 ++ beBytes 20 0x4500001800130000400166cb0a0000070a000001 ++
    beBytes 4 0x0800f7ff
def echoCut : Bytes :=
  beBytes 14 0x020000000000aabbccddee070800 ++ beBytes 20 0x4500001700140000400166cb0a0000070a000001 ++ [8, 0, 0]

/-- V6, V26, V5, V19, V19b and V15. -/
theorem witness_Local_classes :
    (∀ F ∈ [tcpFrame, udpLocal, echoFrame, echoEmpty, echoCut, greFrame],
      cfgB.Admits 0 F ∧ ValidIpv4 F ∧ 2 ≤ (rxTtl F).toNat ∧ cfgB.isLocal (dstAddr F) = true ∧
        cfgB.resolve (srcAddr F) = .ok 0 0xaabbccddee07) ∧
    field tcpFrame 23 1 = 6 ∧ field udpLocal 23 1 = 17 ∧
    (∀ F ∈ [echoFrame, echoEmpty], field F 23 1 = 1 ∧ 4 ≤ payloadLen F ∧ field F (14 + headerLen F) 1 = 8) ∧
    (payloadLen echoCut = 3 ∧ field greFrame 23 1 = 47) := by
  unfold State.Admits ValidIpv4 WellShaped
  decide

/-- The frames of V7 and V8. -/
def noRouteFrame : Bytes := udpFrame 0x4500002000020000401160b50a00000708080808
def noArpFrame : Bytes := udpFrame 0x4500002000030000401165770a0000070a00014d

theorem witness_Unreachable :
    (∀ F ∈ [noRouteFrame, noArpFrame], cfgB.Admits 0 F ∧ ValidIpv4 F ∧ 2 ≤ (rxTtl F).toNat ∧
      cfgB.isLocal (dstAddr F) = false ∧ cfgB.resolve (srcAddr F) = .ok 0 0xaabbccddee07) ∧
    cfgB.resolve (dstAddr noRouteFrame) = .noRoute ∧
    cfgB.resolve (dstAddr noArpFrame) = .noArp ⟨0x0a000100, 0xffffff00, 0, 1⟩ ∧ (1 : IfIdx) ≠ 0 := by
  unfold State.Admits ValidIpv4 WellShaped
  decide

/-- The frames of V12 and V13. -/
def strayFrame : Bytes := udpFrame 0x4500002000070000401158a50909090908080808
def strangerFrame : Bytes := udpFrame 0x4500002000080000401160ae0a00000808080808

theorem witness_Abandoned :
    (routerOutcome cfgB 0 strayFrame = .icmp .netUnreach ∧ cfgB.resolve (srcAddr strayFrame) = .noRoute) ∧
    (routerOutcome cfgB 0 strangerFrame = .icmp .netUnreach ∧
      cfgB.resolve (srcAddr strangerFrame) = .noArp ⟨0x0a000000, 0xffffff00, 0, 0⟩) := by decide

/-- V9. -/
theorem witness_SameInterface :
    let F := udpFrame 0x4500002000040000401166600a0000070a000063
    cfgB.Admits 0 F ∧ ValidIpv4 F ∧ 2 ≤ (rxTtl F).toNat ∧ cfgB.isLocal (dstAddr F) = false ∧
      rtLookup cfgB.rt (dstAddr F) = some ⟨0x0a000000, 0xffffff00, 0, 0⟩ := by
  unfold State.Admits ValidIpv4 WellShaped
  decide

/-- V1, V2c (TTL 2) and V17 (TTL 255). -/
theorem witness_Forwarded :
    ∀ F ∈ [udpFrame 0x450000201234000005118e8e0a0000070a000105, udpFrame 0x45000020123400000211918e0a0000070a000105,
        udpFrame 0x4500002000120000ff11a6af0a0000070a000105],
      cfgB.Admits 0 F ∧ ValidIpv4 F ∧ 2 ≤ (rxTtl F).toNat ∧ cfgB.isLocal (dstAddr F) = false ∧
        cfgB.resolve (dstAddr F) = .ok 1 0xaabbccddee01 ∧ (1 : IfIdx) ≠ 0 := by
  unfold State.Admits ValidIpv4 WellShaped
  decide

theorem witness_FrameIpv4 :
    (parsed tcpFrame .s1).Admits (parsed tcpFrame .s1).rxIf (parsed tcpFrame .s1).rxb ∧ field tcpFrame 12 2 = 0x0800 := by
  unfold State.Admits
  decide

/-- The source resolves (V5; V19 with `pl = 4`), has no route (V12), has no ARP entry (V13). -/
theorem witness_Emissions :
    (∀ F ∈ [tcpFrame, echoFrame, echoEmpty], (parsed F .icmp).Parsed ∧
      (parsed F .icmp).resolve (srcAddr F) = .ok 0 0xaabbccddee07) ∧ payloadLen echoEmpty = 4 ∧
    ((parsed strayFrame .icmp).Parsed ∧ (parsed strayFrame .icmp).resolve (srcAddr strayFrame) = .noRoute) ∧
    ((parsed strangerFrame .icmp).Parsed ∧
      (parsed strangerFrame .icmp).resolve (srcAddr strangerFrame) = .noArp ⟨0x0a000000, 0xffffff00, 0, 0⟩) := by
  unfold State.Parsed WellShaped
  decide

/-- A switch whose learning table is full (W9). -/
def swFull : State := { sw [(staA, ⟨0, 100⟩)] 100 [] with par := { Params.default with nLt := some 1 } }

theorem witness_Upsert :
    (Lt.wf swFull.lt ∧ ltFind swFull.lt staA = some ⟨0, 100⟩) ∧
    (ltFind (sw [] 100 []).lt staA = none ∧ ∀ n ∈ (sw [] 100 []).par.nLt, (sw [] 100 []).lt.length < n) ∧
    (ltFind swFull.lt staB = none ∧ ¬ ∀ n ∈ swFull.par.nLt, swFull.lt.length < n) := by decide

/-- W2, and W6 where the learned interface is the ingress one. -/
theorem witness_Directed :
    (sw [(staA, ⟨0, 100⟩)] 100 []).mode = .switch ∧ (sw [(staA, ⟨0, 100⟩)] 100 []).Admits 1 fBA ∧
    ltFind ((sw [(staA, ⟨0, 100⟩)] 100 []).upsertTable staB 1) staA = some ⟨0, 100⟩ ∧
    (BitVec.ofNat 48 (field fBA 6 6) = staB ∧ BitVec.ofNat 48 (field fBA 0 6) = staA) := by
  unfold State.Admits
  decide

/-- W1, and the switch with one interface (W8). -/
theorem witness_Flooded :
    (sw [] 100 []).Admits 0 fAB ∧ (sw [] 100 []).par.nIf ≤ 255 ∧
    ltFind ((sw [] 100 []).upsertTable (.ofNat 48 (field fAB 6 6)) 0) (.ofNat 48 (field fAB 0 6)) = none ∧
    { sw [] 100 [] with ifs := slots [⟨true, 0, 0⟩] }.Admits 0 fAB := by
  unfold State.Admits
  decide

theorem witness_SwitchRx :
    (sw [] 100 []).mode = .switch ∧ Lt.wf (sw [] 100 []).lt ∧ (sw [] 100 []).par.nIf ≤ 255 ∧
    ∃ t, exec (.rx 0 fAB) (sw [] 100 []) = .next t := ⟨rfl, by decide, by decide, _, rfl⟩

/-- E1, E3 and E8. -/
theorem witness_Tick :
    ((sw [] 998 []).victims = [] ∧ ((sw [] 998 []).now + 1) % (sw [] 998 []).par.ticksPerSec ≠ 0) ∧
    ((sw [] 15999 []).now + 1) % (sw [] 15999 []).par.ticksPerSec = 0 ∧ (sw [(staA, ⟨0, 100⟩)] 16000 [staA]).victims ≠ [] := by
  decide

theorem witness_SweepDel : staA ∈ (sw [(staA, ⟨0, 100⟩)] 16000 [staA]).victims := by decide

end Sys2Proof.Tests
end

section
/-! The scope statements (00_scope.md): the closed set of ICMP emissions (R4, R109), and that every step keeps the invariant.

A step that answers a next state is one of three kinds, and the invariant is kept for a reason of its own in each: an
operation of the configuration port writes only where LT is empty; an RX operation leaves the state R20 names alone
but for one LT_UPSERT of the switch; TICK and SWEEP.DEL move NOW, LT and VICTIMS together. -/

namespace Sys2Proof

/-! ## The ICMP emissions -/

theorem decodeIcmpKind_eq_some (t c : Byte) (k : IcmpKind) :
    decodeIcmpKind t c = some k ↔ t = k.icmpType ∧ c = k.icmpCode := by
  constructor
  · intro h
    unfold decodeIcmpKind at h
    split_ifs at h with h1 h2 h3 h4 h5 <;> cases h <;> assumption
  · rintro ⟨rfl, rfl⟩
    cases k <;> rfl

theorem decodeIcmpOut_eq_some (t c : Byte) (i : Instr) :
    decodeIcmpOut t c = some i ↔ ∃ k : IcmpKind, t = k.icmpType ∧ c = k.icmpCode ∧ k.instr = i := by
  simp [decodeIcmpOut, decodeIcmpKind_eq_some, and_assoc]

/-- Settles O5: a pair decodes exactly when it is the (type, code) of a message of R109. -/
theorem icmpTypeCodesAreTheClosedSet : Obligations.IcmpTypeCodesAreTheClosedSet := by
  intro t c i
  rw [decodeIcmpOut_eq_some]
  simp only [List.mem_cons, List.not_mem_nil, or_false, Prod.mk.injEq]
  constructor
  · rintro ⟨k, rfl, rfl, rfl⟩
    cases k <;> decide
  · rintro (⟨rfl, rfl, rfl⟩ | ⟨rfl, rfl, rfl⟩ | ⟨rfl, rfl, rfl⟩ | ⟨rfl, rfl, rfl⟩ | ⟨rfl, rfl, rfl⟩)
    · exact ⟨.timeExceeded, rfl, rfl, rfl⟩
    · exact ⟨.netUnreach, rfl, rfl, rfl⟩
    · exact ⟨.hostUnreach, rfl, rfl, rfl⟩
    · exact ⟨.portUnreach, rfl, rfl, rfl⟩
    · exact ⟨.echoReply, rfl, rfl, rfl⟩

namespace Machine

/-! ## Outcomes that keep the invariant -/

/-- Where the outcome is a next state, that state meets the invariant. -/
def KeepsInv (o : Outc) : Prop := ∀ t, o = .next t → t.Inv

theorem keepsInv_next {t : State} (h : t.Inv) : KeepsInv (.next t) := by
  rintro _ ⟨⟩
  exact h

/-- What waits at the ports and what they have put out are no part of the invariant. -/
theorem State.Inv.withPorts {s : State} (h : s.Inv) (e : Env) (u : Out) : { s with env := e, out := u }.Inv := { h with }

theorem keepsInv_result {s : State} (h : s.Inv) (r : Res) : KeepsInv (.next (s.result r)) :=
  keepsInv_next (h.withPorts s.env { s.out with res := s.out.res ++ [r] })

/-! ## The configuration port

Outside phase LIVE the learning table is empty, so its clauses say nothing of a configuration that grows. -/

theorem State.Inv.lt_nil {s : State} (h : s.Inv) (hl : s.live = false) : s.lt = [] := by
  by_contra hlt
  simpa [hl] using h.ltUse hlt

theorem malformedCfg_keepsInv {s : State} (h : s.Inv) (hp : s.phase = .config) : KeepsInv (malformedCfg s) := by
  obtain ⟨-, hl⟩ := phase_config.mp hp
  refine keepsInv_result ?_ _
  exact { h with onePhase := by simp [hl] }

theorem rejectRecord_keepsInv {s : State} (h : s.Inv) (why : Illegal) : KeepsInv (rejectRecord why s) := by
  obtain ⟨hp, e⟩ | ⟨-, c, e⟩ := rejectRecord_cases why s
  · rw [e]; exact malformedCfg_keepsInv h hp
  · rw [e]; exact keepsInv_result h _

theorem illegalRecord_keepsInv {s : State} (h : s.Inv) : KeepsInv (illegalRecord s) :=
  rejectRecord_keepsInv h (.undefinedOpcode 0)

theorem cfgCheck_keepsInv {s : State} (h : s.Inv) {k : Outc} (hk : s.phase = .config → KeepsInv k) :
    KeepsInv (cfgCheck s k) := by
  obtain ⟨hp, e⟩ | ⟨-, c, e⟩ := cfgCheck_cases s k
  · rw [e]; exact hk hp
  · rw [e]; exact keepsInv_result h _

theorem execCfgIface_keepsInv {s : State} (h : s.Inv) (ifx : IfIdx) (mac : Mac) (ip : Ip) :
    KeepsInv (execCfgIface ifx mac ip s) := by
  refine cfgCheck_keepsInv h fun hp => ?_
  obtain ⟨-, hl⟩ := phase_config.mp hp
  have hlt := h.lt_nil hl
  split
  · exact malformedCfg_keepsInv h hp
  · refine keepsInv_result ?_ _
    exact
      { h with
        ifCount := by simp [h.ifCount]
        rtLive := by simp [hl]
        ltIfs := by simp [hlt] }

theorem execCfgRoute_keepsInv {s : State} (h : s.Inv) (dest mask gw : Ip) (ifx : IfIdx) :
    KeepsInv (execCfgRoute dest mask gw ifx s) := by
  refine cfgCheck_keepsInv h fun hp => ?_
  obtain ⟨-, hl⟩ := phase_config.mp hp
  split_ifs with hroom hmask hifx
  · exact malformedCfg_keepsInv h hp
  · exact malformedCfg_keepsInv h hp
  · exact malformedCfg_keepsInv h hp
  · have hentry : ∀ e ∈ s.rt ++ [RouteEntry.mk dest mask gw ifx],
        contiguous e.mask = true ∧ e.ifx.toNat < s.par.nIf := by
      intro e he
      rcases List.mem_append.mp he with he | he
      · exact h.rtEntries e he
      · rw [List.mem_singleton.mp he]
        exact ⟨by simpa using hmask, by simpa using hifx⟩
    refine keepsInv_result ?_ _
    exact
      { h with
        rtRoom := by simpa [State.rtCnt] using hroom
        rtEntries := hentry
        rtLive := by simp [hl] }

theorem execCfgArp_keepsInv {s : State} (h : s.Inv) (ip : Ip) (mac : Mac) : KeepsInv (execCfgArp ip mac s) := by
  refine cfgCheck_keepsInv h fun hp => ?_
  split_ifs with hroom hdup
  · exact malformedCfg_keepsInv h hp
  · exact malformedCfg_keepsInv h hp
  · have hkeys : (s.arp ++ [ArpEntry.mk ip mac]).Pairwise fun e f => e.ip ≠ f.ip :=
      List.pairwise_append.mpr ⟨h.arpKeys, by simp, by simpa using hdup⟩
    refine keepsInv_result ?_ _
    exact
      { h with
        arpRoom := by simpa [State.arpCnt] using hroom
        arpKeys := hkeys }

theorem execCfgMode_keepsInv {s : State} (h : s.Inv) (mode : Mode) : KeepsInv (execCfgMode mode s) := by
  refine cfgCheck_keepsInv h fun hp => ?_
  have hlt := h.lt_nil (phase_config.mp hp).2
  refine keepsInv_result ?_ _
  exact { h with ltUse := by simp [hlt] }

theorem execCfgCommit_keepsInv {s : State} (h : s.Inv) : KeepsInv (execCfgCommit s) := by
  refine cfgCheck_keepsInv h fun hp => ?_
  obtain ⟨herr, hl⟩ := phase_config.mp hp
  have hlt := h.lt_nil hl
  split_ifs with hbad
  · exact malformedCfg_keepsInv h hp
  · have hvalid : ∀ e ∈ s.rt, s.ifValid e.ifx = true := fun e he => by
      have hslot : (s.ifSlot e.ifx).valid = true := by
        by_contra hv
        exact hbad (List.any_eq_true.mpr ⟨e, he, by simpa using hv⟩)
      simp [State.ifValid, (h.rtEntries e he).2, hslot]
    refine keepsInv_result ?_ _
    exact
      { h with
        onePhase := by simp [herr]
        rtLive := fun _ => hvalid
        ltUse := by simp [hlt] }

/-! ## The end of an RX operation -/

/-- The block after an RX operation that wrote nothing of the state R20 names: the transient state is released and the ports
have moved on. -/
def State.afterRx (s : State) (e : Env) (u : Out) : State :=
  { s with stage := .done, rxb := [], rxIf := 0, txb := [], work := Work.blank, env := e, out := u }

/-- Where the outcome is a next state, it is `s` at the end of an RX operation. What a stage wrote into the transient state
of `s` does not show, so the claim about `s` is the claim about `s` at any stage, by definition. -/
def EndsRx (s : State) (o : Outc) : Prop := ∀ t, o = .next t → ∃ e u, t = s.afterRx e u

theorem State.Inv.afterRx {s : State} (h : s.Inv) (e : Env) (u : Out) : (s.afterRx e u).Inv :=
  { h with
    rxRoom := Nat.zero_le _
    between := fun _ => ⟨rfl, rfl, rfl, rfl⟩ }

theorem EndsRx.keepsInv {s : State} {o : Outc} (ho : EndsRx s o) (h : s.Inv) : KeepsInv o := by
  intro t ht
  obtain ⟨e, u, rfl⟩ := ho t ht
  exact h.afterRx e u

theorem endsRx_endRx (s : State) (r : Res) : EndsRx s (.next (s.endRx r)) := by
  rintro _ ⟨⟩
  exact ⟨_, _, rfl⟩

theorem endsRx_emitTx (s : State) (i : IfIdx) (b : Bytes) (r : Res) : EndsRx s (.next ((s.emitTx i b).endRx r)) := by
  rintro _ ⟨⟩
  exact ⟨_, _, rfl⟩

theorem emitAll_eq (s : State) (b : Bytes) (l : List IfIdx) :
    ∃ e u, s.emitAll b l = { s with env := e, out := u } := by
  induction l generalizing s with
  | nil => exact ⟨_, _, rfl⟩
  | cons i rest ih =>
    obtain ⟨e, u, h⟩ := ih (s.emitTx i b)
    exact ⟨e, u, h⟩

theorem endsRx_emitAll (s : State) (b : Bytes) (l : List IfIdx) (r : Res) :
    EndsRx s (.next ((s.emitAll b l).endRx r)) := by
  obtain ⟨e, u, h⟩ := emitAll_eq s b l
  rw [h]
  exact endsRx_endRx { s with env := e, out := u } r

theorem endsRx_fault (s : State) (f : Fault) : EndsRx s (.fault f) := by
  rintro _ ⟨⟩

theorem endsRx_withRead {s s' : State} {a n : Nat} {k : Nat → Outc} (hk : ∀ v, EndsRx s (k v)) :
    EndsRx s (withRead s' a n k) := by
  unfold withRead
  split
  · exact hk _
  · exact endsRx_fault s _

theorem endsRx_withSlice {s s' : State} {a n : Nat} {k : Bytes → Outc} (hk : ∀ v, EndsRx s (k v)) :
    EndsRx s (withSlice s' a n k) := by
  unfold withSlice
  split
  · exact hk _
  · exact endsRx_fault s _

/-! ## The router's stages, last first -/

theorem raiseIcmp_endsRx (kind : IcmpKind) (s : State) : EndsRx s (raiseIcmp kind s) := by
  rw [raiseIcmp_closed]
  refine endsRx_withRead fun src => ?_
  split
  · exact endsRx_endRx s _
  · exact endsRx_endRx s _
  · unfold withPayload
    split
    · exact endsRx_withSlice fun P => endsRx_emitTx s _ _ _
    · exact endsRx_withSlice fun header => endsRx_withSlice fun quoted => endsRx_emitTx s _ _ _

theorem stageS8_endsRx (s : State) : EndsRx s (stageS8 s) := by
  unfold stageS8
  split
  · exact endsRx_fault s _
  · exact endsRx_emitTx { s with txb := _ } _ _ _

theorem stageS7_endsRx (s : State) : EndsRx s (stageS7 s) := by
  unfold stageS7
  split
  · exact endsRx_fault s _
  · dsimp only
    split
    · exact raiseIcmp_endsRx .hostUnreach { s with work := _ }
    · exact stageS8_endsRx { s with stage := .s8, work := _ }

theorem stageS6_endsRx (s : State) : EndsRx s (stageS6 s) := by
  unfold stageS6
  split
  · exact endsRx_fault s _
  · split
    · exact endsRx_endRx s _
    · exact stageS7_endsRx { s with stage := .s7 }

theorem stageS5_endsRx (s : State) : EndsRx s (stageS5 s) := by
  unfold stageS5
  dsimp only
  split
  · exact raiseIcmp_endsRx .netUnreach { s with work := _ }
  · exact stageS6_endsRx { s with stage := .s6, work := _ }

theorem deliverLocal_endsRx (c : LocalClass) (s : State) : EndsRx s (deliverLocal c s) := by
  cases c with
  | tcp => exact raiseIcmp_endsRx .portUnreach s
  | udp => exact raiseIcmp_endsRx .portUnreach s
  | echoReq => exact raiseIcmp_endsRx .echoReply s
  | other => exact endsRx_endRx s _

theorem stageS4_endsRx (s : State) : EndsRx s (stageS4 s) := by
  refine endsRx_withRead fun dst => ?_
  dsimp only
  split
  · refine endsRx_withRead fun proto => ?_
    unfold withLocalClass
    split
    · exact endsRx_withRead fun first => deliverLocal_endsRx _ { s with work := _ }
    · exact deliverLocal_endsRx _ { s with work := _ }
  · exact stageS5_endsRx { s with stage := .s5, work := _ }

theorem stageS3_endsRx (s : State) : EndsRx s (stageS3 s) := by
  refine endsRx_withRead fun ttl => ?_
  dsimp only
  split
  · exact raiseIcmp_endsRx .timeExceeded { s with work := _ }
  · exact endsRx_withSlice fun H => stageS4_endsRx { s with stage := .s4, work := _ }

theorem stageS2_endsRx (s : State) : EndsRx s (stageS2 s) := by
  refine endsRx_withSlice fun H => endsRx_withRead fun c => ?_
  dsimp only
  split
  · exact stageS3_endsRx { s with stage := .s3, work := _ }
  · exact endsRx_endRx s _

theorem applyOutcome_endsRx (s : State) (F : Bytes) (o : RouterOutcome) : EndsRx s (.next (applyOutcome s F o)) := by
  cases o with
  | illegal => exact endsRx_endRx s _
  | drop c => exact endsRx_endRx s _
  | forward ifx frame => exact endsRx_emitTx s _ _ _
  | icmp k =>
    obtain ⟨r, h⟩ | ⟨e, m, r, -, h⟩ := replyResult_cases s k F
    · rw [applyOutcome, h]; exact endsRx_endRx s r
    · rw [applyOutcome, h]; exact endsRx_emitTx s _ _ r

theorem stageS1P_endsRx (s : State) : EndsRx s (stageS1P s) := by
  rw [stageS1P_eq]
  exact applyOutcome_endsRx s _ _

theorem stageS1_endsRx (s : State) : EndsRx s (stageS1 s) := by
  refine endsRx_withRead fun et => ?_
  dsimp only
  split
  · exact endsRx_endRx s _
  · exact stageS1P_endsRx { s with stage := .s1p, work := _ }

theorem stageS0_endsRx (s : State) : EndsRx s (stageS0 s) := by
  obtain ⟨c, e⟩ | ⟨-, -, -, -, e⟩ := admission_cases s (stageS1 { s with stage := .s1 })
  · rw [stageS0, e]; exact endsRx_endRx s _
  · rw [stageS0, e]; exact stageS1_endsRx { s with stage := .s1 }

/-! ## An RX operation met in the middle -/

/-- The meanings of the FRAME.* and ICMP.* rows end the RX operation they are part of. -/
theorem exec_endsRx {i : Instr} (hi : i.isRecord = false) (s : State) : EndsRx s (exec i s) := by
  cases i with
  | cfgIface | cfgRoute | cfgArp | cfgMode | cfgCommit | rx | tick | sweepDel => cases hi
  | frameIpv4 => exact stageS1P_endsRx { s with stage := .s1p }
  | frameLocalTcp => exact deliverLocal_endsRx .tcp s
  | frameLocalUdp => exact deliverLocal_endsRx .udp s
  | frameLocalEchoreq => exact deliverLocal_endsRx .echoReq s
  | frameLocalOther => exact deliverLocal_endsRx .other s
  | icmpTimeExceeded => exact raiseIcmp_endsRx .timeExceeded s
  | icmpNetUnreach => exact raiseIcmp_endsRx .netUnreach s
  | icmpHostUnreach => exact raiseIcmp_endsRx .hostUnreach s
  | icmpPortUnreach => exact raiseIcmp_endsRx .portUnreach s
  | icmpEchoReply => exact raiseIcmp_endsRx .echoReply s

theorem localClass_instr_isRecord (c : LocalClass) : c.instr.isRecord = false := by cases c <;> rfl

theorem icmpKind_instr_isRecord (k : IcmpKind) : k.instr.isRecord = false := by cases k <;> rfl

theorem classifyEthertype_isRecord {et : Nat} {i : Instr} (h : classifyEthertype et = some i) : i.isRecord = false := by
  unfold classifyEthertype at h
  split at h <;> cases h
  rfl

theorem stageInstr_isRecord {s : State} {i : Instr} (h : s.stageInstr = some i) : i.isRecord = false := by
  cases hs : s.stage with
  | s1 =>
    simp only [State.stageInstr, hs] at h
    obtain ⟨et, -, he⟩ := Option.bind_eq_some_iff.mp h
    exact classifyEthertype_isRecord he
  | s4 =>
    simp only [State.stageInstr, hs] at h
    split at h
    · split_ifs at h
      · obtain ⟨first, -, rfl⟩ := Option.map_eq_some_iff.mp h
        exact localClass_instr_isRecord _
      · cases h
        exact localClass_instr_isRecord _
    · cases h
    · cases h
  | icmp =>
    simp only [State.stageInstr, hs] at h
    cases h
    exact icmpKind_instr_isRecord _
  | s0 | s1p | s2 | s3 | s5 | s6 | s7 | s8 | done => simp [State.stageInstr, hs] at h

theorem stageStep_endsRx {s : State} (hs : s.stage ≠ .done) : EndsRx s (stageStep s) := by
  unfold stageStep
  split
  · exact stageS0_endsRx s
  · exact stageS1_endsRx s
  · exact stageS1P_endsRx s
  · exact stageS2_endsRx s
  · exact stageS3_endsRx s
  · exact stageS4_endsRx s
  · exact stageS5_endsRx s
  · exact stageS6_endsRx s
  · exact stageS7_endsRx s
  · exact stageS8_endsRx s
  · exact raiseIcmp_endsRx _ s
  · contradiction

theorem resume_endsRx {s : State} (hs : s.stage ≠ .done) : EndsRx s (resume s) := by
  unfold resume
  split
  · rename_i i hi
    exact exec_endsRx (stageInstr_isRecord hi) s
  · exact stageStep_endsRx hs

/-! ## The switch -/

/-- What LT_UPSERT makes of the table: nothing new, or the row of `k` seen now, with the interface it had, or with `i` where
the table had room for it (R262). -/
theorem upsertTable_cases (s : State) (k : Mac) (i : IfIdx) :
    s.upsertTable k i = s.lt ∨
    (∃ row, (k, row) ∈ s.lt ∧ s.upsertTable k i = ltPut s.lt k ⟨row.ifx, s.now⟩) ∨
    (s.ltHasRoom = true ∧ s.upsertTable k i = ltPut s.lt k ⟨i, s.now⟩) := by
  unfold State.upsertTable
  split
  · rename_i row hf
    exact .inr (.inl ⟨row, ltFind_some hf, rfl⟩)
  · split_ifs with hr
    · exact .inr (.inr ⟨hr, rfl⟩)
    · exact .inl rfl

theorem ltHasRoom_iff (s : State) : s.ltHasRoom = true ↔ ∀ n ∈ s.par.nLt, s.lt.length < n := by
  unfold State.ltHasRoom
  cases s.par.nLt <;> simp

/-- A row seen now may be written into LT of a live switch, on a valid interface and within N_LT. -/
theorem State.Inv.putRow {s : State} (h : s.Inv) (hl : s.live = true) (hm : s.mode = .switch) (k : Mac) {j : IfIdx}
    (hj : s.ifValid j = true) (hroom : ∀ n ∈ s.par.nLt, (ltPut s.lt k ⟨j, s.now⟩).length ≤ n) :
    { s with lt := ltPut s.lt k ⟨j, s.now⟩ }.Inv := by
  have mem := mem_ltPut h.ltKeys k ⟨j, s.now⟩
  have hseen : ∀ p ∈ ltPut s.lt k ⟨j, s.now⟩, p.2.seen ≤ s.now := by
    intro p hp
    obtain rfl | ⟨hp, -⟩ := (mem p).mp hp
    · exact le_refl _
    · exact h.ltSeen p hp
  have hifs : ∀ p ∈ ltPut s.lt k ⟨j, s.now⟩, s.ifValid p.2.ifx = true := by
    intro p hp
    obtain rfl | ⟨hp, -⟩ := (mem p).mp hp
    · exact hj
    · exact h.ltIfs p hp
  have hkeys : ∀ v ∈ s.victims, ∃ row, (v, row) ∈ ltPut s.lt k ⟨j, s.now⟩ := by
    intro v hv
    obtain ⟨row, hrow⟩ := h.victimKeys v hv
    by_cases hvk : v = k
    · exact ⟨_, (mem _).mpr (.inl (by rw [hvk]))⟩
    · exact ⟨row, (mem _).mpr (.inr ⟨hrow, hvk⟩)⟩
  have hfresh : ∀ p ∈ ltPut s.lt k ⟨j, s.now⟩, p.1 ∉ s.victims → s.lastSweep ≤ p.2.seen + expireTicks s.par := by
    intro p hp hv
    obtain rfl | ⟨hp, -⟩ := (mem p).mp hp
    · exact le_trans (Nat.sub_le _ _) (Nat.le_add_right _ _)
    · exact h.ltFresh p hp hv
  exact
    { h with
      ltKeys := ltPut_wf h.ltKeys k _
      ltSeen := hseen
      ltIfs := hifs
      ltRoom := hroom
      ltUse := fun _ => ⟨hl, hm⟩
      victimKeys := hkeys
      ltFresh := hfresh }

theorem State.Inv.upsertTable {s : State} (h : s.Inv) (hl : s.live = true) (hm : s.mode = .switch) (k : Mac) {i : IfIdx}
    (hi : s.ifValid i = true) : { s with lt := s.upsertTable k i }.Inv := by
  obtain e | ⟨row, hrow, e⟩ | ⟨hroom, e⟩ := upsertTable_cases s k i
  · rw [e]; exact h
  · rw [e]
    refine h.putRow hl hm k (h.ltIfs _ hrow) fun n hn => ?_
    rw [ltPut_length_of_mem h.ltKeys _ hrow]
    exact h.ltRoom n hn
  · rw [e]
    exact h.putRow hl hm k hi fun n hn => le_trans (ltPut_length _ _ _) ((ltHasRoom_iff s).mp hroom n hn)

theorem switchForward_endsRx (learn : Learn) (s : State) : EndsRx s (switchForward learn s) := by
  unfold switchForward
  dsimp only
  split
  · exact endsRx_emitTx { s with txb := s.rxb } _ _ _
  · exact endsRx_emitAll { s with txb := s.rxb } _ _ _

/-- RX in SWITCH personality writes nothing of the state R20 names, or in phase LIVE one LT_UPSERT from a valid ingress
interface. -/
theorem switchRx_cases (s : State) :
    EndsRx s (switchRx s) ∨
    (s.live = true ∧ s.ifValid s.rxIf = true ∧ ∃ k, EndsRx { s with lt := s.upsertTable k s.rxIf } (switchRx s)) := by
  unfold switchRx
  obtain ⟨c, e⟩ | ⟨hp, hi, hlen, -, e⟩ := admission_cases s _
  · rw [e]; exact .inl (endsRx_endRx s _)
  · rw [e, withRead_in (by omega), withRead_in (by omega)]
    exact .inr ⟨(phase_live.mp hp).2, hi, .ofNat 48 (field s.rxb 6 6), switchForward_endsRx _
      { s with lt := s.upsertTable (.ofNat 48 (field s.rxb 6 6)) s.rxIf, work := _ }⟩

theorem execRx_keepsInv {s : State} (h : s.Inv) (inIf : IfIdx) (frame : Bytes) : KeepsInv (execRx inIf frame s) := by
  unfold execRx
  split
  · have hends : EndsRx s _ := stageS0_endsRx { s.loadRx inIf frame with stage := .s0 }
    exact hends.keepsInv h
  · rename_i hm
    obtain he | ⟨hl, hi, k, he⟩ := switchRx_cases (s.loadRx inIf frame)
    · have hends : EndsRx s _ := he
      exact hends.keepsInv h
    · have hends : EndsRx { s with lt := s.upsertTable k inIf } _ := he
      exact hends.keepsInv (h.upsertTable hl hm k hi)

/-! ## Time and the sweep -/

/-- Between two sweep timer events NOW moves and the time of the last event stays. -/
theorem sub_mod_succ {n k : Nat} (h : (n + 1) % k ≠ 0) : n + 1 - (n + 1) % k = n - n % k := by
  have hdiv : (n + 1) / k = n / k := Nat.succ_div_of_not_dvd fun hd => h (Nat.mod_eq_zero_of_dvd hd)
  have h1 := Nat.div_add_mod (n + 1) k
  have h2 := Nat.div_add_mod n k
  rw [hdiv] at h1
  omega

theorem mem_snapshot {s : State} {t : Nat} {k : Mac} :
    k ∈ s.snapshot t ↔ ∃ row, (k, row) ∈ s.lt ∧ expireTicks s.par < t - row.seen := by
  simp [State.snapshot, staleAt]

theorem snapshot_nodup {s : State} (h : Lt.wf s.lt) (t : Nat) : (s.snapshot t).Nodup := by
  refine List.pairwise_map.mpr ((List.Pairwise.sublist List.filter_sublist h).imp fun hlt he => ?_)
  rw [he] at hlt
  exact lt_irrefl _ hlt

/-- A tick that meets no sweep timer event leaves every row as fresh as it was at the last one. -/
theorem State.Inv.tick {s : State} (h : s.Inv) (hn : (s.now + 1) % sweepTicks s.par ≠ 0) :
    { s with now := s.now + 1 }.Inv := by
  have hsweep : State.lastSweep { s with now := s.now + 1 } = s.lastSweep := sub_mod_succ hn
  exact
    { h with
      ltSeen := fun p hp => Nat.le_succ_of_le (h.ltSeen p hp)
      ltFresh := fun p hp hv => hsweep ▸ h.ltFresh p hp hv }

/-- A tick at a sweep timer event latches every stale row, so the rows it leaves out are fresh (R283). -/
theorem State.Inv.tickSweep {s : State} (h : s.Inv) :
    { s with now := s.now + 1, victims := s.snapshot (s.now + 1) }.Inv := by
  have hkeys : ∀ k ∈ s.snapshot (s.now + 1), ∃ row, (k, row) ∈ s.lt := fun k hk => by
    obtain ⟨row, hm, -⟩ := mem_snapshot.mp hk
    exact ⟨row, hm⟩
  have hfresh : ∀ p ∈ s.lt, p.1 ∉ s.snapshot (s.now + 1) →
      s.now + 1 - (s.now + 1) % sweepTicks s.par ≤ p.2.seen + expireTicks s.par := fun p hp hv => by
    have hage : ¬expireTicks s.par < s.now + 1 - p.2.seen := fun hs => hv (mem_snapshot.mpr ⟨p.2, hp, hs⟩)
    omega
  exact
    { h with
      ltSeen := fun p hp => Nat.le_succ_of_le (h.ltSeen p hp)
      victimKeys := hkeys
      victimOnce := snapshot_nodup h.ltKeys _
      ltFresh := hfresh }

theorem execTick_keepsInv {s : State} (h : s.Inv) : KeepsInv (execTick s) := by
  unfold execTick
  split
  · dsimp only
    split
    · exact keepsInv_result h.tickSweep _
    · rename_i hn
      exact keepsInv_result (h.tick hn) _
  · exact keepsInv_next h

/-- The row of a latched key and the latch go together, so what remains latched has its row (R284). -/
theorem State.Inv.sweepDel {s : State} (h : s.Inv) (k : Mac) :
    { s with lt := ltErase s.lt k, victims := s.victims.filter (· ≠ k) }.Inv := by
  have hroom : ∀ n ∈ s.par.nLt, (ltErase s.lt k).length ≤ n := fun n hn => le_trans (ltErase_length _ _) (h.ltRoom n hn)
  have huse : ltErase s.lt k ≠ [] → s.live = true ∧ s.mode = .switch := fun hne =>
    h.ltUse fun hlt => hne (by rw [hlt]; rfl)
  have hkeys : ∀ v ∈ s.victims.filter (· ≠ k), ∃ row, (v, row) ∈ ltErase s.lt k := by
    intro v hv
    obtain ⟨hv, hne⟩ := List.mem_filter.mp hv
    obtain ⟨row, hm⟩ := h.victimKeys v hv
    exact ⟨row, mem_ltErase.mpr ⟨hm, by simpa using hne⟩⟩
  have hfresh : ∀ p ∈ ltErase s.lt k, p.1 ∉ s.victims.filter (· ≠ k) →
      s.lastSweep ≤ p.2.seen + expireTicks s.par := by
    intro p hp hv
    obtain ⟨hp, hne⟩ := mem_ltErase.mp hp
    exact h.ltFresh p hp fun hm => hv (List.mem_filter.mpr ⟨hm, by simpa using hne⟩)
  exact
    { h with
      ltKeys := ltErase_wf h.ltKeys k
      ltSeen := fun p hp => h.ltSeen p (mem_ltErase.mp hp).1
      ltIfs := fun p hp => h.ltIfs p (mem_ltErase.mp hp).1
      ltRoom := hroom
      ltUse := huse
      victimKeys := hkeys
      victimOnce := h.victimOnce.filter _
      ltFresh := hfresh }

theorem execSweepDel_keepsInv {s : State} (h : s.Inv) (k : Mac) : KeepsInv (execSweepDel k s) := by
  unfold execSweepDel
  split
  · exact keepsInv_next (h.sweepDel k)
  · exact keepsInv_next h

/-! ## One step -/

theorem applyReset_inv {s : State} (h : s.Inv) : s.applyReset.Inv where
  params := h.params
  ifCount := List.length_replicate
  rtRoom := Nat.zero_le _
  rtEntries := nofun
  arpRoom := Nat.zero_le _
  arpKeys := .nil
  onePhase := by simp
  rtLive := nofun
  ltKeys := .nil
  ltSeen := nofun
  ltIfs := nofun
  ltRoom := fun _ _ => Nat.zero_le _
  ltUse := by simp
  victimKeys := nofun
  victimOnce := .nil
  ltFresh := nofun
  rxRoom := Nat.zero_le _
  between := fun _ => ⟨rfl, rfl, rfl, rfl⟩

/-- Every operation keeps the invariant, whatever state of the invariant it meets. -/
theorem exec_keepsInv {s : State} (h : s.Inv) (i : Instr) : KeepsInv (exec i s) := by
  cases hrec : i.isRecord with
  | false => exact (exec_endsRx hrec s).keepsInv h
  | true =>
    cases i with
    | cfgIface ifx mac ip => exact execCfgIface_keepsInv h ifx mac ip
    | cfgRoute dest mask gw ifx => exact execCfgRoute_keepsInv h dest mask gw ifx
    | cfgArp ip mac => exact execCfgArp_keepsInv h ip mac
    | cfgMode mode => exact execCfgMode_keepsInv h mode
    | cfgCommit => exact execCfgCommit_keepsInv h
    | rx inIf frame => exact execRx_keepsInv h inIf frame
    | tick => exact execTick_keepsInv h
    | sweepDel mac => exact execSweepDel_keepsInv h mac
    | frameIpv4 | frameLocalTcp | frameLocalUdp | frameLocalEchoreq | frameLocalOther => cases hrec
    | icmpTimeExceeded | icmpNetUnreach | icmpHostUnreach | icmpPortUnreach | icmpEchoReply => cases hrec

theorem framePortStep_keepsInv {s : State} (h : s.Inv) : KeepsInv (framePortStep s) := by
  have hc : ∀ rest, (s.consume rest).Inv := fun rest => h.withPorts _ s.out
  unfold framePortStep
  split
  · split
    · exact illegalRecord_keepsInv (hc _)
    · exact exec_keepsInv (hc _) _
  · exact rejectRecord_keepsInv (hc _) _
  · exact keepsInv_next h

/-- Settles O18: by the kinds of step (`step_cases`), each of which keeps the invariant. -/
theorem stepKeepsTheInvariant : Obligations.StepKeepsTheInvariant := by
  intro s t h
  have ports : ∀ e, { s with env := e }.Inv := fun e => h.withPorts e s.out
  suffices hk : KeepsInv (step s) from hk t
  obtain ⟨-, e⟩ | ⟨-, hs, e⟩ | ⟨-, -, e | ⟨gs, d, e⟩ | ⟨-, gs, d, e⟩ | ⟨k, -, gs, ks, d, e⟩⟩ := step_cases s
  · rw [e]; exact keepsInv_next (applyReset_inv h)
  · rw [e]; exact (resume_endsRx hs).keepsInv h
  · rw [e]; exact keepsInv_next h
  · rw [e]; exact framePortStep_keepsInv (ports _)
  · rw [e]; exact execTick_keepsInv (ports _)
  · rw [e]; exact execSweepDel_keepsInv (ports _) k

end Machine
end Sys2Proof
end

section
/-! The state (10_state.md): reset (R42), what one step can change of the state R20 names (R25, R26, R30, R33), the age of a
learned row (R290) and the result record of an operation (R40).

What a step can write is said once, by `Effect` and `step_effect`: the statements about the configuration and about NOW are
read off its constructors. -/

namespace Sys2Proof.Machine

/-! ## Reset -/

theorem ifSlot_resetWith (p : Params) (i : IfIdx) : (State.resetWith p).ifSlot i = IfSlot.undefined :=
  (List.getD_eq_getElem?_getD ..).trans (List.getElem?_getD_replicate_default_eq ..)

/-- Settles O15: every field by definition, the interface slots by `ifSlot_resetWith`. -/
theorem resetState : Obligations.ResetState := by
  have hslots : ∀ i, (State.reset.ifSlot i).valid = false := fun i => by
    rw [State.reset, ifSlot_resetWith]
    rfl
  exact ⟨rfl, rfl, rfl, hslots, rfl, rfl, rfl, rfl, rfl, rfl, rfl, rfl⟩

/-- Reset meets the invariant whatever the parameters, within the ranges of R10. -/
theorem resetWith_inv {p : Params} (hp : p.Valid) : (State.resetWith p).Inv where
  params := hp
  ifCount := List.length_replicate
  rtRoom := Nat.zero_le _
  rtEntries := nofun
  arpRoom := Nat.zero_le _
  arpKeys := .nil
  onePhase := by simp [State.resetWith]
  rtLive := nofun
  ltKeys := .nil
  ltSeen := nofun
  ltIfs := nofun
  ltRoom := fun _ _ => Nat.zero_le _
  ltUse := fun h => absurd rfl h
  victimKeys := nofun
  victimOnce := .nil
  ltFresh := nofun
  rxRoom := Nat.zero_le _
  between := fun _ => ⟨rfl, rfl, rfl, rfl⟩

/-- Settles O17: the defaults of R10 are within its ranges. -/
theorem resetMeetsTheInvariant : Obligations.ResetMeetsTheInvariant := resetWith_inv (by decide)

/-! ## The age of a learned row -/

theorem State.Inv.sweepTicks_pos {s : State} (h : s.Inv) : 0 < sweepTicks s.par := by
  obtain ⟨-, -, -, -, -, -, -, hticks⟩ := h.params
  exact Nat.mul_pos Nat.one_pos hticks

/-- Less than a sweep period has passed since the last sweep timer event. -/
theorem State.Inv.now_lt_lastSweep_add {s : State} (h : s.Inv) : s.now < s.lastSweep + sweepTicks s.par := by
  have hmod : s.now % sweepTicks s.par < sweepTicks s.par := Nat.mod_lt _ h.sweepTicks_pos
  unfold State.lastSweep
  omega

/-- A row that is no pending victim was not stale at the last event, less than a sweep period ago. -/
theorem State.Inv.age_lt {s : State} (h : s.Inv) {p : Mac × LtRow} (hp : p ∈ s.lt) (hv : p.1 ∉ s.victims) :
    s.now - p.2.seen < expireTicks s.par + sweepTicks s.par := by
  have hfresh := h.ltFresh p hp hv
  have hnow := h.now_lt_lastSweep_add
  have hpos := h.sweepTicks_pos
  omega

/-- Settles O19: `State.Inv.age_lt`; where VICTIMS is empty no row is a pending victim. -/
theorem learnedRowsAreBoundedlyStale : Obligations.LearnedRowsAreBoundedlyStale := by
  refine fun s h => ⟨fun hv p hp => h.age_lt hp ?_, fun p hp hv => h.age_lt hp hv⟩
  rw [hv]
  exact List.not_mem_nil

/-! ## What one step can write -/

/-- Everything a step without reset can make of the block, whatever it does at the ports. -/
inductive Effect (s : State) : State → Prop
  /-- a refusal, or nothing at all -/
  | ports {e : Env} {u : Out} : Effect s { s with env := e, out := u }
  /-- an operation of the configuration port, which acts in phase CONFIG alone (R140) -/
  | config (hp : s.phase = .config) {mode : Mode} {live cfgErr : Bool} {ifs : List IfSlot} {rt : List RouteEntry}
      {arp : List ArpEntry} {e : Env} {u : Out} :
      Effect s { s with mode := mode, live := live, cfgErr := cfgErr, ifs := ifs, rt := rt, arp := arp, env := e, out := u }
  /-- an RX operation that learns nothing -/
  | rx {e : Env} {u : Out} : Effect s (s.afterRx e u)
  /-- an RX operation of the switch: one LT_UPSERT from a valid ingress interface (R262) -/
  | learn (hl : s.live = true) (hm : s.mode = .switch) {k : Mac} {i : IfIdx} (hi : s.ifValid i = true) {e : Env} {u : Out} :
      Effect s ({ s with lt := s.upsertTable k i }.afterRx e u)
  /-- a TICK, with or without a sweep timer event (R280, R286) -/
  | tick (hv : s.victims = []) {vs : List Mac} (hs : vs = [] ∨ vs = s.snapshot (s.now + 1)) {e : Env} {u : Out} :
      Effect s { s with now := s.now + 1, victims := vs, env := e, out := u }
  /-- a SWEEP.DEL of a pending victim (R284) -/
  | sweepDel {k : Mac} (hk : k ∈ s.victims) {e : Env} {u : Out} :
      Effect s { s with lt := ltErase s.lt k, victims := s.victims.filter (· ≠ k), env := e, out := u }

/-- Where the outcome is a next state, an effect on `s` leads to it. -/
def Effects (s : State) (o : Outc) : Prop := ∀ t, o = .next t → Effect s t

theorem effects_next {s t : State} (h : Effect s t) : Effects s (.next t) := by
  rintro _ ⟨⟩
  exact h

/-- What waited at the ports before the step does not matter. -/
theorem Effects.of_env {s : State} {e : Env} {o : Outc} (h : Effects { s with env := e } o) : Effects s o := by
  intro t ht
  cases h t ht with
  | ports => exact .ports
  | config hp => exact .config (s := s) hp
  | rx => exact .rx
  | learn hl hm hi => exact .learn (s := s) hl hm hi
  | tick hv hs => exact .tick (s := s) hv hs
  | sweepDel hk => exact .sweepDel (s := s) hk

theorem effects_result (s : State) (r : Res) : Effects s (.next (s.result r)) := effects_next .ports

theorem EndsRx.effects {s : State} {o : Outc} (h : EndsRx s o) : Effects s o := by
  intro t ht
  obtain ⟨e, u, rfl⟩ := h t ht
  exact .rx

/-! ### The configuration port -/

theorem malformedCfg_effects {s : State} (hp : s.phase = .config) : Effects s (malformedCfg s) :=
  effects_next (.config hp)

theorem rejectRecord_effects (why : Illegal) (s : State) : Effects s (rejectRecord why s) := by
  obtain ⟨hp, e⟩ | ⟨-, c, e⟩ := rejectRecord_cases why s
  · rw [e]; exact malformedCfg_effects hp
  · rw [e]; exact effects_result s _

theorem cfgCheck_effects {s : State} {k : Outc} (hk : s.phase = .config → Effects s k) : Effects s (cfgCheck s k) := by
  obtain ⟨hp, e⟩ | ⟨-, c, e⟩ := cfgCheck_cases s k
  · rw [e]; exact hk hp
  · rw [e]; exact effects_result s _

theorem execCfgIface_effects (ifx : IfIdx) (mac : Mac) (ip : Ip) (s : State) : Effects s (execCfgIface ifx mac ip s) := by
  refine cfgCheck_effects fun hp => ?_
  split
  · exact malformedCfg_effects hp
  · exact effects_next (.config hp)

theorem execCfgRoute_effects (dest mask gw : Ip) (ifx : IfIdx) (s : State) :
    Effects s (execCfgRoute dest mask gw ifx s) := by
  refine cfgCheck_effects fun hp => ?_
  split_ifs
  · exact malformedCfg_effects hp
  · exact malformedCfg_effects hp
  · exact malformedCfg_effects hp
  · exact effects_next (.config hp)

theorem execCfgArp_effects (ip : Ip) (mac : Mac) (s : State) : Effects s (execCfgArp ip mac s) := by
  refine cfgCheck_effects fun hp => ?_
  split_ifs
  · exact malformedCfg_effects hp
  · exact malformedCfg_effects hp
  · exact effects_next (.config hp)

theorem execCfgMode_effects (mode : Mode) (s : State) : Effects s (execCfgMode mode s) :=
  cfgCheck_effects fun hp => effects_next (.config hp)

theorem execCfgCommit_effects (s : State) : Effects s (execCfgCommit s) := by
  refine cfgCheck_effects fun hp => ?_
  split_ifs
  · exact malformedCfg_effects hp
  · exact effects_next (.config hp)

/-! ### RX, TICK and SWEEP.DEL -/

theorem execRx_effects (inIf : IfIdx) (frame : Bytes) (s : State) : Effects s (execRx inIf frame s) := by
  unfold execRx
  split
  · have hends : EndsRx s _ := stageS0_endsRx { s.loadRx inIf frame with stage := .s0 }
    exact hends.effects
  · rename_i hm
    obtain he | ⟨hl, hi, k, he⟩ := switchRx_cases (s.loadRx inIf frame)
    · have hends : EndsRx s _ := he
      exact hends.effects
    · have hends : EndsRx { s with lt := s.upsertTable k inIf } _ := he
      intro t ht
      obtain ⟨e, u, rfl⟩ := hends t ht
      exact .learn (s := s) hl hm hi

theorem execTick_effects (s : State) : Effects s (execTick s) := by
  unfold execTick
  split
  · rename_i hv
    dsimp only
    split
    · exact effects_next (.tick hv (.inr rfl))
    · exact effects_next (.tick hv (.inl hv))
  · exact effects_next .ports

theorem execSweepDel_effects (k : Mac) (s : State) : Effects s (execSweepDel k s) := by
  unfold execSweepDel
  split
  · rename_i hk
    exact effects_next (.sweepDel hk)
  · exact effects_next .ports

/-! ### One step -/

theorem exec_effects (i : Instr) (s : State) : Effects s (exec i s) := by
  cases hrec : i.isRecord with
  | false => exact (exec_endsRx hrec s).effects
  | true =>
    cases i with
    | cfgIface ifx mac ip => exact execCfgIface_effects ifx mac ip s
    | cfgRoute dest mask gw ifx => exact execCfgRoute_effects dest mask gw ifx s
    | cfgArp ip mac => exact execCfgArp_effects ip mac s
    | cfgMode mode => exact execCfgMode_effects mode s
    | cfgCommit => exact execCfgCommit_effects s
    | rx inIf frame => exact execRx_effects inIf frame s
    | tick => exact execTick_effects s
    | sweepDel mac => exact execSweepDel_effects mac s
    | frameIpv4 | frameLocalTcp | frameLocalUdp | frameLocalEchoreq | frameLocalOther => cases hrec
    | icmpTimeExceeded | icmpNetUnreach | icmpHostUnreach | icmpPortUnreach | icmpEchoReply => cases hrec

theorem framePortStep_effects (s : State) : Effects s (framePortStep s) := by
  unfold framePortStep
  split
  · split
    · exact (rejectRecord_effects (.undefinedOpcode 0) _).of_env
    · exact (exec_effects _ _).of_env
  · exact (rejectRecord_effects _ _).of_env
  · exact effects_next .ports

/-- Everything a step can do where the reset input is not asserted. -/
theorem step_effect {s t : State} (h : step s = .next t) (hr : s.env.resetIn = false) : Effect s t := by
  suffices he : Effects s (step s) from he t h
  obtain ⟨hr', -⟩ | ⟨-, hs, e⟩ | ⟨-, -, e | ⟨gs, d, e⟩ | ⟨-, gs, d, e⟩ | ⟨k, -, gs, ks, d, e⟩⟩ := step_cases s
  · rw [hr] at hr'
    cases hr'
  · rw [e]; exact (resume_endsRx hs).effects
  · rw [e]; exact effects_next .ports
  · rw [e]; exact (framePortStep_effects _).of_env
  · rw [e]; exact (execTick_effects _).of_env
  · rw [e]; exact (execSweepDel_effects k _).of_env

/-- Settles O20: the one effect that writes the configuration acts in phase CONFIG. -/
theorem configurationIsFrozenOutsideConfig : Obligations.ConfigurationIsFrozenOutsideConfig := by
  intro s t h hr hp
  cases step_effect h hr with
  | config hc => exact absurd hc hp
  | ports | rx | learn | tick | sweepDel => exact ⟨⟨rfl, rfl, rfl, rfl, rfl⟩, rfl, rfl⟩

/-- Settles O21: the one effect that writes NOW is a TICK, which VICTIMS holds back. -/
theorem timeMovesOnlyByTicks : Obligations.TimeMovesOnlyByTicks := by
  intro s t h hr
  cases step_effect h hr with
  | tick hv => exact .inr ⟨rfl, hv⟩
  | ports | config | rx | learn | sweepDel => exact .inl rfl

/-! ## One result for each record -/

/-- The outcome is a next state, and one result has joined those `s` had put out. -/
def OneResult (s : State) (o : Outc) : Prop := ∃ t r, o = .next t ∧ t.out.res = s.out.res ++ [r]

theorem oneResult_result (s : State) (r : Res) : OneResult s (.next (s.result r)) := ⟨_, r, rfl, rfl⟩

theorem oneResult_endRx (s : State) (r : Res) : OneResult s (.next (s.endRx r)) := ⟨_, r, rfl, rfl⟩

theorem oneResult_emitTx (s : State) (i : IfIdx) (b : Bytes) (r : Res) : OneResult s (.next ((s.emitTx i b).endRx r)) :=
  ⟨_, r, rfl, rfl⟩

theorem oneResult_emitAll (s : State) (b : Bytes) (l : List IfIdx) (r : Res) :
    OneResult s (.next ((s.emitAll b l).endRx r)) := ⟨_, r, rfl, by simp⟩

theorem malformedCfg_oneResult (s : State) : OneResult s (malformedCfg s) := ⟨_, _, rfl, rfl⟩

theorem rejectRecord_oneResult (why : Illegal) (s : State) : OneResult s (rejectRecord why s) := by
  obtain ⟨-, e⟩ | ⟨-, c, e⟩ := rejectRecord_cases why s
  · rw [e]; exact malformedCfg_oneResult s
  · rw [e]; exact oneResult_result s _

theorem cfgCheck_oneResult {s : State} {k : Outc} (hk : OneResult s k) : OneResult s (cfgCheck s k) := by
  obtain ⟨-, e⟩ | ⟨-, c, e⟩ := cfgCheck_cases s k
  · rw [e]; exact hk
  · rw [e]; exact oneResult_result s _

theorem applyOutcome_oneResult (s : State) (F : Bytes) (o : RouterOutcome) : OneResult s (.next (applyOutcome s F o)) := by
  cases o with
  | illegal => exact oneResult_endRx s _
  | drop c => exact oneResult_endRx s _
  | forward ifx frame => exact oneResult_emitTx s _ _ _
  | icmp k =>
    obtain ⟨r, e⟩ | ⟨i, m, r, -, e⟩ := replyResult_cases s k F
    · rw [applyOutcome, e]; exact oneResult_endRx s r
    · rw [applyOutcome, e]; exact oneResult_emitTx s _ _ r

theorem admission_oneResult {s : State} {k : Outc} (hk : 14 ≤ s.rxb.length → OneResult s k) :
    OneResult s (admission s k) := by
  obtain ⟨c, e⟩ | ⟨-, -, hlen, -, e⟩ := admission_cases s k
  · rw [e]; exact oneResult_endRx s _
  · rw [e]; exact hk hlen

theorem stageS0_oneResult (s : State) : OneResult s (stageS0 s) := by
  refine admission_oneResult fun hlen => ?_
  rw [stageS1_eq (s := { s with stage := .s1 }) hlen]
  exact applyOutcome_oneResult { s with stage := .s1 } _ _

theorem switchForward_oneResult (learn : Learn) (s : State) : OneResult s (switchForward learn s) := by
  unfold switchForward
  dsimp only
  split
  · exact oneResult_emitTx { s with txb := s.rxb } _ _ _
  · exact oneResult_emitAll { s with txb := s.rxb } _ _ _

theorem switchRx_oneResult (s : State) : OneResult s (switchRx s) := by
  refine admission_oneResult fun hlen => ?_
  rw [withRead_in (by omega), withRead_in (by omega)]
  exact switchForward_oneResult _ { s with lt := _, work := _ }

theorem execRx_oneResult (inIf : IfIdx) (frame : Bytes) (s : State) : OneResult s (execRx inIf frame s) := by
  unfold execRx
  split
  · exact stageS0_oneResult { s.loadRx inIf frame with stage := .s0 }
  · exact switchRx_oneResult (s.loadRx inIf frame)

theorem execTick_oneResult {s : State} (hv : s.victims = []) : OneResult s (execTick s) := by
  unfold execTick
  rw [if_pos hv]
  dsimp only
  split
  · exact oneResult_result { s with now := _, victims := _ } _
  · exact oneResult_result { s with now := _ } _

/-- Every operation the OP port accepts answers with one result, a TICK where VICTIMS does not hold it back. -/
theorem exec_oneResult {i : Instr} (hi : i.internalOnly = false) {s : State} (ht : i = .tick → s.victims = []) :
    OneResult s (exec i s) := by
  cases i with
  | cfgIface ifx mac ip =>
    refine cfgCheck_oneResult ?_
    split
    · exact malformedCfg_oneResult s
    · exact oneResult_result { s with ifs := _ } _
  | cfgRoute dest mask gw ifx =>
    refine cfgCheck_oneResult ?_
    split_ifs
    · exact malformedCfg_oneResult s
    · exact malformedCfg_oneResult s
    · exact malformedCfg_oneResult s
    · exact oneResult_result { s with rt := _ } _
  | cfgArp ip mac =>
    refine cfgCheck_oneResult ?_
    split_ifs
    · exact malformedCfg_oneResult s
    · exact malformedCfg_oneResult s
    · exact oneResult_result { s with arp := _ } _
  | cfgMode mode => exact cfgCheck_oneResult (oneResult_result { s with mode := mode } _)
  | cfgCommit =>
    refine cfgCheck_oneResult ?_
    split_ifs
    · exact malformedCfg_oneResult s
    · exact oneResult_result { s with live := true } _
  | rx inIf frame => exact execRx_oneResult inIf frame s
  | tick => exact execTick_oneResult (ht rfl)
  | sweepDel | frameIpv4 | frameLocalTcp | frameLocalUdp | frameLocalEchoreq | frameLocalOther => cases hi
  | icmpTimeExceeded | icmpNetUnreach | icmpHostUnreach | icmpPortUnreach | icmpEchoReply => cases hi

theorem framePortStep_oneResult {s : State}
    (ht : ∀ rest, decodeRecord s.env.opPort = .record .tick rest → s.victims = [])
    (hd : decodeRecord s.env.opPort ≠ .incomplete) : OneResult s (framePortStep s) := by
  unfold framePortStep
  split
  · rename_i i rest hrec
    split
    · exact rejectRecord_oneResult (.undefinedOpcode 0) (s.consume rest)
    · rename_i hi
      refine exec_oneResult (s := s.consume rest) (by simpa using hi) ?_
      rintro rfl
      exact ht rest hrec
  · exact rejectRecord_oneResult _ (s.consume _)
  · contradiction

/-- A grant leaves the record at the OP port in place (R75 (a)). -/
theorem grant_opPort {s : State} {a : Agent} {e : Env} (h : s.grant = some (a, e)) : e.opPort = s.env.opPort := by
  obtain ⟨hn, -⟩ | ⟨b, gs, d, hb, -⟩ := grant_cases s
  · rw [hn] at h
    cases h
  · rw [hb] at h
    cases h
    rfl

/-- Settles O13: the frame port by `framePortStep_oneResult`; a step that grants the frame port is its step on the same
record. -/
theorem everyRecordHasOneResult : Obligations.EveryRecordHasOneResult := by
  intro s ht hd
  refine ⟨framePortStep_oneResult ht hd, fun hr hs hg => ?_⟩
  obtain ⟨e, hg⟩ : ∃ e, s.grant = some (.framePort, e) :=
    hg.elim id fun ⟨hv, hdue⟩ => ⟨s.env, grant_framePort_alone hv hdue hd⟩
  have hport := grant_opPort hg
  rw [step_framePort hr hs hg]
  have hone : OneResult { s with env := e } _ :=
    framePortStep_oneResult (s := { s with env := e }) (by rwa [hport]) (by rwa [hport])
  exact hone

end Sys2Proof.Machine
end

section
/-! The memory and the order of operations (20_memory.md): which agent steps next (R71, R75), what its step runs (R68, R90,
R284), that a step between operations completes it (R77), and what an operation puts on the TX port (R62, R66, R73).

An RX operation of the router is used in the flat form of R214 throughout (`execRx_router_eq`): what it writes, what it puts
out and what that depends on are read off `applyOutcome` and `routerOutcome`. -/

namespace Sys2Proof.Machine

/-! ## The arbiter -/

/-- A grant goes to an enabled agent, and the choice touches none of the ports. -/
theorem grant_eq_some {s : State} {a : Agent} {e : Env} (h : s.grant = some (a, e)) :
    a ∈ s.enabledAgents ∧ e = { s.env with grants := e.grants, draws := e.draws } := by
  obtain ⟨hn, -⟩ | ⟨b, gs, d, hb, hmem⟩ := grant_cases s
  · rw [hn] at h
    cases h
  · rw [hb] at h
    cases h
    exact ⟨hmem, rfl⟩

theorem grant_eq_none_iff {s : State} : s.grant = none ↔ s.enabledAgents = [] := by
  constructor
  · intro h
    obtain ⟨-, he⟩ | ⟨a, gs, d, hs, -⟩ := grant_cases s
    · exact he
    · rw [hs] at h
      cases h
  · intro h
    simp only [State.grant, h]

/-- With no step enabled the block holds its state (R326). -/
theorem step_of_not_granted {s : State} (hr : s.env.resetIn = false) (hs : s.stage = .done) (hg : s.grant = none) :
    step s = .next s := by
  rw [step, if_neg (by simp [hr]), if_pos hs, idleStep, hg]

theorem timebaseReady_iff (s : State) : s.timebaseReady = true ↔ 0 < s.env.ticksDue ∧ s.victims = [] := by
  simp [State.timebaseReady]

theorem sweeperReady_iff (s : State) : s.sweeperReady = true ↔ s.victims ≠ [] := by
  simp [State.sweeperReady]

/-- Settles O10: what a grant can be is `grant_cases`, the agents one by one are `mem_enabledAgents`. -/
theorem grantsGoToEnabledAgents : Obligations.GrantsGoToEnabledAgents := fun s =>
  ⟨fun _ _ h => grant_eq_some h, grant_eq_none_iff,
    fun hr hs he => step_of_not_granted hr hs (grant_eq_none_iff.mpr he),
    (mem_enabledAgents s .sweeper).trans (sweeperReady_iff s),
    (mem_enabledAgents s .timebase).trans (timebaseReady_iff s),
    (mem_enabledAgents s .framePort).trans (framePortReady_iff s),
    fun a ha => grant_prepared (s := { s with env := { s.env with grants := [a] } }) rfl ha⟩

/-! ## What the granted agent runs -/

/-- Between operations the step of the block is the step of the agent that is granted (R68, R75). -/
theorem step_granted {s : State} {a : Agent} {e : Env} (hr : s.env.resetIn = false) (hs : s.stage = .done)
    (hg : s.grant = some (a, e)) : step s = agentStep a { s with env := e } := by
  rw [step, if_neg (by simp [hr]), if_pos hs, idleStep, hg]

/-- The frame port runs the operation its record decodes to, with the record consumed (R90). -/
theorem framePortStep_record {s : State} {i : Instr} {rest : Bytes} (hd : decodeRecord s.env.opPort = .record i rest)
    (hi : i.internalOnly = false) : framePortStep s = exec i (s.consume rest) := by
  simp only [framePortStep, hd, hi, Bool.false_eq_true, if_false]

/-- Settles O8: the granted frame port reads the record that was there before the grant (`grant_opPort`). -/
theorem stepRunsTheDecodedRecord : Obligations.StepRunsTheDecodedRecord := by
  intro s i rest hr hs hd hi
  have granted : ∀ e, s.grant = some (.framePort, e) → step s = exec i { s with env := { e with opPort := rest } } := by
    intro e hg
    rw [step_framePort hr hs hg]
    exact framePortStep_record (s := { s with env := e }) (by rwa [grant_opPort hg]) hi
  exact ⟨granted, fun hv ht => granted s.env (grant_framePort_alone hv ht (by simp [hd]))⟩

/-- Where the choice of a pending victim is prepared, the sweeper picks that victim (R284). -/
theorem pickVictim_prepared {s : State} {k : Mac} {later : List Mac} (hp : s.env.victimPicks = k :: later)
    (hk : k ∈ s.victims) : ∃ e, s.pickVictim = some (k, e) := by
  unfold State.pickVictim
  cases h : s.victims with
  | nil => simp only [h, List.not_mem_nil] at hk
  | cons a l =>
    rw [h] at hk
    cases l with
    | nil => exact ⟨s.env, by rw [List.mem_singleton.mp hk]⟩
    | cons b r => exact ⟨{ s.env with victimPicks := later }, by simp only [hp, if_pos hk]⟩

theorem sweeperStep_picked {s : State} {k : Mac} {e : Env} (h : s.pickVictim = some (k, e)) :
    sweeperStep s = exec (.sweepDel k) { s with env := e } := by
  rw [sweeperStep, h]

/-- Where the grant and the choice are prepared, the step deletes the chosen victim. -/
theorem step_sweeper_prepared {s : State} {k : Mac} (hr : s.env.resetIn = false) (hs : s.stage = .done)
    (hg : s.env.grants = [.sweeper]) (hp : s.env.victimPicks = [k]) (hk : k ∈ s.victims) :
    ∃ e, step s = exec (.sweepDel k) { s with env := e } := by
  have hen : Agent.sweeper ∈ s.enabledAgents :=
    (mem_enabledAgents s .sweeper).mpr ((sweeperReady_iff s).mpr (List.ne_nil_of_mem hk))
  obtain ⟨e, he⟩ := grant_prepared hg hen
  have hpicks : e.victimPicks = [k] := by rw [(grant_eq_some he).2]; exact hp
  obtain ⟨e', hv⟩ := pickVictim_prepared (s := { s with env := e }) hpicks hk
  exact ⟨e', (step_granted hr hs he).trans (sweeperStep_picked hv)⟩

/-- Settles O9: the granted agent steps (`step_granted`), and the sweeper's choice is a pending victim
(`pickVictim_cases`). -/
theorem stepRunsTimebaseAndSweeper : Obligations.StepRunsTimebaseAndSweeper := by
  intro s e hr hs
  refine ⟨fun hg => step_granted hr hs hg, fun hg => ?_, fun k hk => ?_⟩
  · obtain ⟨hen, he⟩ := grant_eq_some hg
    obtain ⟨-, hv⟩ | ⟨k, ks, d, hpick, hk⟩ := pickVictim_cases { s with env := e }
    · exact absurd hv (sweeper_enabled (s := s) hen)
    · refine ⟨k, hk, _, (step_granted hr hs hg).trans (sweeperStep_picked hpick), ?_⟩
      rw [he]
  · exact step_sweeper_prepared (s := { s with env := { s.env with grants := [.sweeper], victimPicks := [k] } })
      hr hs rfl rfl hk

/-! ## A step from between operations completes -/

theorem execTick_answers (s : State) : ∃ t, execTick s = .next t := by
  unfold execTick
  split
  · exact ⟨_, rfl⟩
  · exact ⟨_, rfl⟩

theorem execSweepDel_answers (k : Mac) (s : State) : ∃ t, execSweepDel k s = .next t := by
  unfold execSweepDel
  split
  · exact ⟨_, rfl⟩
  · exact ⟨_, rfl⟩

theorem OneResult.answers {s : State} {o : Outc} (h : OneResult s o) : ∃ t, o = .next t := by
  obtain ⟨t, -, e, -⟩ := h
  exact ⟨t, e⟩

/-- The frame port answers a next state whatever waits there, a TICK held back by VICTIMS and an incomplete record too. -/
theorem framePortStep_answers (s : State) : ∃ t, framePortStep s = .next t := by
  cases hd : decodeRecord s.env.opPort with
  | incomplete => exact ⟨s, by rw [framePortStep, hd]⟩
  | illegal why rest => exact (framePortStep_oneResult (by simp [hd]) (by simp [hd])).answers
  | record i rest =>
    by_cases hi : i = .tick
    · subst hi
      rw [framePortStep_record hd rfl]
      exact execTick_answers _
    · exact (framePortStep_oneResult (by simp [hd, hi]) (by simp [hd])).answers

theorem step_answers {s : State} (hs : s.stage = .done) : ∃ t, step s = .next t := by
  obtain ⟨-, e⟩ | ⟨-, hn, -⟩ | ⟨-, -, e | ⟨gs, d, e⟩ | ⟨-, gs, d, e⟩ | ⟨k, -, gs, ks, d, e⟩⟩ := step_cases s
  · exact ⟨_, e⟩
  · exact absurd hs hn
  · exact ⟨_, e⟩
  · rw [e]; exact framePortStep_answers _
  · rw [e]; exact execTick_answers _
  · rw [e]; exact execSweepDel_answers k _

/-- No effect of a step begins an RX operation and leaves it unfinished (R68). -/
theorem Effect.stage_done {s t : State} (h : Effect s t) (hs : s.stage = .done) : t.stage = .done := by
  cases h with
  | rx | learn => rfl
  | ports | config | tick | sweepDel => exact hs

/-- Settles O16: the step answers (`step_answers`), and its effect leaves no operation in progress. -/
theorem everyStepBetweenOperationsCompletes : Obligations.EveryStepBetweenOperationsCompletes := by
  intro s hs
  obtain ⟨t, ht⟩ := step_answers hs
  refine ⟨t, ht, ?_⟩
  cases hr : s.env.resetIn with
  | true =>
    rw [step, if_pos hr] at ht
    cases ht
    rfl
  | false => exact (step_effect ht hr).stage_done hs

/-! ## RX of the router, in the flat form -/

/-- RX in ROUTER personality ends as the pseudocode of R214 decides: the admission tests in the same order, then stage S1. -/
theorem execRx_router_eq {s : State} (hm : s.mode = .router) (inIf : IfIdx) (F : Bytes) :
    exec (.rx inIf F) s = .next (routerResult s inIf F) := by
  have hrx : exec (.rx inIf F) s = stageS0 { s.loadRx inIf F with stage := .s0 } := by
    change execRx inIf F s = _
    rw [execRx, hm]
  rw [hrx, stageS0, admission, routerResult, routerOutcome_eq]
  change (if s.phase ≠ .live then _ else if s.ifValid inIf = false then _
    else if F.length < 14 ∨ s.par.maxFrame < F.length then _ else _) = _
  by_cases hlive : s.phase ≠ .live
  · rw [if_pos hlive, if_pos hlive]
    rfl
  rw [if_neg hlive, if_neg hlive]
  by_cases hif : s.ifValid inIf = false
  · rw [if_pos hif, if_pos hif]
    rfl
  rw [if_neg hif, if_neg hif]
  by_cases hlen : F.length < 14 ∨ s.par.maxFrame < F.length
  · rw [if_pos hlen, if_pos hlen]
    rfl
  rw [if_neg hlen, if_neg hlen]
  have hshort : 14 ≤ F.length := by omega
  refine (stageS1_eq (s := { s.loadRx inIf F with stage := .s1 }) hshort).trans ?_
  exact congrArg _ (applyOutcome_transient s F _ .s1 F inIf [] Work.blank)

@[simp] theorem emitTx_opPort (s : State) (i : IfIdx) (b : Bytes) : (s.emitTx i b).env.opPort = s.env.opPort := by
  unfold State.emitTx
  cases s.env.txAnswers <;> rfl

@[simp] theorem emitTx_ticksDue (s : State) (i : IfIdx) (b : Bytes) :
    (s.emitTx i b).env.ticksDue = s.env.ticksDue := by
  unfold State.emitTx
  cases s.env.txAnswers <;> rfl

/-- An outcome ends the operation with one result, and puts out no frame or one. -/
theorem applyOutcome_cases (s : State) (F : Bytes) (o : RouterOutcome) :
    (∃ r, applyOutcome s F o = s.endRx r) ∨ ∃ i b r, applyOutcome s F o = (s.emitTx i b).endRx r := by
  cases o with
  | illegal => exact .inl ⟨_, rfl⟩
  | drop c => exact .inl ⟨_, rfl⟩
  | forward ifx frame => exact .inr ⟨_, _, _, rfl⟩
  | icmp k =>
    obtain ⟨r, h⟩ | ⟨e, m, r, -, h⟩ := replyResult_cases s k F
    · exact .inl ⟨r, h⟩
    · exact .inr ⟨_, _, r, h⟩

/-- The end of an RX operation leaves the state R20 names as it was. -/
theorem afterRx_sameState (s : State) (e : Env) (u : Out) : s.sameState (s.afterRx e u) :=
  ⟨⟨rfl, rfl, rfl, rfl, rfl⟩, rfl, rfl, rfl, rfl, rfl⟩

/-- Settles O39: an outcome ends an RX operation (`applyOutcome_endsRx`), in one of the two forms of `applyOutcome_cases`. -/
theorem routerRxWritesNoState : Obligations.RouterRxWritesNoState := by
  intro s t inIf F hm h
  rw [execRx_router_eq hm] at h
  cases h
  refine ⟨?_, ?_⟩
  · obtain ⟨e, u, ht⟩ := applyOutcome_endsRx s F (routerOutcome s inIf F) _ rfl
    rw [routerResult, ht]
    exact afterRx_sameState s e u
  · obtain ⟨r, e⟩ | ⟨i, b, r, e⟩ := applyOutcome_cases s F (routerOutcome s inIf F)
    · rw [routerResult, e]
      exact ⟨⟨r, rfl⟩, .inl rfl, rfl, rfl⟩
    · rw [routerResult, e]
      exact ⟨⟨r, rfl⟩, .inr ⟨⟨i, b⟩, rfl⟩, by simp, by simp⟩

/-! ### What the outcome depends on

The model's tests and lookups read the configuration and the phase alone (R73). -/

section SameConfig

variable {s t : State}

theorem State.sameConfig.mode (h : s.sameConfig t) : t.mode = s.mode := by
  obtain ⟨-, hmode, -⟩ := h
  exact hmode

theorem State.sameConfig.ifSlot (h : s.sameConfig t) (i : IfIdx) : t.ifSlot i = s.ifSlot i := by
  obtain ⟨-, -, hifs, -, -⟩ := h
  rw [State.ifSlot, hifs, State.ifSlot]

theorem State.sameConfig.ifValid (h : s.sameConfig t) (i : IfIdx) : t.ifValid i = s.ifValid i := by
  obtain ⟨hpar, -⟩ := id h
  rw [State.ifValid, hpar, h.ifSlot, State.ifValid]

theorem State.sameConfig.isLocal (h : s.sameConfig t) (a : Ip) : t.isLocal a = s.isLocal a := by
  obtain ⟨-, -, hifs, -, -⟩ := h
  rw [State.isLocal, hifs, State.isLocal]

theorem State.sameConfig.resolve (h : s.sameConfig t) (a : Ip) : t.resolve a = s.resolve a := by
  obtain ⟨-, -, -, hrt, harp⟩ := h
  rw [State.resolve, hrt, harp, State.resolve]

theorem State.sameConfig.routerOutcome_eq (h : s.sameConfig t) (hp : t.phase = s.phase) (inIf : IfIdx) (F : Bytes) :
    routerOutcome t inIf F = routerOutcome s inIf F := by
  obtain ⟨hpar, -, -, hrt, harp⟩ := id h
  simp only [routerOutcome, hp, h.ifValid, hpar, h.isLocal, hrt, harp, h.ifSlot]

/-- An outcome is applied alike to two blocks of one configuration that meet the same answer of the transmit primitive. -/
theorem State.sameConfig.applyOutcome_outputs (h : s.sameConfig t) (hok : t.txOk = s.txOk) (F : Bytes)
    (o : RouterOutcome) :
    ∃ frames r, (applyOutcome s F o).out.tx = s.out.tx ++ frames ∧ (applyOutcome t F o).out.tx = t.out.tx ++ frames ∧
      (applyOutcome s F o).out.res = s.out.res ++ [r] ∧ (applyOutcome t F o).out.res = t.out.res ++ [r] := by
  have quiet : ∀ u r, ((u : State).endRx r).out.tx = u.out.tx ++ [] := by simp
  cases o with
  | illegal => exact ⟨[], _, quiet s _, quiet t _, rfl, rfl⟩
  | drop c => exact ⟨[], _, quiet s _, quiet t _, rfl, rfl⟩
  | forward ifx frame =>
    simp only [applyOutcome, hok]
    exact ⟨[⟨ifx, frame⟩], _, rfl, rfl, rfl, rfl⟩
  | icmp k =>
    simp only [applyOutcome, replyResult, h.resolve, h.ifSlot, hok]
    cases s.resolve (srcAddr F) with
    | noRoute => exact ⟨[], _, quiet s _, quiet t _, rfl, rfl⟩
    | noArp r => exact ⟨[], _, quiet s _, quiet t _, rfl, rfl⟩
    | ok e m => exact ⟨[⟨e, _⟩], _, rfl, rfl, rfl, rfl⟩

end SameConfig

/-- Settles O40: both blocks reach the same outcome, and it is applied alike. -/
theorem routerRxDependsOnConfigurationAlone : Obligations.RouterRxDependsOnConfigurationAlone := by
  intro s t inIf F hm h hlive herr hok
  have hmode : t.mode = .router := h.mode.trans hm
  have hphase : t.phase = s.phase := by rw [State.phase, hlive, herr, State.phase]
  obtain ⟨frames, r, outputs⟩ := h.applyOutcome_outputs hok F (routerOutcome s inIf F)
  refine ⟨_, _, frames, r, execRx_router_eq hm inIf F, execRx_router_eq hmode inIf F, ?_⟩
  rw [routerResult, routerResult, h.routerOutcome_eq hphase]
  exact outputs

/-! ## What an operation transmits -/

/-! ### Lengths -/

/-- A write leaves the buffer as long as it was, or as long as the end of the write where that lies past it. -/
theorem writeBytes_length_max (b : Bytes) (a : Nat) (v : Bytes) :
    (writeBytes b a v).length = max b.length (a + v.length) := by
  simp only [writeBytes, List.length_append, List.length_take, List.length_drop, zeros_length]
  omega

theorem memWrite_length_max (b : Bytes) (a n v : Nat) : (memWrite b a n v).length = max b.length (a + n) := by
  rw [memWrite, writeBytes_length_max, beBytes_length]

/-- A synthesized frame is its 38 bytes of headers and the payload (R110). -/
theorem synthFrame_length (m ifMac : Mac) (ifIp src : Ip) (kind : IcmpKind) (P : Bytes) :
    (synthFrame m ifMac ifIp src kind P).length = 38 + P.length := by
  simp only [synthFrame, memWrite_length_max, writeBytes_length_max, List.length_nil]
  omega

/-- A forwarded frame is as long as the received one (R213). -/
theorem forwardFrame_length {F : Bytes} (h : 34 ≤ F.length) (m n : Mac) : (forwardFrame F m n).length = F.length := by
  simp only [forwardFrame, List.length_append, beBytes_length, span_length, List.length_drop, List.length_singleton]
  omega

/-- A reply fits wherever 110 bytes and the frame it answers do: an error quotes at most 60 + 8 bytes after 4 zero bytes, an
Echo Reply is no longer than its request (R244). -/
theorem replyPayload_fits {F : Bytes} {M : Nat} (k : IcmpKind) (hM : 110 ≤ M) (hF : F.length ≤ M)
    (hmin : 20 ≤ headerLen F) : 38 + (replyPayload k F).length ≤ M := by
  have hmax : headerLen F ≤ 60 := by unfold headerLen; omega
  unfold replyPayload
  split
  · rw [span_length]
    omega
  · simp only [ipHeader, List.length_append, zeros_length, span_length]
    omega

/-! ### Frames that fit -/

/-- The frame leaves by a valid interface and is no longer than MAX_FRAME. -/
def State.Fits (s : State) (x : Tx) : Prop := s.ifValid x.ifx = true ∧ x.bytes.length ≤ s.par.maxFrame

/-- Where the outcome is a next state, the frames that joined those `s` had put out fit. -/
def SendsFit (s : State) (o : Outc) : Prop :=
  ∀ t, o = .next t → ∃ frames, t.out.tx = s.out.tx ++ frames ∧ ∀ x ∈ frames, s.Fits x

theorem sendsFit_next {s t : State} {frames : List Tx} (ht : t.out.tx = s.out.tx ++ frames)
    (hf : ∀ x ∈ frames, s.Fits x) : SendsFit s (.next t) := by
  rintro _ ⟨⟩
  exact ⟨frames, ht, hf⟩

theorem sendsFit_quiet {s t : State} (h : t.out.tx = s.out.tx) : SendsFit s (.next t) :=
  sendsFit_next (frames := []) (by simp [h]) nofun

theorem sendsFit_emitTx {s : State} {i : IfIdx} {b : Bytes} (h : s.Fits ⟨i, b⟩) (r : Res) :
    SendsFit s (.next ((s.emitTx i b).endRx r)) :=
  sendsFit_next (frames := [⟨i, b⟩]) rfl (by simpa using h)

/-! ### The router -/

/-- The router ends an operation before stage S2 with no frame, or the frame is admitted and well shaped and stage S2
decides. -/
theorem routerOutcome_cases (s : State) (inIf : IfIdx) (F : Bytes) :
    routerOutcome s inIf F = .illegal ∨ (∃ c, routerOutcome s inIf F = .drop c) ∨
    (s.Admits inIf F ∧ WellShaped F ∧ routerOutcome s inIf F = fromS2 s inIf F) := by
  rw [routerOutcome_eq, fromS1P]
  split_ifs with hlive hif hlen het hshort hshape
  · exact .inr (.inl ⟨_, rfl⟩)
  · exact .inl rfl
  · exact .inr (.inl ⟨_, rfl⟩)
  · exact .inr (.inl ⟨_, rfl⟩)
  · exact .inr (.inl ⟨_, rfl⟩)
  · exact .inr (.inl ⟨_, rfl⟩)
  · simp only [not_or, not_lt, not_not, Bool.not_eq_false] at hlive hif hlen hshort hshape
    exact .inr (.inr ⟨⟨hlive, hif, hlen⟩, ⟨hshort, hshape⟩, rfl⟩)

/-- A frame is forwarded by the interface of a loaded route. -/
theorem fromS2_forward {s : State} {inIf ifx : IfIdx} {F frame : Bytes} (h : fromS2 s inIf F = .forward ifx frame) :
    (∃ r ∈ s.rt, r.ifx = ifx) ∧ ∃ m n, frame = forwardFrame F m n := by
  unfold fromS2 fromS4 at h
  split_ifs at h
  unfold fromS5 at h
  cases hr : rtLookup s.rt (dstAddr F) with
  | none => simp [hr] at h
  | some r =>
    simp only [hr] at h
    split_ifs at h
    cases ha : arpLookup s.arp (nextHop r (dstAddr F)) with
    | none => simp [ha] at h
    | some m =>
      simp only [ha] at h
      cases h
      exact ⟨⟨r, rtLookup_mem hr, rfl⟩, _, _, rfl⟩

theorem routerResult_sendsFit {s : State} (h : s.Inv) (inIf : IfIdx) (F : Bytes) :
    SendsFit s (.next (routerResult s inIf F)) := by
  unfold routerResult
  obtain e | ⟨c, e⟩ | ⟨⟨hp, -, -, hmax⟩, ⟨hlong, -, hmin, -⟩, e⟩ := routerOutcome_cases s inIf F
  · rw [e]; exact sendsFit_quiet rfl
  · rw [e]; exact sendsFit_quiet rfl
  · have hroute : ∀ {ifx}, (∃ r ∈ s.rt, r.ifx = ifx) → s.ifValid ifx = true := by
      rintro _ ⟨r, hr, rfl⟩
      exact h.rtLive (phase_live.mp hp).2 r hr
    rw [e]
    cases ho : fromS2 s inIf F with
    | illegal => exact sendsFit_quiet rfl
    | drop c => exact sendsFit_quiet rfl
    | forward ifx frame =>
      obtain ⟨hr, m, n, rfl⟩ := fromS2_forward ho
      refine sendsFit_emitTx ⟨hroute hr, ?_⟩ _
      rw [forwardFrame_length hlong]
      exact hmax
    | icmp k =>
      obtain ⟨-, -, -, -, -, h110, -⟩ := h.params
      obtain ⟨r, e⟩ | ⟨i, m, r, hres, e⟩ := replyResult_cases s k F
      · rw [applyOutcome, e]; exact sendsFit_quiet rfl
      · rw [applyOutcome, e]
        refine sendsFit_emitTx ⟨hroute (resolve_ok_route hres), ?_⟩ r
        rw [synthFrame_length]
        exact replyPayload_fits k h110 hmax hmin

/-! ### The switch -/

theorem floodPorts_ifValid {s : State} {inIf i : IfIdx} (h : i ∈ s.floodPorts inIf) : s.ifValid i = true := by
  have hkeep := (List.mem_filter.mp h).2
  rw [Bool.and_eq_true] at hkeep
  exact hkeep.1

/-- The switch sends the frame unchanged (R265), by the interface of a row of LT or by flood ports. -/
theorem switchForward_sendsFit (learn : Learn) {s : State} (hlt : ∀ p ∈ s.lt, s.ifValid p.2.ifx = true)
    (hlen : s.rxb.length ≤ s.par.maxFrame) : SendsFit s (switchForward learn s) := by
  unfold switchForward
  dsimp only
  split
  · rename_i row hrow
    exact sendsFit_emitTx (s := { s with txb := s.rxb }) ⟨hlt _ (ltFind_some hrow), hlen⟩ _
  · refine sendsFit_next (by rw [endRx_tx, emitAll_tx]) fun x hx => ?_
    obtain ⟨i, hi, rfl⟩ := List.mem_map.mp hx
    exact ⟨floodPorts_ifValid hi, hlen⟩

/-- After its upsert LT still names valid interfaces alone (R32 (c)). -/
theorem switchRx_sendsFit {s : State} (h : s.Inv) (hm : s.mode = .switch) (inIf : IfIdx) (F : Bytes) :
    SendsFit s (switchRx (s.loadRx inIf F)) := by
  unfold switchRx
  obtain ⟨c, e⟩ | ⟨hp, hi, hmin, hmax, e⟩ := admission_cases (s.loadRx inIf F) _
  · rw [e]; exact sendsFit_quiet rfl
  · rw [e, withRead_in (by omega), withRead_in (by omega)]
    have hup : { s with lt := s.upsertTable (.ofNat 48 (field F 6 6)) inIf }.Inv :=
      h.upsertTable (phase_live.mp hp).2 hm _ hi
    exact switchForward_sendsFit _ (s := { s.loadRx inIf F with lt := _, work := _ }) hup.ltIfs hmax

/-! ### One step -/

theorem malformedCfg_sendsFit (s : State) : SendsFit s (malformedCfg s) := sendsFit_quiet rfl

theorem rejectRecord_sendsFit (why : Illegal) (s : State) : SendsFit s (rejectRecord why s) := by
  obtain ⟨-, e⟩ | ⟨-, c, e⟩ := rejectRecord_cases why s
  · rw [e]; exact malformedCfg_sendsFit s
  · rw [e]; exact sendsFit_quiet rfl

theorem cfgCheck_sendsFit {s : State} {k : Outc} (hk : SendsFit s k) : SendsFit s (cfgCheck s k) := by
  obtain ⟨-, e⟩ | ⟨-, c, e⟩ := cfgCheck_cases s k
  · rw [e]; exact hk
  · rw [e]; exact sendsFit_quiet rfl

theorem execRx_sendsFit {s : State} (h : s.Inv) (inIf : IfIdx) (F : Bytes) : SendsFit s (exec (.rx inIf F) s) := by
  cases hm : s.mode with
  | router => rw [execRx_router_eq hm]; exact routerResult_sendsFit h inIf F
  | switch =>
    change SendsFit s (execRx inIf F s)
    rw [execRx, hm]
    exact switchRx_sendsFit h hm inIf F

theorem execTick_sendsFit (s : State) : SendsFit s (execTick s) := by
  unfold execTick
  split
  · dsimp only
    split
    · exact sendsFit_quiet rfl
    · exact sendsFit_quiet rfl
  · exact sendsFit_quiet rfl

theorem execSweepDel_sendsFit (k : Mac) (s : State) : SendsFit s (execSweepDel k s) := by
  unfold execSweepDel
  split
  · exact sendsFit_quiet rfl
  · exact sendsFit_quiet rfl

/-- Of the operations the OP port accepts, RX alone transmits. -/
theorem exec_sendsFit {s : State} (h : s.Inv) {i : Instr} (hi : i.internalOnly = false) : SendsFit s (exec i s) := by
  cases i with
  | cfgIface ifx mac ip =>
    refine cfgCheck_sendsFit ?_
    split
    · exact malformedCfg_sendsFit s
    · exact sendsFit_quiet rfl
  | cfgRoute dest mask gw ifx =>
    refine cfgCheck_sendsFit ?_
    split_ifs
    · exact malformedCfg_sendsFit s
    · exact malformedCfg_sendsFit s
    · exact malformedCfg_sendsFit s
    · exact sendsFit_quiet rfl
  | cfgArp ip mac =>
    refine cfgCheck_sendsFit ?_
    split_ifs
    · exact malformedCfg_sendsFit s
    · exact malformedCfg_sendsFit s
    · exact sendsFit_quiet rfl
  | cfgMode mode => exact cfgCheck_sendsFit (sendsFit_quiet rfl)
  | cfgCommit =>
    refine cfgCheck_sendsFit ?_
    split_ifs
    · exact malformedCfg_sendsFit s
    · exact sendsFit_quiet rfl
  | rx inIf frame => exact execRx_sendsFit h inIf frame
  | tick => exact execTick_sendsFit s
  | sweepDel | frameIpv4 | frameLocalTcp | frameLocalUdp | frameLocalEchoreq | frameLocalOther => cases hi
  | icmpTimeExceeded | icmpNetUnreach | icmpHostUnreach | icmpPortUnreach | icmpEchoReply => cases hi

theorem framePortStep_sendsFit {s : State} (h : s.Inv) : SendsFit s (framePortStep s) := by
  have hc : ∀ rest, (s.consume rest).Inv := fun rest => h.withPorts _ s.out
  unfold framePortStep
  split
  · rename_i rest hd
    split
    · exact rejectRecord_sendsFit (.undefinedOpcode 0) (s.consume rest)
    · rename_i hi
      exact exec_sendsFit (hc rest) (by simpa using hi)
  · exact rejectRecord_sendsFit _ (s.consume _)
  · exact sendsFit_quiet rfl

theorem step_sendsFit {s : State} (h : s.Inv) (hs : s.stage = .done) : SendsFit s (step s) := by
  have ports : ∀ e, { s with env := e }.Inv := fun e => h.withPorts e s.out
  obtain ⟨-, e⟩ | ⟨-, hn, -⟩ | ⟨-, -, e | ⟨gs, d, e⟩ | ⟨-, gs, d, e⟩ | ⟨k, -, gs, ks, d, e⟩⟩ := step_cases s
  · rw [e]; exact sendsFit_quiet rfl
  · exact absurd hs hn
  · rw [e]; exact sendsFit_quiet rfl
  · rw [e]; exact framePortStep_sendsFit (ports _)
  · rw [e]; exact execTick_sendsFit { s with env := _ }
  · rw [e]; exact execSweepDel_sendsFit k { s with env := _ }

/-- Settles O23: the frames a step has put out are the ones that joined (`step_sendsFit`). -/
theorem transmittedFramesFitAValidInterface : Obligations.TransmittedFramesFitAValidInterface := by
  intro s t h hs ht x hx
  obtain ⟨frames, htx, hfit⟩ := step_sendsFit h hs t ht
  rw [State.sent, htx, List.drop_left] at hx
  exact hfit x hx

end Sys2Proof.Machine
end

section
/-! The encodings (30_encoding.md): operation records both ways (R90 to R99), record lengths (R113), the classification of
received frames (R114) and illegal records (R115). -/

namespace Sys2Proof

/-! ## Fields of a string in parts -/

theorem field_cons (x : Byte) (r : Bytes) {a : Nat} (n : Nat) (h : 0 < a) : field (x :: r) a n = field r (a - 1) n := by
  obtain ⟨a, rfl⟩ := Nat.exists_eq_succ_of_ne_zero h.ne'
  exact field_cons_succ x r a n

/-- An operand at the head of a string is read back. -/
theorem field_operand {n w : Nat} (v : BitVec w) (R : Bytes) (hw : w = 8 * n) :
    field (beBytes n v.toNat ++ R) 0 n = v.toNat := by
  have hlt : v.toNat < 256 ^ n := v.isLt.trans_eq (by rw [hw, pow_mul]; rfl)
  have h : field ([] ++ (beBytes n v.toNat ++ R)) 0 n = beNat (beBytes n v.toNat) := field_after rfl (beBytes_length n _)
  rwa [beNat_beBytes, Nat.mod_eq_of_lt hlt] at h

theorem field_past {P : Bytes} {a : Nat} (Q : Bytes) (n : Nat) (h : P.length ≤ a) :
    field (P ++ Q) a n = field Q (a - P.length) n := by
  rw [field, span_append_right Q n h, field]

theorem field_zeros (n : Nat) : field (zeros n) 0 n = 0 := by
  rw [field, span_zero, List.take_of_length_le (by simp), beNat_zeros]

/-- A byte read and put back before what follows it. -/
theorem byte_cons_drop {F : Bytes} {x : Byte} (a : Nat) (h : a < F.length) (hx : BitVec.ofNat 8 (field F a 1) = x) :
    x :: F.drop (a + 1) = F.drop a := by
  have hd := List.drop_eq_getElem_cons h
  have hb : BitVec.ofNat 8 (field F a 1) = F[a] := by
    rw [field, span, hd]
    simp [-List.getElem_cons_drop]
  rw [hd, ← hx, hb]

/-- An operand of `n` bytes read and put back before what follows it. -/
theorem operand_append_drop {F : Bytes} {w : Nat} (a n : Nat) (h : a + n ≤ F.length) (hw : w = 8 * n) :
    beBytes n (BitVec.ofNat w (field F a n)).toNat ++ F.drop (a + n) = F.drop a := by
  have hlt : field F a n < 2 ^ w := by
    have := field_lt F a n
    rwa [hw, pow_mul]
  rw [BitVec.toNat_ofNat, Nat.mod_eq_of_lt hlt, ← span_eq_beBytes_field h, span, ← List.drop_drop,
    List.take_append_drop]

/-- A last field of value 0 is a run of zero bytes. -/
theorem zeros_eq_drop {F : Bytes} {a n : Nat} (hF : F.length = a + n) (h : field F a n = 0) : zeros n = F.drop a := by
  have hd : (F.drop a).length = n := by simp [hF]
  have hz := (beNat_eq_zero (span F a n)).mp h
  rw [span, List.take_of_length_le hd.le, hd] at hz
  exact hz.symm

/-! ## From an operation to its record and back -/

section Ctl

variable {i : Instr} (hrec : i.isRecord = true) (hrx : ∀ p F, i ≠ .rx p F)

include hrec hrx

/-- Every record but RX is a byte other than 0x10 and 15 more. -/
theorem encode_ctl_shape : ∃ op b, encode i = op :: b ∧ op ≠ 0x10 ∧ b.length = 15 := by
  cases i with
  | rx p F => exact absurd rfl (hrx p F)
  | cfgMode mode => cases mode <;> exact ⟨_, _, rfl, by decide, by simp⟩
  | cfgIface | cfgRoute | cfgArp | cfgCommit | tick | sweepDel => exact ⟨_, _, rfl, by decide, by simp⟩
  | frameIpv4 | frameLocalTcp | frameLocalUdp | frameLocalEchoreq | frameLocalOther => cases hrec
  | icmpTimeExceeded | icmpNetUnreach | icmpHostUnreach | icmpPortUnreach | icmpEchoReply => cases hrec

/-- Every operand of a 16-byte record is read where it was written, and its `rsv` bits are read as 0. -/
theorem decodeCtl_encode : decodeCtl (encode i) = .ok i := by
  cases i with
  | rx p F => exact absurd rfl (hrx p F)
  | cfgIface | cfgRoute | cfgArp | cfgCommit | tick | sweepDel =>
    simp [decodeCtl, encode, field_first, field_cons, field_operand, field_past, field_zeros]
  | cfgMode mode => cases mode <;> rfl
  | frameIpv4 | frameLocalTcp | frameLocalUdp | frameLocalEchoreq | frameLocalOther => cases hrec
  | icmpTimeExceeded | icmpNetUnreach | icmpHostUnreach | icmpPortUnreach | icmpEchoReply => cases hrec

end Ctl

theorem encode_rx (inIf : IfIdx) {hi lo : Byte} {F : Bytes} (h : F.length = hi.toNat * 256 + lo.toNat) :
    encode (.rx inIf F) = 0x10 :: inIf :: hi :: lo :: F := by
  have hlen : beBytes 2 F.length = [hi, lo] := by
    rw [h, ← beBytes_beNat [hi, lo]]
    simp
  rw [encode, hlen]
  rfl

/-- Settles O1: an RX record by `decodeRecord_rx`, every other by `decodeCtl_encode`. -/
theorem decodeOfEncodeIsTheInstruction : Obligations.DecodeOfEncodeIsTheInstruction := by
  intro i rest hrec hwf
  by_cases hrx : ∃ p F, i = .rx p F
  · obtain ⟨p, F, rfl⟩ := hrx
    have hlen : F.length < 65536 := by simpa [Instr.wellFormed] using hwf
    have h : F.length = (BitVec.ofNat 8 (F.length / 256)).toNat * 256 + (BitVec.ofNat 8 F.length).toNat := by
      simp only [BitVec.toNat_ofNat]
      omega
    rw [encode_rx p h]
    exact decodeRecord_rx p _ _ rest h
  · have hctl : ∀ p F, i ≠ .rx p F := fun p F e => hrx ⟨p, F, e⟩
    obtain ⟨op, b, he, hop, hb⟩ := encode_ctl_shape hrec hctl
    have hd := decodeCtl_encode hrec hctl
    rw [he] at hd ⊢
    rw [List.cons_append, decodeRecord_ctl rest hop hb, hd]

/-! ## What a 16-byte record is read as -/

/-- The opcodes R91 lists, but that of RX. -/
def ctlOpcodes : List Byte := [0x01, 0x02, 0x03, 0x04, 0x05, 0x20, 0x21]

/-- The record `r` of opcode `op` has no nonzero `rsv` bit (R93 to R97, R99). -/
def RsvClear (op : Byte) (r : Bytes) : Prop :=
  (op = 0x01 → field r 12 4 = 0) ∧ (op = 0x02 → field r 14 2 = 0) ∧
  (op = 0x03 → field r 1 1 = 0 ∧ field r 12 4 = 0) ∧ (op = 0x04 → field r 1 1 < 2 ∧ field r 2 14 = 0) ∧
  (op = 0x05 → field r 1 15 = 0) ∧ (op = 0x20 → field r 1 15 = 0) ∧
  (op = 0x21 → field r 1 1 = 0 ∧ field r 8 8 = 0)

/-- What a 16-byte record can be read as: the operation it encodes, or refused by one of the two names of R115. -/
inductive CtlReading (op : Byte) (r : Bytes) : Except Illegal Instr → Prop
  | operation {i : Instr} (hdef : op ∈ ctlOpcodes) (hrsv : RsvClear op r) (hrec : i.isRecord = true)
      (hwf : i.wellFormed = true) (henc : encode i = r) : CtlReading op r (.ok i)
  | reserved (hdef : op ∈ ctlOpcodes) (hrsv : ¬RsvClear op r) : CtlReading op r (.error (.reservedBits op))
  | undefined (hdef : op ∉ ctlOpcodes) : CtlReading op r (.error (.undefinedOpcode op))

/-- One defined opcode: the record is read as `i` exactly where its `rsv` bits are 0. -/
theorem CtlReading.of_rsv {op : Byte} {r : Bytes} {i : Instr} {p : Prop} [Decidable p] (hdef : op ∈ ctlOpcodes)
    (hp : RsvClear op r ↔ p) (hrec : i.isRecord = true) (hwf : i.wellFormed = true) (henc : p → encode i = r) :
    CtlReading op r (if p then .ok i else .error (.reservedBits op)) := by
  by_cases h : p
  · rw [if_pos h]
    exact .operation hdef (hp.mpr h) hrec hwf (henc h)
  · rw [if_neg h]
    exact .reserved hdef (mt hp.mp h)

theorem decodeCtl_undefined {op : Byte} (b : Bytes) (hdef : op ∉ ctlOpcodes) :
    decodeCtl (op :: b) = .error (.undefinedOpcode op) := by
  have hne : op.toNat ∉ [1, 2, 3, 4, 5, 0x20, 0x21] := by simpa [ctlOpcodes, BitVec.toNat_eq] using hdef
  simp only [List.mem_cons, List.not_mem_nil, or_false, not_or] at hne
  obtain ⟨h1, h2, h3, h4, h5, h20, h21⟩ := hne
  rw [decodeCtl, field_first, if_neg h1, if_neg h2, if_neg h3, if_neg h4, if_neg h5, if_neg h20, if_neg h21,
    BitVec.ofNat_toNat, BitVec.setWidth_eq]

/-! One lemma for each row: put back in their order, the fields read are the record, because its `rsv` bits are 0. -/

section Readings

variable {b : Bytes} (hb : b.length = 15)

include hb

theorem read_cfgIface : CtlReading 0x01 (0x01 :: b) (decodeCtl (0x01 :: b)) := by
  change CtlReading _ _ (if field _ 12 4 = 0 then _ else _)
  refine .of_rsv (by decide) (by simp [RsvClear]) rfl rfl fun hz => ?_
  have hr : (0x01 :: b).length = 16 := by simp [hb]
  rw [encode, zeros_eq_drop hr hz, List.append_assoc, operand_append_drop 8 4 (by omega) rfl,
    operand_append_drop 2 6 (by omega) rfl, byte_cons_drop 1 (by omega) rfl]
  rfl

theorem read_cfgRoute : CtlReading 0x02 (0x02 :: b) (decodeCtl (0x02 :: b)) := by
  change CtlReading _ _ (if field _ 14 2 = 0 then _ else _)
  refine .of_rsv (by decide) (by simp [RsvClear]) rfl rfl fun hz => ?_
  have hr : (0x02 :: b).length = 16 := by simp [hb]
  rw [encode, zeros_eq_drop hr hz, List.append_assoc, List.append_assoc, operand_append_drop 10 4 (by omega) rfl,
    operand_append_drop 6 4 (by omega) rfl, operand_append_drop 2 4 (by omega) rfl, byte_cons_drop 1 (by omega) rfl]
  rfl

theorem read_cfgArp : CtlReading 0x03 (0x03 :: b) (decodeCtl (0x03 :: b)) := by
  change CtlReading _ _ (if field _ 1 1 = 0 ∧ field _ 12 4 = 0 then _ else _)
  refine .of_rsv (by decide) (by simp [RsvClear]) rfl rfl fun ⟨h1, hz⟩ => ?_
  have hr : (0x03 :: b).length = 16 := by simp [hb]
  rw [encode, zeros_eq_drop hr hz, List.append_assoc, operand_append_drop 6 6 (by omega) rfl,
    operand_append_drop 2 4 (by omega) rfl, byte_cons_drop 1 (by omega) (by rw [h1]; rfl)]
  rfl

theorem read_cfgMode : CtlReading 0x04 (0x04 :: b) (decodeCtl (0x04 :: b)) := by
  have hr : (0x04 :: b).length = 16 := by simp [hb]
  have hrsv : RsvClear 0x04 (0x04 :: b) ↔ field (0x04 :: b) 1 1 < 2 ∧ field (0x04 :: b) 2 14 = 0 := by simp [RsvClear]
  change CtlReading _ _ (if field _ 1 1 = 0 ∧ field _ 2 14 = 0 then _ else _)
  by_cases h0 : field (0x04 :: b) 1 1 = 0 ∧ field (0x04 :: b) 2 14 = 0
  · rw [if_pos h0]
    obtain ⟨h1, hz⟩ := h0
    refine .operation (by decide) (hrsv.mpr ⟨by omega, hz⟩) rfl rfl ?_
    rw [encode, zeros_eq_drop hr hz, byte_cons_drop 1 (by omega) (by rw [h1]; rfl)]
    rfl
  · rw [if_neg h0]
    refine .of_rsv (by decide) (hrsv.trans (by omega)) rfl rfl fun ⟨h1, hz⟩ => ?_
    rw [encode, zeros_eq_drop hr hz, byte_cons_drop 1 (by omega) (by rw [h1]; rfl)]
    rfl

theorem read_cfgCommit : CtlReading 0x05 (0x05 :: b) (decodeCtl (0x05 :: b)) := by
  change CtlReading _ _ (if field _ 1 15 = 0 then _ else _)
  refine .of_rsv (by decide) (by simp [RsvClear]) rfl rfl fun hz => ?_
  rw [encode, zeros_eq_drop (by simp [hb]) hz]
  rfl

theorem read_tick : CtlReading 0x20 (0x20 :: b) (decodeCtl (0x20 :: b)) := by
  change CtlReading _ _ (if field _ 1 15 = 0 then _ else _)
  refine .of_rsv (by decide) (by simp [RsvClear]) rfl rfl fun hz => ?_
  rw [encode, zeros_eq_drop (by simp [hb]) hz]
  rfl

theorem read_sweepDel : CtlReading 0x21 (0x21 :: b) (decodeCtl (0x21 :: b)) := by
  change CtlReading _ _ (if field _ 1 1 = 0 ∧ field _ 8 8 = 0 then _ else _)
  refine .of_rsv (by decide) (by simp [RsvClear]) rfl rfl fun ⟨h1, hz⟩ => ?_
  have hr : (0x21 :: b).length = 16 := by simp [hb]
  rw [encode, zeros_eq_drop hr hz, operand_append_drop 2 6 (by omega) rfl, byte_cons_drop 1 (by omega) (by rw [h1]; rfl)]
  rfl

/-- A 16-byte record is read in one of the three ways. -/
theorem decodeCtl_reading (op : Byte) : CtlReading op (op :: b) (decodeCtl (op :: b)) := by
  by_cases hdef : op ∈ ctlOpcodes
  · simp only [ctlOpcodes, List.mem_cons, List.not_mem_nil, or_false] at hdef
    obtain rfl | rfl | rfl | rfl | rfl | rfl | rfl := hdef
    · exact read_cfgIface hb
    · exact read_cfgRoute hb
    · exact read_cfgArp hb
    · exact read_cfgMode hb
    · exact read_cfgCommit hb
    · exact read_tick hb
    · exact read_sweepDel hb
  · rw [decodeCtl_undefined b hdef]
    exact .undefined hdef

end Readings

/-! ## Records at the head of a stream -/

theorem recordLength_ctl {op : Byte} (t : Bytes) (h : op ≠ 0x10) : recordLength (op :: t) = 16 := by
  have hop : op.toNat ≠ 16 := fun e => h (BitVec.eq_of_toNat_eq e)
  rw [recordLength, field_first, if_neg hop]

theorem recordLength_rx (inIf hi lo : Byte) (t : Bytes) :
    recordLength (0x10 :: inIf :: hi :: lo :: t) = 4 + (hi.toNat * 256 + lo.toNat) := by
  have hop : field (0x10 :: inIf :: hi :: lo :: t) 0 1 = 0x10 := field_first _ _
  rw [recordLength, if_pos hop]
  simp [field, span]

/-- A stream is waited on exactly where it is shorter than its record. -/
theorem decodeRecord_incomplete_iff (b : Bytes) :
    decodeRecord b = .incomplete ↔ b.length < 4 ∨ b.length < recordLength b := by
  unfold decodeRecord
  by_cases h4 : b.length < 4
  · simp [h4]
  by_cases hlen : b.length < recordLength b
  · simp [hlen]
  rw [if_neg h4, if_neg hlen]
  split
  · simp [h4, hlen]
  · cases decodeCtl (b.take 16) <;> simp [h4, hlen]

/-- A stream that is not waited on begins with a whole record of one of the two formats. -/
theorem begins_with_record {b : Bytes} (h : decodeRecord b ≠ .incomplete) :
    (∃ inIf hi lo F rest, b = 0x10 :: inIf :: hi :: lo :: (F ++ rest) ∧ F.length = hi.toNat * 256 + lo.toNat) ∨
    (∃ op r rest, b = op :: (r ++ rest) ∧ op ≠ 0x10 ∧ r.length = 15) := by
  rw [Ne, decodeRecord_incomplete_iff, not_or, Nat.not_lt, Nat.not_lt] at h
  obtain ⟨h4, hlen⟩ := h
  match b, h4 with
  | op :: x :: y :: z :: t, _ =>
    by_cases hop : op = 0x10
    · subst hop
      rw [recordLength_rx] at hlen
      refine .inl ⟨x, y, z, t.take _, t.drop (y.toNat * 256 + z.toNat), by rw [List.take_append_drop], ?_⟩
      simp only [List.length_cons, List.length_take] at hlen ⊢
      omega
    · rw [recordLength_ctl _ hop] at hlen
      refine .inr ⟨op, (x :: y :: z :: t).take 15, (x :: y :: z :: t).drop 15, by rw [List.take_append_drop], hop, ?_⟩
      simp only [List.length_cons, List.length_take] at hlen ⊢
      omega

/-- Settles O2: an RX record is its encoding by `encode_rx`, a 16-byte one by what it can be read as. -/
theorem decodedRecordIsItsEncoding : Obligations.DecodedRecordIsItsEncoding := by
  intro b i rest h
  obtain ⟨p, hi, lo, F, rest', rfl, hF⟩ | ⟨op, r, rest', rfl, hop, hr⟩ := begins_with_record (b := b) (by simp [h])
  · rw [decodeRecord_rx p hi lo rest' hF] at h
    cases h
    refine ⟨rfl, ?_, by rw [encode_rx p hF]; rfl⟩
    rw [Instr.wellFormed, decide_eq_true_eq]
    omega
  · rw [decodeRecord_ctl rest' hop hr] at h
    have hread := decodeCtl_reading hr op
    cases hd : decodeCtl (op :: r) with
    | error why =>
      rw [hd] at h
      cases h
    | ok j =>
      rw [hd] at h hread
      cases h
      obtain ⟨-, -, hrec, hwf, henc⟩ := hread
      exact ⟨hrec, hwf, by rw [henc]; rfl⟩

/-- Settles O3: whole records by the lemma of their format, short ones by `decodeRecord_incomplete_iff`. -/
theorem recordLengthFollowsByteZero : Obligations.RecordLengthFollowsByteZero := by
  refine ⟨fun inIf hi lo F rest => decodeRecord_rx inIf hi lo rest, fun inIf hi lo F hF => ?_,
    fun op b rest hop hb => ?_, fun op b hop hb => ?_⟩
  · rw [decodeRecord_incomplete_iff, recordLength_rx]
    simp only [List.length_cons]
    omega
  · rw [decodeRecord_ctl rest hop hb]
    cases decodeCtl (op :: b) with
    | ok i => exact .inl ⟨i, rfl⟩
    | error why => exact .inr ⟨why, rfl⟩
  · rw [decodeRecord_incomplete_iff, recordLength_ctl b hop, List.length_cons]
    omega

/-- Settles O4: the three readings of a 16-byte record, which exclude each other. -/
theorem illegalRecordsAreRefusedByName : Obligations.IllegalRecordsAreRefusedByName := by
  intro op b rest hop hb
  have hread := decodeCtl_reading hb op
  dsimp only
  rw [List.cons_append, decodeRecord_ctl rest hop hb]
  generalize decodeCtl (op :: b) = d at hread
  cases hread with
  | operation hdef hrsv => exact ⟨fun h => absurd hdef h, fun _ h => absurd hrsv h, fun _ _ => ⟨_, rfl⟩⟩
  | reserved hdef hrsv => exact ⟨fun h => absurd hdef h, fun _ _ => rfl, fun _ h => absurd h hrsv⟩
  | undefined hdef => exact ⟨fun _ => rfl, fun h => absurd h hdef, fun h => absurd h hdef⟩

/-! ## The classification of received frames -/

theorem classifyEthertype_eq_some (et : Nat) (i : Instr) :
    classifyEthertype et = some i ↔ et = 0x0800 ∧ i = .frameIpv4 := by
  unfold classifyEthertype
  by_cases h : et = 0x0800
  · simp [h, eq_comm]
  · simp [h]

/-- Settles O6: level 1 by the one ethertype, levels 2 and 3 by the three tests in their order. -/
theorem frameClassesFollowTheThreeLevels : Obligations.FrameClassesFollowTheThreeLevels := by
  refine ⟨classifyEthertype_eq_some, fun proto pl first => ?_⟩
  unfold classifyLocal
  by_cases h6 : proto = 6
  · simp [h6, LocalClass.instr]
  by_cases h17 : proto = 17
  · simp [h17, LocalClass.instr]
  by_cases hecho : proto = 1 ∧ 4 ≤ pl ∧ first = 8
  · simp [hecho, LocalClass.instr]
  · simp [h6, h17, hecho, LocalClass.instr]

/-- Settles O7: each word is evaluated. -/
theorem sampleWordsDecode : Obligations.SampleWordsDecode := by
  refine ⟨?_, ?_, ?_, ?_, ?_, ?_, ?_, ?_, ?_⟩ <;> decide

namespace Machine

/-! ## The rest of the pipeline from a stage -/

/-- The class FRAME.IPV4 ends as the pseudocode of R214 decides from stage S1P on. -/
theorem exec_frameIpv4 (s : State) : exec .frameIpv4 s = .next (applyOutcome s s.rxb (fromS1P s s.rxIf s.rxb)) :=
  (stageS1P_eq { s with stage := .s1p }).trans (congrArg _ (applyOutcome_transient s _ _ _ _ _ _ _))

/-- Settles O50: the admission tests and the ethertype filter pass, so the decision of R214 is the one from S1P on. -/
theorem frameIpv4RunsTheRestOfThePipeline : Obligations.FrameIpv4RunsTheRestOfThePipeline := by
  rintro s ⟨hlive, hif, hmin, hmax⟩ het
  rw [exec_frameIpv4, routerResult, routerOutcome_eq, if_neg (by simp [hlive]), if_neg (by simp [hif]), if_neg (by omega),
    if_neg (by simp [het])]

/-! ## An RX operation met in the middle -/

/-- The working values stage S4 writes are none that the synthesizer reads. -/
theorem raiseIcmp_work (kind : IcmpKind) (s : State) (dst : Ip) (proto : Byte) :
    raiseIcmp kind { s with work := { s.work with dst := dst, proto := proto } } = raiseIcmp kind s := by
  rw [raiseIcmp_closed, raiseIcmp_closed]
  rfl

theorem deliverLocal_work (c : LocalClass) (s : State) (dst : Ip) (proto : Byte) :
    deliverLocal c { s with work := { s.work with dst := dst, proto := proto } } = exec c.instr s := by
  cases c with
  | tcp | udp => exact raiseIcmp_work .portUnreach s dst proto
  | echoReq => exact raiseIcmp_work .echoReply s dst proto
  | other => rfl

theorem exec_icmp (k : IcmpKind) (s : State) : exec k.instr s = raiseIcmp k s := by
  cases k <;> rfl

theorem memRead_eq_some {s : State} {a n v : Nat} (h : s.memRead a n = some v) :
    a + n ≤ s.rxb.length ∧ v = field s.rxb a n := by
  unfold State.memRead at h
  split at h
  · cases h
    exact ⟨‹_›, rfl⟩
  · cases h

theorem stageS1_runs_class {s : State} {et : Nat} {i : Instr} (hr : s.memRead 12 2 = some et)
    (hc : classifyEthertype et = some i) : stageS1 s = exec i s := by
  obtain ⟨hlen, rfl⟩ := memRead_eq_some hr
  obtain ⟨het, rfl⟩ := (classifyEthertype_eq_some _ _).mp hc
  rw [stageS1_eq hlen, exec_frameIpv4, if_neg (by simp [het])]

theorem withRead_some {s : State} {a n v : Nat} (h : s.memRead a n = some v) (k : Nat → Outc) : withRead s a n k = k v := by
  rw [withRead, h]

/-- The class of a datagram whose protocol byte has been read, in the terms of R206. -/
theorem withLocalClass_eq (s : State) (dst : Ip) {proto : Nat} (hp : proto < 256) (k : LocalClass → Outc) :
    withLocalClass { s with work := { s.work with dst := dst, proto := .ofNat 8 proto } } k =
      if proto = 1 ∧ 4 ≤ s.work.pl then
        withRead s (14 + s.work.hl) 1 fun first => k (classifyLocal proto s.work.pl first)
      else k (classifyLocal proto s.work.pl 0) := by
  have hproto : (BitVec.ofNat 8 proto).toNat = proto := Nat.mod_eq_of_lt hp
  have hone : BitVec.ofNat 8 proto = 1 ↔ proto = 1 := by rw [BitVec.toNat_eq, hproto]; rfl
  have hreads : readsIcmpType { s with work := { s.work with dst := dst, proto := .ofNat 8 proto } } = true ↔
      proto = 1 ∧ 4 ≤ s.work.pl := by
    simp only [readsIcmpType, Bool.and_eq_true, decide_eq_true_eq, hone]
    exact Iff.rfl
  rw [withLocalClass, hproto]
  exact if_congr hreads rfl rfl

/-- Stage S4 on a datagram for the router runs the row of its class, reading the ICMP type byte where R206 does. -/
theorem stageS4_local {s : State} {dst proto : Nat} (hdst : s.memRead 30 4 = some dst)
    (hproto : s.memRead 23 1 = some proto) (hlocal : s.isLocal (.ofNat 32 dst) = true) :
    stageS4 s =
      if proto = 1 ∧ 4 ≤ s.work.pl then
        withRead s (14 + s.work.hl) 1 fun first => exec (classifyLocal proto s.work.pl first).instr s
      else exec (classifyLocal proto s.work.pl 0).instr s := by
  have hlt : proto < 256 := by
    rw [(memRead_eq_some hproto).2]
    exact field_lt s.rxb 23 1
  have hread (w : Work) : State.memRead { s with work := w } 23 1 = some proto := hproto
  have hloc (w : Work) : State.isLocal { s with work := w } (.ofNat 32 dst) = true := hlocal
  rw [stageS4, withRead_some hdst]
  dsimp only
  rw [if_pos (hloc _), withRead_some (hread _), withLocalClass_eq s _ hlt]
  simp only [deliverLocal_work]

theorem stageS4_runs_class {s : State} {i : Instr} (hs : s.stage = .s4) (hi : s.stageInstr = some i) :
    stageS4 s = exec i s := by
  simp only [State.stageInstr, hs] at hi
  split at hi
  · rename_i dst proto hdst hproto
    split_ifs at hi with hlocal hreads
    · obtain ⟨first, hfirst, rfl⟩ := Option.map_eq_some_iff.mp hi
      rw [stageS4_local hdst hproto hlocal, if_pos hreads, withRead_some hfirst]
    · cases hi
      rw [stageS4_local hdst hproto hlocal, if_neg hreads]
  · cases hi
  · cases hi

/-- Where the frame decodes to a row of the opcode table, the stage does what that row means. -/
theorem stageStep_runs_class {s : State} {i : Instr} (hi : s.stageInstr = some i) : stageStep s = exec i s := by
  cases hs : s.stage with
  | s1 =>
    simp only [State.stageInstr, hs] at hi
    obtain ⟨et, hr, hc⟩ := Option.bind_eq_some_iff.mp hi
    rw [stageStep, hs]
    exact stageS1_runs_class hr hc
  | s4 =>
    rw [stageStep, hs]
    exact stageS4_runs_class hs hi
  | icmp =>
    simp only [State.stageInstr, hs] at hi
    cases hi
    rw [stageStep, hs]
    exact (exec_icmp s.work.icmp s).symm
  | s0 | s1p | s2 | s3 | s5 | s6 | s7 | s8 | done => simp [State.stageInstr, hs] at hi

theorem step_resumes {s : State} (hr : s.env.resetIn = false) (hs : s.stage ≠ .done) : step s = resume s := by
  rw [step, if_neg (by simp [hr]), if_neg hs]

/-- Settles O11: a step resumes the operation, and where a row is decoded the row and the stage agree. -/
theorem stepInTheMiddleRunsTheClassAndTheStage : Obligations.StepInTheMiddleRunsTheClassAndTheStage := by
  intro s hr hs
  rw [step_resumes hr hs, resume]
  cases hi : s.stageInstr with
  | none => exact ⟨fun _ h => (nomatch h), rfl⟩
  | some i =>
    refine ⟨fun j h => ?_, (stageStep_runs_class hi).symm⟩
    cases h
    rfl

/-! ## Illegal records -/

/-- R115 (b), (c): an illegal record that is no CFG.* record. -/
theorem illegalRecord_by_phase (u : State) :
    (u.phase = .config → illegalRecord u = malformedCfg u) ∧
    (u.phase ≠ .config → illegalRecord u = .next (u.result (Res.plain .illegalOp))) := by
  unfold illegalRecord
  cases u.phase with
  | config => exact ⟨fun _ => rfl, fun h => absurd rfl h⟩
  | live | failed => exact ⟨fun h => (nomatch h), fun _ => rfl⟩

/-- R140: the phase tests of a CFG.* operation. -/
theorem cfgCheck_by_phase (u : State) (k : Outc) :
    (u.phase = .config → cfgCheck u k = k) ∧
    (u.phase = .live → cfgCheck u k = .next (u.result (Res.plain .illegalOp))) ∧
    (u.phase = .failed → cfgCheck u k = .next (u.result (Res.plain .cfgFailed))) := by
  unfold cfgCheck
  exact ⟨fun h => by rw [h], fun h => by rw [h], fun h => by rw [h]⟩

/-- The frame port answers a record the decoder refuses with the record consumed. -/
theorem framePortStep_illegal {s : State} {why : Illegal} {rest : Bytes}
    (hd : decodeRecord s.env.opPort = .illegal why rest) : framePortStep s = rejectRecord why (s.consume rest) := by
  rw [framePortStep, hd]

/-- SWEEP.DEL is an illegal record at the OP port (R91). -/
theorem framePortStep_sweepDel {s : State} {k : Mac} {rest : Bytes}
    (hd : decodeRecord s.env.opPort = .record (.sweepDel k) rest) : framePortStep s = illegalRecord (s.consume rest) := by
  rw [framePortStep, hd]
  rfl

theorem rejectRecord_reserved_cfg {op : Byte} (hop : op ∈ [0x01, 0x02, 0x03, 0x04, 0x05]) (s : State) :
    rejectRecord (.reservedBits op) s = cfgCheck s (malformedCfg s) := by
  have hcfg : ∀ x ∈ ([0x01, 0x02, 0x03, 0x04, 0x05] : List Byte), isCfgOpcode x = true := by decide
  rw [rejectRecord, if_pos (hcfg op hop)]

theorem rejectRecord_reserved_other {op : Byte} (hop : op ∈ [0x20, 0x21]) (s : State) :
    rejectRecord (.reservedBits op) s = illegalRecord s := by
  have hcfg : ∀ x ∈ ([0x20, 0x21] : List Byte), isCfgOpcode x = false := by decide
  rw [rejectRecord, if_neg (by rw [hcfg op hop]; exact Bool.false_ne_true)]

/-- Settles O12: each record meets `illegalRecord` or the phase tests of `cfgCheck`, on the record that was there before the
grant (`grant_opPort`). -/
theorem illegalRecordsAnswerByPhase : Obligations.IllegalRecordsAnswerByPhase := by
  intro s answers
  have port : ∀ e : Env, e.opPort = s.env.opPort → answers { s with env := e } (framePortStep { s with env := e }) := by
    intro e he rest
    dsimp only
    rw [← he]
    refine ⟨fun op hd => ?_, fun op hd hop => ?_, fun op hd hop => ?_, fun k hd => ?_⟩
    · rw [framePortStep_illegal (s := { s with env := e }) hd]
      exact illegalRecord_by_phase (State.consume { s with env := e } rest)
    · rw [framePortStep_illegal (s := { s with env := e }) hd, rejectRecord_reserved_other hop]
      exact illegalRecord_by_phase (State.consume { s with env := e } rest)
    · rw [framePortStep_illegal (s := { s with env := e }) hd, rejectRecord_reserved_cfg hop]
      exact cfgCheck_by_phase (State.consume { s with env := e } rest) _
    · rw [framePortStep_sweepDel (s := { s with env := e }) hd]
      exact illegalRecord_by_phase (State.consume { s with env := e } rest)
  have granted : s.env.resetIn = false → s.stage = .done →
      ∀ e, s.grant = some (.framePort, e) → answers { s with env := e } (step s) := by
    intro hr hs e hg
    rw [step_framePort hr hs hg]
    exact port e (grant_opPort hg)
  refine ⟨port s.env rfl, fun hr hs => ⟨granted hr hs, fun hv ht => ?_⟩⟩
  by_cases hd : decodeRecord s.env.opPort = .incomplete
  · intro rest
    simp [hd]
  · exact granted hr hs s.env (grant_framePort_alone hv ht hd)

end Machine
end Sys2Proof
end

section
/-! The configuration operations (40_config_ops.md): the five CFG.* operations in every phase (R140 to R150) and the masks
`contiguous` accepts (R145).

In phases LIVE and FAILED every operation answers by `cfgCheck_by_phase`. In phase CONFIG the operation's own tests are
left. -/

namespace Sys2Proof.Machine

/-! ## Interface slots -/

theorem ifSlot_set_same {s : State} {i : IfIdx} (slot : IfSlot) (h : i.toNat < s.ifs.length) :
    ({ s with ifs := s.ifs.set i.toNat slot } : State).ifSlot i = slot := by
  simp [State.ifSlot, h]

theorem ifSlot_set_other {s : State} {i j : IfIdx} (slot : IfSlot) (h : j ≠ i) :
    ({ s with ifs := s.ifs.set i.toNat slot } : State).ifSlot j = s.ifSlot j := by
  have hne : i.toNat ≠ j.toNat := fun e => h (BitVec.eq_of_toNat_eq e.symm)
  simp [State.ifSlot, List.getElem?_set_ne hne]

/-! ## The operations in every phase -/

/-- Settles O24: the slot written is read back by `ifSlot_set_same`, every other one by `ifSlot_set_other`. -/
theorem cfgIfaceWritesOneFreshSlot : Obligations.CfgIfaceWritesOneFreshSlot := by
  intro s ifx mac ip
  obtain ⟨hconfig, hlive, hfailed⟩ := cfgCheck_by_phase s _
  refine ⟨hlive, hfailed, fun hp hbad => (hconfig hp).trans (if_pos hbad), fun hp hifx hfresh hlen => ?_⟩
  have hgood : ¬(s.par.nIf ≤ ifx.toNat ∨ (s.ifSlot ifx).valid = true) := by simp [hifx, hfresh]
  exact ⟨_, (hconfig hp).trans (if_neg hgood), rfl, List.length_set.trans hlen, ifSlot_set_same _ (hlen ▸ hifx),
    fun j => ifSlot_set_other _⟩

/-- Settles O25: the three tests of R144, in their order. -/
theorem cfgRouteAppendsOneEntry : Obligations.CfgRouteAppendsOneEntry := by
  intro s dest mask gw ifx
  obtain ⟨hconfig, hlive, hfailed⟩ := cfgCheck_by_phase s _
  refine ⟨hlive, hfailed, fun hp hbad => (hconfig hp).trans ?_, fun hp hroom hmask hifx => (hconfig hp).trans ?_⟩
  · split_ifs with hfull hmask hifx
    · rfl
    · rfl
    · rfl
    · exact absurd hbad (by simp [hfull, hmask, hifx])
  · rw [if_neg (Nat.not_le.mpr hroom), if_neg (by simp [hmask]), if_neg (Nat.not_le.mpr hifx)]

/-- Settles O26: the two tests of R147 and R148, in their order. -/
theorem cfgArpAppendsOneFreshKey : Obligations.CfgArpAppendsOneFreshKey := by
  intro s ip mac
  obtain ⟨hconfig, hlive, hfailed⟩ := cfgCheck_by_phase s _
  have hdup : s.arp.any (fun e => decide (e.ip = ip)) = true ↔ ∃ e ∈ s.arp, e.ip = ip := by simp
  refine ⟨hlive, hfailed, fun hp hbad => (hconfig hp).trans ?_, fun hp hroom hkey => (hconfig hp).trans ?_⟩
  · obtain hfull | hkey := hbad
    · rw [if_pos hfull]
      rfl
    · rw [if_pos (hdup.mpr hkey), ite_self]
      rfl
  · have hfresh : ¬∃ e ∈ s.arp, e.ip = ip := fun ⟨e, he, hip⟩ => hkey e he hip
    rw [if_neg (Nat.not_le.mpr hroom), if_neg (hdup.not.mpr hfresh)]

/-- Settles O27: the operation tests nothing but the phase. -/
theorem cfgModeSelectsThePersonality : Obligations.CfgModeSelectsThePersonality := by
  intro s m
  obtain ⟨hconfig, hlive, hfailed⟩ := cfgCheck_by_phase s _
  exact ⟨hlive, hfailed, hconfig⟩

/-- Settles O28: the test over the routes loaded (R150). -/
theorem cfgCommitGoesLive : Obligations.CfgCommitGoesLive := by
  intro s
  obtain ⟨hconfig, hlive, hfailed⟩ := cfgCheck_by_phase s _
  refine ⟨hlive, hfailed, fun hp hbad => (hconfig hp).trans (if_pos ?_), fun hp hall => (hconfig hp).trans (if_neg ?_)⟩
  · simpa using hbad
  · simpa using hall

/-! ## Contiguous masks

`x & (x + 1) = 0` holds where `x + 1` is a power of two. For `x = ~mask`, `x + 1 = 2^32 - mask`. -/

theorem and_add_one_eq_zero_iff {w : Nat} (x : BitVec w) : x &&& (x + 1) = 0 ↔ ∃ k, x.toNat + 1 = 2 ^ k := by
  have hsucc : (x + 1).toNat = (x.toNat + 1) % 2 ^ w := by simp
  have hand : (x &&& (x + 1)).toNat = (x.toNat + 1) &&& x.toNat := by
    calc (x &&& (x + 1)).toNat = x.toNat % 2 ^ w &&& (x.toNat + 1) % 2 ^ w := by
          rw [BitVec.toNat_and, hsucc, Nat.mod_eq_of_lt x.isLt]
      _ = x.toNat &&& (x.toNat + 1) := by
          rw [← Nat.and_mod_two_pow, Nat.mod_eq_of_lt (Nat.and_le_left.trans_lt x.isLt)]
      _ = (x.toNat + 1) &&& x.toNat := Nat.and_comm ..
  calc x &&& (x + 1) = 0 ↔ (x.toNat + 1) &&& (x.toNat + 1 - 1) = 0 := by
        rw [← BitVec.toNat_inj, hand]; simp
    _ ↔ ∃ k, x.toNat + 1 = 2 ^ k := Nat.and_sub_one_eq_zero_iff_isPowerOfTwo (Nat.succ_ne_zero _)

/-- The mask of length `n` falls short of `2^32` by the number of addresses it groups. -/
theorem prefixMask_toNat_add (n : Nat) : (prefixMask n).toNat + 2 ^ (32 - n) = 2 ^ 32 := by
  have hle : 2 ^ (32 - n) ≤ 2 ^ 32 := Nat.pow_le_pow_right (by decide) (Nat.sub_le ..)
  have hpos : 0 < 2 ^ (32 - n) := Nat.two_pow_pos _
  have hmask : (prefixMask n).toNat = 2 ^ 32 - 2 ^ (32 - n) := Nat.mod_eq_of_lt (Nat.sub_lt (by decide) hpos)
  rw [hmask, Nat.sub_add_cancel hle]

/-- `contiguous` accepts the 33 values of R145 and no other. -/
theorem contiguous_iff_prefixMask (m : Ip) : contiguous m = true ↔ ∃ n ≤ 32, m = prefixMask n := by
  have hm := m.isLt
  have hnot : (~~~m).toNat + 1 = 2 ^ 32 - m.toNat := by
    rw [BitVec.toNat_not]
    omega
  rw [contiguous, decide_eq_true_iff, and_add_one_eq_zero_iff, hnot]
  constructor
  · rintro ⟨k, hk⟩
    have hk32 : k ≤ 32 := (Nat.pow_le_pow_iff_right (by decide : 1 < 2)).mp (hk ▸ Nat.sub_le ..)
    have hmask := prefixMask_toNat_add (32 - k)
    rw [Nat.sub_sub_self hk32] at hmask
    exact ⟨32 - k, Nat.sub_le .., BitVec.eq_of_toNat_eq (by omega)⟩
  · rintro ⟨n, -, rfl⟩
    exact ⟨32 - n, Nat.sub_eq_of_eq_add' (prefixMask_toNat_add n).symm⟩

theorem prefixMask_lt_iff {a b : Nat} (ha : a ≤ 32) (hb : b ≤ 32) : prefixMask b < prefixMask a ↔ b < a := by
  have hma := prefixMask_toNat_add a
  have hmb := prefixMask_toNat_add b
  calc prefixMask b < prefixMask a ↔ (prefixMask b).toNat < (prefixMask a).toNat := BitVec.lt_def
    _ ↔ 2 ^ (32 - a) < 2 ^ (32 - b) := by omega
    _ ↔ 32 - a < 32 - b := Nat.pow_lt_pow_iff_right (by decide)
    _ ↔ b < a := by omega

/-- Settles O29: `contiguous_iff_prefixMask`, `prefixMask_lt_iff` and the refusal of O25. -/
theorem contiguousMasksArePrefixMasks : Obligations.ContiguousMasksArePrefixMasks := by
  refine ⟨fun m => ?_, fun m => decide_eq_true_iff, fun a b => prefixMask_lt_iff, fun s dest m gw ifx hp hm => ?_⟩
  · have hmod (n : Nat) : BitVec.ofNat 32 ((2 ^ 32 - 2 ^ (32 - n)) % 2 ^ 32) = prefixMask n :=
      BitVec.eq_of_toNat_eq (Nat.mod_mod ..)
    simpa only [hmod] using contiguous_iff_prefixMask m
  · obtain ⟨-, -, hrefused, -⟩ := cfgRouteAppendsOneEntry s dest m gw ifx
    exact hrefused hp (.inr (.inl hm))

end Sys2Proof.Machine
end

section
/-! The lookup functions (41_route_arp_lookup.md): the route RT_LOOKUP answers (R160 to R164), the unique entry of ARP_LOOKUP
(R166), the chain of RESOLVE (R169) and the valid slots behind IS_LOCAL (R170). -/

namespace Sys2Proof.Machine

/-! ## RT_LOOKUP -/

theorem covers_iff {e : RouteEntry} {a : Ip} : e.covers a = true ↔ (e.dest &&& e.mask) = (a &&& e.mask) :=
  decide_eq_true_iff

/-- `e` is the first loaded of the entries of greatest mask among those that match `a` (R161, R162). -/
def FirstGreatestMatch (rt : List RouteEntry) (a : Ip) (e : RouteEntry) : Prop :=
  ∃ pre post, rt = pre ++ e :: post ∧ (e.dest &&& e.mask) = (a &&& e.mask) ∧
    (∀ x ∈ pre, (x.dest &&& x.mask) = (a &&& x.mask) → x.mask < e.mask) ∧
    (∀ x ∈ post, (x.dest &&& x.mask) = (a &&& x.mask) → x.mask ≤ e.mask)

theorem FirstGreatestMatch.covers {rt : List RouteEntry} {a : Ip} {e : RouteEntry} (h : FirstGreatestMatch rt a e) :
    (e.dest &&& e.mask) = (a &&& e.mask) := by
  obtain ⟨-, -, -, hm, -⟩ := h
  exact hm

/-- The elements at two places of a list are one and the same, or one stands before the other. -/
theorem append_cons_eq_cases {α : Type} {pre pre' post post' : List α} {e e' : α}
    (h : pre ++ e :: post = pre' ++ e' :: post') :
    e = e' ∨ (e ∈ pre' ∧ e' ∈ post) ∨ (e' ∈ pre ∧ e ∈ post') := by
  obtain ⟨as, rfl, htail⟩ | ⟨as, rfl, htail⟩ := List.append_eq_append_iff.mp h
  · obtain ⟨-, hhead⟩ | ⟨as, rfl, rfl⟩ := List.cons_eq_append_iff.mp htail
    · exact .inl (List.head_eq_of_cons_eq hhead).symm
    · exact .inr (.inl (by simp))
  · obtain ⟨-, hhead⟩ | ⟨as, rfl, rfl⟩ := List.cons_eq_append_iff.mp htail
    · exact .inl (List.head_eq_of_cons_eq hhead)
    · exact .inr (.inr (by simp))

/-- Of two such entries neither stands before the other: the later would have the strictly greater mask, and one no greater. -/
theorem FirstGreatestMatch.unique {rt : List RouteEntry} {a : Ip} {e e' : RouteEntry}
    (h : FirstGreatestMatch rt a e) (h' : FirstGreatestMatch rt a e') : e = e' := by
  obtain ⟨pre, post, rfl, hm, hpre, hpost⟩ := h
  obtain ⟨pre', post', hrt, hm', hpre', hpost'⟩ := h'
  obtain heq | ⟨he, he'⟩ | ⟨he', he⟩ := append_cons_eq_cases hrt
  · exact heq
  · exact absurd (hpre' e he hm) (BitVec.not_lt.mpr (hpost e' he' hm'))
  · exact absurd (hpre e' he' hm') (BitVec.not_lt.mpr (hpost' e he hm))

theorem FirstGreatestMatch.mask_le {rt : List RouteEntry} {a : Ip} {e x : RouteEntry}
    (h : FirstGreatestMatch rt a e) (hx : x ∈ rt) (hm : (x.dest &&& x.mask) = (a &&& x.mask)) : x.mask ≤ e.mask := by
  obtain ⟨pre, post, rfl, -, hpre, hpost⟩ := h
  obtain hx | rfl | hx : x ∈ pre ∨ x = e ∨ x ∈ post := by simpa using hx
  · exact BitVec.le_of_lt (hpre x hx hm)
  · exact BitVec.le_refl _
  · exact hpost x hx hm

/-- The two answers of RT_LOOKUP, in the terms of R160 to R163. -/
theorem rtLookup_spec (rt : List RouteEntry) (a : Ip) :
    (rtLookup rt a = none ∧ ∀ x ∈ rt, (x.dest &&& x.mask) ≠ (a &&& x.mask)) ∨
    ∃ e ∈ rt, rtLookup rt a = some e ∧ FirstGreatestMatch rt a e := by
  obtain ⟨hnone, hall⟩ | ⟨pre, e, post, hrt, hsome, hm, hpre, hpost⟩ := rtLookup_cases rt a
  · exact .inl ⟨hnone, fun x hx hm => absurd (covers_iff.mpr hm) (by simp [hall x hx])⟩
  · simp only [covers_iff] at hm hpre hpost
    exact .inr ⟨e, rtLookup_mem hsome, hsome, pre, post, hrt, hm, hpre, hpost⟩

theorem rtLookup_none_iff {rt : List RouteEntry} {a : Ip} :
    rtLookup rt a = none ↔ ∀ x ∈ rt, (x.dest &&& x.mask) ≠ (a &&& x.mask) := by
  obtain ⟨hnone, hall⟩ | ⟨e, he, hsome, hfirst⟩ := rtLookup_spec rt a
  · exact iff_of_true hnone hall
  · exact iff_of_false (by simp [hsome]) fun hall => hall e he hfirst.covers

theorem rtLookup_some_iff {rt : List RouteEntry} {a : Ip} {e : RouteEntry} :
    rtLookup rt a = some e ↔ FirstGreatestMatch rt a e := by
  obtain ⟨hnone, hall⟩ | ⟨e', -, hsome, hfirst⟩ := rtLookup_spec rt a
  · refine iff_of_false (by simp [hnone]) ?_
    rintro ⟨pre, post, rfl, hm, -⟩
    exact hall e (by simp) hm
  · rw [hsome, Option.some_inj]
    exact ⟨fun h => h ▸ hfirst, hfirst.unique⟩

/-- Settles O30: `rtLookup_none_iff`, `rtLookup_some_iff`, and the order of masks is that of lengths by
`prefixMask_lt_iff`. -/
theorem routeLookupIsLongestPrefixMatch : Obligations.RouteLookupIsLongestPrefixMatch := by
  intro rt a
  refine ⟨rtLookup_none_iff, fun e => rtLookup_some_iff, fun e he x hx hm => ?_⟩
  have hfirst := rtLookup_some_iff.mp he
  refine ⟨fun n k hn hk hen hxk => ?_, fun hmask => ?_⟩
  · have hle : prefixMask k ≤ prefixMask n := hen ▸ hxk ▸ hfirst.mask_le hx hm
    exact Nat.not_lt.mp fun hlt => BitVec.not_lt.mpr hle ((prefixMask_lt_iff hk hn).mpr hlt)
  · calc x.dest &&& x.mask = a &&& x.mask := hm
      _ = a &&& e.mask := by rw [hmask]
      _ = e.dest &&& e.mask := hfirst.covers.symm

/-! ## ARP_LOOKUP -/

theorem arpLookup_of_mem {arp : List ArpEntry} {e : ArpEntry} (hkeys : arp.Pairwise fun e f => e.ip ≠ f.ip)
    (he : e ∈ arp) : arpLookup arp e.ip = some e.mac := by
  induction arp with
  | nil => simp at he
  | cons y rest ih =>
    obtain ⟨hy, hrest⟩ := List.pairwise_cons.mp hkeys
    obtain rfl | he := List.mem_cons.mp he
    · exact if_pos rfl
    · exact (if_neg (hy e he)).trans (ih hrest he)

/-- Settles O31: `arpLookup_mem` and, the keys being unique, its converse `arpLookup_of_mem`. -/
theorem arpLookupFindsTheUniqueEntry : Obligations.ArpLookupFindsTheUniqueEntry := by
  intro arp a hkeys
  refine ⟨fun m => ⟨fun h => ?_, arpLookup_of_mem hkeys⟩, arpLookup_none⟩
  obtain ⟨e, he, rfl, rfl⟩ := arpLookup_mem h
  exact he

/-! ## RESOLVE -/

/-- Settles O32: the chain link by link; the next hop is `nextHop` with its test the other way round (R168). -/
theorem resolveIsTheRouteGatewayArpChain : Obligations.ResolveIsTheRouteGatewayArpChain := by
  intro s a
  refine ⟨fun hr => by simp [State.resolve, hr], fun r hr nh hnh => ?_⟩
  have hnext : nextHop r a = nh := by rw [hnh, nextHop, ite_not]
  exact ⟨fun hm => by simp [State.resolve, hr, hnext, hm], fun m hm => by simp [State.resolve, hr, hnext, hm]⟩

/-! ## IS_LOCAL -/

theorem ifSlot_mem {s : State} {i : IfIdx} (h : i.toNat < s.ifs.length) : s.ifSlot i ∈ s.ifs := by
  rw [State.ifSlot, ← List.getElem_eq_getD (h := h)]
  exact List.getElem_mem h

/-- Every slot has an interface index where there are no more than 8 bits can name. -/
theorem exists_ifSlot_eq {s : State} {f : IfSlot} (hlen : s.ifs.length ≤ 2 ^ 8) (hf : f ∈ s.ifs) :
    ∃ i : IfIdx, i.toNat < s.ifs.length ∧ s.ifSlot i = f := by
  obtain ⟨n, hn, rfl⟩ := List.getElem_of_mem hf
  have hi : (BitVec.ofNat 8 n).toNat = n := Nat.mod_eq_of_lt (hn.trans_le hlen)
  exact ⟨.ofNat 8 n, by rwa [hi], by rw [State.ifSlot, hi, List.getElem_eq_getD]⟩

/-- Settles O33: the slots of IF are those `ifSlot` names below N_IF. -/
theorem localMeansSomeValidInterface : Obligations.LocalMeansSomeValidInterface := by
  intro s a hlen hmax
  calc s.isLocal a = true ↔ ∃ f ∈ s.ifs, f.valid = true ∧ f.ip = a := by simp [State.isLocal]
    _ ↔ ∃ i : IfIdx, s.ifValid i = true ∧ (s.ifSlot i).ip = a := ?_
  constructor
  · rintro ⟨f, hf, hvalid, hip⟩
    obtain ⟨i, hi, rfl⟩ := exists_ifSlot_eq (by omega) hf
    exact ⟨i, by simp [State.ifValid, ← hlen, hi, hvalid], hip⟩
  · rintro ⟨i, hi, hip⟩
    obtain ⟨hlt, hvalid⟩ : i.toNat < s.par.nIf ∧ (s.ifSlot i).valid = true := by simpa [State.ifValid] using hi
    exact ⟨_, ifSlot_mem (hlen ▸ hlt), hvalid, hip⟩

end Sys2Proof.Machine
end

section
/-! The checksums (42_checksum_ttl.md): what the fold of CSUM16 leaves (R180, R181), the validation of a header (R182, R183)
and the two forms of the checksum after the TTL decrement (R187, R188). -/

namespace Sys2Proof.Machine

/-! ## The fold -/

/-- Two nonzero sums of one residue fold to one value: the residue's representative in 1 .. 0xFFFF. -/
theorem carryFold_congr {s t : Nat} (hs : s ≠ 0) (ht : t ≠ 0) (h : s % 0xFFFF = t % 0xFFFF) :
    carryFold s s = carryFold t t := by
  rw [carryFold_closed s s (by omega), carryFold_closed t t (by omega), if_neg hs, if_neg ht]
  omega

theorem foldedSum_mod (B : Bytes) : foldedSum B % 0xFFFF = sumWords B % 0xFFFF := by
  rw [foldedSum_closed]; split <;> omega

theorem foldedSum_eq_zero (B : Bytes) : foldedSum B = 0 ↔ sumWords B = 0 := by
  rw [foldedSum_closed]; split <;> omega

theorem csum16_eq_allOnes (B : Bytes) : csum16 B = 0xFFFF ↔ sumWords B = 0 := by
  have hle := foldedSum_le B
  calc csum16 B = 0xFFFF ↔ 0xFFFF - foldedSum B = 0xFFFF := by rw [← BitVec.toNat_inj, csum16_toNat]; rfl
    _ ↔ foldedSum B = 0 := by omega
    _ ↔ sumWords B = 0 := foldedSum_eq_zero B

/-- Settles O34: the fold's closed form, and a sum of words is 0 only where every byte is (`sumWords_eq_zero`). -/
theorem foldedSumIsTheResidue : Obligations.FoldedSumIsTheResidue := fun B =>
  ⟨foldedSum_le B, foldedSum_mod B, (foldedSum_eq_zero B).trans (sumWords_eq_zero B),
    (csum16_eq_allOnes B).trans (sumWords_eq_zero B)⟩

/-- Settles O35: `foldedSum_stored`, its concatenations bracketed the other way. -/
theorem storedChecksumSumsToAllOnes : Obligations.StoredChecksumSumsToAllOnes := fun P Q hP => by
  simpa only [List.append_assoc] using foldedSum_stored P Q hP

/-! ## The word sum of a string with one word written -/

/-- The word sum, with the word at an even offset set apart. -/
theorem sumWords_eq_around {b : Bytes} {a : Nat} (heven : a % 2 = 0) (h : a + 2 ≤ b.length) :
    sumWords b = sumWords (span b 0 a) + field b a 2 + sumWords (span b (a + 2) b.length) := by
  have hsplit : span b 0 a ++ (span b a 2 ++ span b (a + 2) b.length) = b := by
    have hwhole : span b 0 (a + (2 + b.length)) = b := by rw [span_zero, List.take_of_length_le (by omega)]
    rwa [span_split, span_split, Nat.zero_add] at hwhole
  have hword : sumWords (span b a 2) = field b a 2 := by
    rw [span_eq_beBytes_field h, sumWords_beBytes_two _ (field_lt b a 2)]
  have hpre : (span b 0 a).length = a := span_length_of_le (by omega)
  have hmid : (span b a 2).length = 2 := span_length_of_le h
  conv_lhs => rw [← hsplit, sumWords_append _ _ (by omega), sumWords_append _ _ (by omega), hword]
  omega

theorem field_le_sumWords {b : Bytes} {a : Nat} (heven : a % 2 = 0) (h : a + 2 ≤ b.length) :
    field b a 2 ≤ sumWords b := by
  have := sumWords_eq_around heven h
  omega

theorem field_two {b : Bytes} {a : Nat} (h : a + 2 ≤ b.length) :
    field b a 2 = field b a 1 * 256 + field b (a + 1) 1 := by
  have hlow : (span b (a + 1) 1).length = 1 := span_length_of_le (by omega)
  simp only [field, span_split b a 1 1, beNat_append, hlow, pow_one]

theorem field_memWrite_before {b : Bytes} {a n c m : Nat} (v : Nat) (h : a + n ≤ b.length) (hc : c + m ≤ a) :
    field (memWrite b a n v) c m = field b c m := congrArg beNat (span_memWrite_before v h hc)

theorem field_memWrite_after {b : Bytes} {a n c : Nat} (m v : Nat) (h : a + n ≤ b.length) (hc : a + n ≤ c) :
    field (memWrite b a n v) c m = field b c m := congrArg beNat (span_memWrite_after m v h hc)

/-- A write within a word changes the word sum by what it changes that word by. -/
theorem sumWords_memWrite {b : Bytes} {a n : Nat} (v : Nat) (heven : a % 2 = 0) (hn : n ≤ 2) (h : a + 2 ≤ b.length) :
    sumWords (memWrite b a n v) + field b a 2 = sumWords b + field (memWrite b a n v) a 2 := by
  have hin : a + n ≤ b.length := by omega
  have hlen := memWrite_length v hin
  have hafter := sumWords_eq_around (b := memWrite b a n v) heven (by omega)
  rw [hlen, span_memWrite_before v hin (by omega), span_memWrite_after b.length v hin (by omega)] at hafter
  have hbefore := sumWords_eq_around heven h
  omega

theorem sumWords_memWrite_word {b : Bytes} {a v : Nat} (heven : a % 2 = 0) (h : a + 2 ≤ b.length) (hv : v < 0x10000) :
    sumWords (memWrite b a 2 v) + field b a 2 = sumWords b + v := by
  rw [sumWords_memWrite v heven le_rfl h, field_memWrite_same v h]
  omega

/-- Writing the high byte of a word, as the TTL is of its word. -/
theorem sumWords_memWrite_high {b : Bytes} {a v : Nat} (heven : a % 2 = 0) (h : a + 2 ≤ b.length) (hv : v < 0x100) :
    sumWords (memWrite b a 1 v) + field b a 1 * 256 = sumWords b + v * 256 := by
  have hin : a + 1 ≤ b.length := by omega
  have hsum := sumWords_memWrite v heven (Nat.le_succ 1) h
  rw [field_two h, field_two (by rwa [memWrite_length v hin]), field_memWrite_after 1 v hin le_rfl,
    field_memWrite_same v hin, pow_one, Nat.mod_eq_of_lt hv, ← Nat.add_assoc, ← Nat.add_assoc] at hsum
  exact Nat.add_right_cancel hsum

/-! ## Headers -/

theorem sumWords_checksum_zeroed {H : Bytes} (h : 20 ≤ H.length) :
    sumWords (memWrite H 10 2 0) + field H 10 2 = sumWords H := by
  rw [sumWords_memWrite_word rfl (by omega) (by omega), Nat.add_zero]

/-- A header with a nonzero first word keeps it where the checksum field is zeroed. -/
theorem sumWords_checksum_zeroed_ne_zero {H : Bytes} (h : 20 ≤ H.length) (h0 : field H 0 2 ≠ 0) :
    sumWords (memWrite H 10 2 0) ≠ 0 := by
  have hkept : field (memWrite H 10 2 0) 0 2 = field H 0 2 :=
    field_memWrite_before 0 (by omega) (by omega)
  have hle : field (memWrite H 10 2 0) 0 2 ≤ sumWords (memWrite H 10 2 0) :=
    field_le_sumWords rfl (by rw [memWrite_length 0 (by omega)]; omega)
  omega

theorem ipv4CsumOk_iff {H : Bytes} {c : Half} : ipv4CsumOk H c = true ↔ csum16 (memWrite H 10 2 0) = c :=
  decide_eq_true_iff

/-- Settles O36: the recomputed value is 0xFFFF only where all words are zero, and the first is not. -/
theorem allOnesChecksumNeverValidates : Obligations.AllOnesChecksumNeverValidates := by
  intro H h h0
  rw [← Bool.not_eq_true, ipv4CsumOk_iff, csum16_eq_allOnes]
  exact sumWords_checksum_zeroed_ne_zero h h0

/-- The decrement of the TTL takes 0x100 from the word sum of R182, which is that of R187. -/
theorem sumWords_ttl_decremented {H : Bytes} (h : 20 ≤ H.length) (httl : 1 ≤ field H 8 1) :
    sumWords (memWrite (memWrite H 8 1 (field H 8 1 - 1)) 10 2 0) + 0x100 = sumWords (memWrite H 10 2 0) := by
  have hin : 8 + 1 ≤ H.length := by omega
  have hlt : field H 8 1 < 0x100 := field_lt H 8 1
  have hcsum : field (memWrite H 8 1 (field H 8 1 - 1)) 10 2 = field H 10 2 :=
    field_memWrite_after 2 _ hin (by omega)
  have hnew := sumWords_checksum_zeroed (h.trans_eq (memWrite_length (field H 8 1 - 1) hin).symm)
  have hold := sumWords_checksum_zeroed h
  have hdec : sumWords (memWrite H 8 1 (field H 8 1 - 1)) + field H 8 1 * 256 = sumWords H + (field H 8 1 - 1) * 256 :=
    sumWords_memWrite_high rfl (by omega) (by omega)
  omega

/-- The sum of R187 folds as the incremental sum does: neither is 0, and they have one residue (R188). -/
theorem foldedSum_ttl_decremented {H : Bytes} (h : 20 ≤ H.length) (h0 : field H 0 2 ≠ 0) (httl : 1 ≤ field H 8 1)
    {sum : Nat} (hsum : sum = foldedSum (memWrite H 10 2 0) + (0xFFFF - 0x100)) :
    foldedSum (memWrite (memWrite H 8 1 (field H 8 1 - 1)) 10 2 0) = carryFold sum sum := by
  have hin : 8 + 1 ≤ H.length := by omega
  have hfirst : field (memWrite H 8 1 (field H 8 1 - 1)) 0 2 = field H 0 2 := field_memWrite_before _ hin (by omega)
  have hne : sumWords (memWrite (memWrite H 8 1 (field H 8 1 - 1)) 10 2 0) ≠ 0 :=
    sumWords_checksum_zeroed_ne_zero (h.trans_eq (memWrite_length _ hin).symm) (by rwa [hfirst])
  have hdec := sumWords_ttl_decremented h httl
  have hres := foldedSum_mod (memWrite H 10 2 0)
  exact carryFold_congr hne (by omega) (by omega)

/-- Settles O37: `~csum_rx` is the folded sum of the header as received, so that `foldedSum_ttl_decremented` applies. -/
theorem incrementalChecksumAgrees : Obligations.IncrementalChecksumAgrees := by
  intro H c h _ _ h0 hok httl w sum
  have hlt : field H 8 1 < 0x100 := field_lt H 8 1
  have hbyte : (BitVec.ofNat 8 (field H 8 1 - 1)).toNat = field H 8 1 - 1 := Nat.mod_eq_of_lt (by omega)
  have hw : w = field H 8 1 * 256 + field H 9 1 := field_two (by omega)
  have hwlt : w < 0x10000 := field_lt H 8 2
  have hrx : 0xFFFF - c.toNat = foldedSum (memWrite H 10 2 0) := by
    have hle := foldedSum_le (memWrite H 10 2 0)
    rw [← ipv4CsumOk_iff.mp hok, csum16_toNat]
    omega
  have hsum : sum = foldedSum (memWrite H 10 2 0) + (0xFFFF - 0x100) := by
    simp only [sum, hrx]
    omega
  rw [csumWithTtl, hbyte, csum16_toNat, foldedSum_ttl_decremented h h0 httl hsum]

end Sys2Proof.Machine
end

section
/-! RX in ROUTER personality (43_router_pipeline.md): the staged machine against the decision of R214, and that decision
case by case, in the order of the stages. -/

namespace Sys2Proof.Machine

/-- Settles O38: `execRx_router_eq`, which follows the stages one by one. -/
theorem routerRxRefinesThePseudocode : Obligations.RouterRxRefinesThePseudocode :=
  fun _ inIf F hm => execRx_router_eq hm inIf F

/-! ## Admission -/

/-- RX meets the admission tests first, in both personalities. -/
theorem exec_rx_admission (s : State) (inIf : IfIdx) (F : Bytes) :
    ∃ g k, exec (.rx inIf F) s = admission { s.loadRx inIf F with stage := g } k := by
  change ∃ g k, execRx inIf F s = _
  unfold execRx
  cases s.mode with
  | router => exact ⟨.s0, _, rfl⟩
  | switch => exact ⟨s.stage, _, rfl⟩

section Admission

variable {s : State} {k : Outc}

theorem admission_of_not_live (hp : s.phase ≠ .live) : admission s k = .next (s.endRx (Res.plain .dropNotLive)) := by
  rw [admission, if_pos hp, raiseDrop]

theorem admission_of_no_interface (hp : s.phase = .live) (hif : s.ifValid s.rxIf = false) :
    admission s k = .next (s.endRx (Res.plain .illegalOp)) := by
  rw [admission, if_neg (by simp [hp]), if_pos hif]

theorem admission_of_bad_length (hp : s.phase = .live) (hif : s.ifValid s.rxIf = true)
    (hlen : s.rxb.length < 14 ∨ s.par.maxFrame < s.rxb.length) :
    admission s k = .next (s.endRx (Res.plain .dropMalformed)) := by
  rw [admission, if_neg (by simp [hp]), if_neg (by simp [hif]), State.rxLen, if_pos hlen, raiseDrop]

end Admission

/-- Settles O41: the tests in their order (R201); what was loaded does not show once the operation has ended. -/
theorem rxAdmissionRefusals : Obligations.RxAdmissionRefusals := by
  intro s inIf F
  obtain ⟨g, k, hrx⟩ := exec_rx_admission s inIf F
  let loaded : State := { s.loadRx inIf F with stage := g }
  exact ⟨fun hp => hrx.trans (admission_of_not_live (s := loaded) hp),
    fun hp hif => hrx.trans (admission_of_no_interface (s := loaded) hp hif),
    fun hp hif hlen => hrx.trans (admission_of_bad_length (s := loaded) hp hif hlen)⟩

/-! ## RESOLVE, read backwards -/

section Resolve

variable {s : State} {a : Ip} {r : RouteEntry} {e : IfIdx} {m : Mac}

theorem rtLookup_of_resolve_noRoute (h : s.resolve a = .noRoute) : rtLookup s.rt a = none := by
  unfold State.resolve at h
  split at h
  · assumption
  · split at h <;> cases h

theorem rtLookup_of_resolve_noArp (h : s.resolve a = .noArp r) :
    rtLookup s.rt a = some r ∧ arpLookup s.arp (nextHop r a) = none := by
  unfold State.resolve at h
  split at h
  · cases h
  · split at h
    · cases h
      exact ⟨‹_›, ‹_›⟩
    · cases h

theorem rtLookup_of_resolve_ok (h : s.resolve a = .ok e m) :
    ∃ r, rtLookup s.rt a = some r ∧ r.ifx = e ∧ arpLookup s.arp (nextHop r a) = some m := by
  unfold State.resolve at h
  split at h
  · cases h
  · split at h
    · cases h
    · cases h
      exact ⟨_, ‹_›, rfl, ‹_›⟩

end Resolve

/-! ## The decision of R214 on a frame that passes -/

section Decision

variable {s : State} {inIf : IfIdx} {F : Bytes}

theorem State.Admits.routerOutcome_eq (h : s.Admits inIf F) :
    routerOutcome s inIf F = if field F 12 2 ≠ 0x0800 then .drop .dropNotIpv4 else fromS1P s inIf F := by
  obtain ⟨hlive, hif, hmin, hmax⟩ := h
  rw [Machine.routerOutcome_eq, if_neg (by simp [hlive]), if_neg (by simp [hif]), if_neg (by omega)]

/-- The tests of stage S1P as they stand in R214. -/
theorem wellShaped_iff : WellShaped F ↔ ¬ F.length < 34 ∧ ¬ (field F 14 1 / 16 ≠ 4 ∨ headerLen F < 20 ∨
    F.length < 14 + headerLen F ∨ totalLen F < headerLen F ∨ F.length < 14 + totalLen F) := by
  simp only [WellShaped, not_or, not_lt, not_not]

theorem fromS1P_of_wellShaped (h : WellShaped F) : fromS1P s inIf F = fromS2 s inIf F := by
  obtain ⟨hlong, hshape⟩ := wellShaped_iff.mp h
  rw [fromS1P, if_neg hlong, if_neg hshape]

theorem fromS1P_of_not_wellShaped (h : ¬ WellShaped F) : fromS1P s inIf F = .drop .dropMalformed := by
  unfold fromS1P
  split_ifs with hlong hshape
  · rfl
  · rfl
  · exact absurd (wellShaped_iff.mpr ⟨hlong, hshape⟩) h

/-- A valid packet reaches stage S3. -/
theorem State.Admits.routerOutcome_valid (h : s.Admits inIf F) (hv : ValidIpv4 F) :
    routerOutcome s inIf F = if (rxTtl F).toNat ≤ 1 then .icmp .timeExceeded else fromS4 s inIf F := by
  obtain ⟨het, hshape, hok⟩ := hv
  rw [h.routerOutcome_eq, if_neg (by simp [het]), fromS1P_of_wellShaped hshape, fromS2, if_neg (by simp [hok])]

/-- A valid packet with a TTL of at least 2 reaches stage S4. -/
theorem State.Admits.routerOutcome_alive (h : s.Admits inIf F) (hv : ValidIpv4 F) (httl : 2 ≤ (rxTtl F).toNat) :
    routerOutcome s inIf F = fromS4 s inIf F := by
  rw [h.routerOutcome_valid hv, if_neg (by omega)]

/-- A valid packet with a TTL of at least 2 for another node reaches stage S5. -/
theorem State.Admits.routerOutcome_transit (h : s.Admits inIf F) (hv : ValidIpv4 F) (httl : 2 ≤ (rxTtl F).toNat)
    (hl : s.isLocal (dstAddr F) = false) : routerOutcome s inIf F = fromS5 s inIf F := by
  rw [h.routerOutcome_alive hv httl, fromS4, if_neg (by simp [hl])]

/-- RX ends as its outcome is applied. -/
theorem exec_rx_of_outcome {o : RouterOutcome} (hm : s.mode = .router) (ho : routerOutcome s inIf F = o) :
    exec (.rx inIf F) s = .next (applyOutcome s F o) := by
  rw [execRx_router_eq hm, routerResult, ho]

theorem exec_rx_drop {c : ResCode} (hm : s.mode = .router) (ho : routerOutcome s inIf F = .drop c) :
    exec (.rx inIf F) s = .next (s.endRx (Res.plain c)) := exec_rx_of_outcome hm ho

/-- A reply whose source resolves is sent. -/
theorem replyResult_of_resolve_ok {e : IfIdx} {m : Mac} (h : s.resolve (srcAddr F) = .ok e m) (k : IcmpKind) :
    replyResult s k F =
      (s.emitTx e (synthFrame m (s.ifSlot e).mac (s.ifSlot e).ip (srcAddr F) k (replyPayload k F))).endRx
        (Res.icmp k (!s.txOk)) := by
  rw [replyResult, h]

theorem exec_rx_reply {e : IfIdx} {m : Mac} {k : IcmpKind} (hm : s.mode = .router)
    (ho : routerOutcome s inIf F = .icmp k) (h : s.resolve (srcAddr F) = .ok e m) :
    exec (.rx inIf F) s =
      .next ((s.emitTx e (synthFrame m (s.ifSlot e).mac (s.ifSlot e).ip (srcAddr F) k (replyPayload k F))).endRx
        (Res.icmp k (!s.txOk))) := by
  rw [exec_rx_of_outcome hm ho, applyOutcome, replyResult_of_resolve_ok h]

end Decision

/-! ## Drops before stage S3 -/

/-- Settles O42: stages S1 and S1P, each with its own drop. -/
theorem nonIpv4AndMalformedFramesAreDropped : Obligations.NonIpv4AndMalformedFramesAreDropped := by
  intro s inIf F hm ha
  refine ⟨fun het => exec_rx_drop hm ?_, fun het hshape => exec_rx_drop hm ?_⟩
  · rw [ha.routerOutcome_eq, if_pos het]
  · rw [ha.routerOutcome_eq, if_neg (by simp [het]), fromS1P_of_not_wellShaped hshape]

/-- Settles O43: stage S2 compares the recomputed checksum with the received one (R182), before the TTL is read. -/
theorem badChecksumFramesAreDropped : Obligations.BadChecksumFramesAreDropped := by
  intro s inIf F hm ha het hshape hbad
  refine exec_rx_drop hm ?_
  rw [ha.routerOutcome_eq, if_neg (by simp [het]), fromS1P_of_wellShaped hshape, fromS2, if_pos]
  rwa [← Bool.not_eq_true, ipv4CsumOk_iff]

/-! ## Replies and drops of a valid packet -/

/-- Settles O44: stage S3 comes before the destination is read. -/
theorem expiredPacketsGetTimeExceeded : Obligations.ExpiredPacketsGetTimeExceeded := by
  intro s inIf e m F hm ha hv httl hres
  exact exec_rx_reply hm (by rw [ha.routerOutcome_valid hv, if_pos httl]) hres

/-- Settles O45: stage S4, by the three classes of R206. -/
theorem localDatagramsAreAnsweredByProtocol : Obligations.LocalDatagramsAreAnsweredByProtocol := by
  intro s inIf e m F hm ha hv httl hl reply echo
  have ho := ha.routerOutcome_alive hv httl
  rw [fromS4, if_pos hl] at ho
  refine ⟨fun hres hproto => exec_rx_reply hm ?_ hres, fun hres hecho => exec_rx_reply hm ?_ hres,
    fun h6 h17 hother => exec_rx_drop hm ?_⟩
  · rw [ho, if_pos hproto]
  · obtain ⟨hone, -, -⟩ := id hecho
    rw [ho, if_neg (by omega), if_pos hecho]
  · rw [ho, if_neg (by omega), if_neg hother]

/-- Settles O46: stages S5 and S7, with the anti-loop test of S6 between them. -/
theorem unreachableDestinationsAreReported : Obligations.UnreachableDestinationsAreReported := by
  intro s inIf e m F hm ha hv httl hl hsrc reply
  have ho := ha.routerOutcome_transit hv httl hl
  refine ⟨fun hdst => exec_rx_reply hm ?_ hsrc, fun r hdst hif => exec_rx_reply hm ?_ hsrc⟩
  · simp only [ho, fromS5, rtLookup_of_resolve_noRoute hdst]
  · obtain ⟨hr, harp⟩ := rtLookup_of_resolve_noArp hdst
    simp only [ho, fromS5, hr, harp, if_neg hif]

/-- Settles O48: stage S6 drops before the next hop is looked up. -/
theorem sameInterfaceRoutesAreDropped : Obligations.SameInterfaceRoutesAreDropped := by
  intro s inIf r F hm ha hv httl hl hr hif
  refine exec_rx_drop hm ?_
  simp only [ha.routerOutcome_transit hv httl hl, fromS5, hr, if_pos hif]

/-! ## Writing into a buffer

Stage S8 writes into a copy of the frame (R212), and R213 speaks of what is read back from it, from its header too. -/

theorem memWrite_in {b : Bytes} {a n : Nat} (v : Nat) (h : a + n ≤ b.length) :
    memWrite b a n v = b.take a ++ (beBytes n v ++ b.drop (a + n)) := by
  rw [memWrite, writeBytes_in _ (by omega), beBytes_length, List.append_assoc]

/-- A second write at the same place leaves nothing of the first. -/
theorem memWrite_memWrite_same {b : Bytes} {a n : Nat} (v w : Nat) (h : a + n ≤ b.length) :
    memWrite (memWrite b a n v) a n w = memWrite b a n w := by
  rw [memWrite_in v h, memWrite_in w h]
  exact writeBytes_mid (List.length_take_of_le (by omega)) (by simp)

theorem span_memWrite_same {b : Bytes} {a n : Nat} (v : Nat) (h : a + n ≤ b.length) :
    span (memWrite b a n v) a n = beBytes n v := by
  have hlen : (b.take a).length = a := List.length_take_of_le (by omega)
  rw [memWrite_in v h, span_append_right _ _ hlen.le, hlen, Nat.sub_self, span_append_left _ (by simp), span_zero,
    List.take_of_length_le (by simp)]

/-- A write within a part of the buffer is that write on the part. -/
theorem span_memWrite_within {b : Bytes} {a c i n m : Nat} (v : Nat) (ha : a = c + i) (hm : i + n ≤ m)
    (h : c + m ≤ b.length) : span (memWrite b a n v) c m = memWrite (span b c m) i n v := by
  obtain ⟨j, rfl⟩ : ∃ j, m = i + (n + j) := ⟨m - i - n, by omega⟩
  subst ha
  have hin : c + i + n ≤ b.length := by omega
  rw [span_split, span_split, span_memWrite_before v hin le_rfl, span_memWrite_same v hin,
    span_memWrite_after j v hin le_rfl, span_split b c, span_split b (c + i)]
  refine (writeBytes_mid (span_length_of_le (by omega)) ?_).symm
  rw [beBytes_length, span_length_of_le hin]

/-! ## The forwarded frame -/

theorem rxTtl_toNat (F : Bytes) : (rxTtl F).toNat = field F 22 1 := Nat.mod_eq_of_lt (field_lt F 22 1)

theorem rxTtl_sub_one_toNat {F : Bytes} (h : 1 ≤ (rxTtl F).toNat) : (rxTtl F - 1).toNat = field F 22 1 - 1 := by
  rw [← rxTtl_toNat]
  bv_omega

section Forwarded

variable {F : Bytes} (h : 34 ≤ F.length) (m n : Mac)
include h

theorem field_forwardFrame_dmac : field (forwardFrame F m n) 0 6 = m.toNat := by
  rw [← forwardFrame_of_writes h]
  simp (disch := grind [memWrite_length_max]) only [field_memWrite_before, field_memWrite_same]
  exact Nat.mod_eq_of_lt m.isLt

theorem field_forwardFrame_smac : field (forwardFrame F m n) 6 6 = n.toNat := by
  rw [← forwardFrame_of_writes h]
  simp (disch := grind [memWrite_length_max]) only [field_memWrite_before, field_memWrite_same]
  exact Nat.mod_eq_of_lt n.isLt

theorem field_forwardFrame_ttl : field (forwardFrame F m n) 22 1 = (rxTtl F - 1).toNat := by
  rw [← forwardFrame_of_writes h]
  simp (disch := grind [memWrite_length_max]) only [field_memWrite_before, field_memWrite_same]
  exact Nat.mod_eq_of_lt (rxTtl F - 1).isLt

theorem field_forwardFrame_csum :
    field (forwardFrame F m n) 24 2 = (csumWithTtl (ipHeader F) (rxTtl F - 1)).toNat := by
  rw [← forwardFrame_of_writes h]
  simp (disch := grind [memWrite_length_max]) only [field_memWrite_same]
  exact Nat.mod_eq_of_lt (csumWithTtl (ipHeader F) (rxTtl F - 1)).isLt

/-- The bytes between the MAC addresses and the TTL are those received. -/
theorem span_forwardFrame_before_ttl {a k : Nat} (ha : 12 ≤ a) (hk : a + k ≤ 22) :
    span (forwardFrame F m n) a k = span F a k := by
  rw [← forwardFrame_of_writes h]
  simp (disch := grind [memWrite_length_max]) only [span_memWrite_before, span_memWrite_after]

theorem field_forwardFrame_before_ttl {a k : Nat} (ha : 12 ≤ a) (hk : a + k ≤ 22) :
    field (forwardFrame F m n) a k = field F a k := congrArg beNat (span_forwardFrame_before_ttl h m n ha hk)

theorem span_forwardFrame_proto : span (forwardFrame F m n) 23 1 = span F 23 1 := by
  rw [← forwardFrame_of_writes h]
  simp (disch := grind [memWrite_length_max]) only [span_memWrite_before, span_memWrite_after]

theorem drop_forwardFrame : (forwardFrame F m n).drop 26 = F.drop 26 := by
  have hmid : (span F 12 10).length = 10 := span_length_of_le (by omega)
  have hproto : (span F 23 1).length = 1 := span_length_of_le (by omega)
  exact List.drop_left' (by simp [hmid, hproto])

theorem headerLen_forwardFrame : headerLen (forwardFrame F m n) = headerLen F := by
  rw [headerLen, field_forwardFrame_before_ttl h m n (by omega) (by omega), headerLen]

theorem totalLen_forwardFrame : totalLen (forwardFrame F m n) = totalLen F := by
  rw [totalLen, field_forwardFrame_before_ttl h m n (by omega) (by omega), totalLen]

end Forwarded

theorem wellShaped_forwardFrame {F : Bytes} (h : WellShaped F) (m n : Mac) : WellShaped (forwardFrame F m n) := by
  obtain ⟨hlong, hver, hshape⟩ := h
  rw [WellShaped, forwardFrame_length hlong, headerLen_forwardFrame hlong, totalLen_forwardFrame hlong,
    field_forwardFrame_before_ttl hlong m n (by omega) (by omega)]
  exact ⟨hlong, hver, hshape⟩

/-- The header of the forwarded frame is the received one with its TTL and its checksum written (R187). -/
theorem ipHeader_forwardFrame {F : Bytes} (h : WellShaped F) (m n : Mac) :
    ipHeader (forwardFrame F m n) = memWrite (memWrite (ipHeader F) 8 1 (rxTtl F - 1).toNat) 10 2
      (csumWithTtl (ipHeader F) (rxTtl F - 1)).toNat := by
  obtain ⟨hlong, -, hmin, hfits, -⟩ := h
  rw [ipHeader, headerLen_forwardFrame hlong, ← forwardFrame_of_writes hlong,
    span_memWrite_within (i := 10) _ rfl (by omega) (by simp only [memWrite_length_max]; omega),
    span_memWrite_within (i := 8) _ rfl (by omega) (by simp only [memWrite_length_max]; omega),
    span_memWrite_after _ _ (by simp only [memWrite_length_max]; omega) (by omega),
    span_memWrite_after _ _ (by omega) (by omega)]
  rfl

/-- The next router's recomputation zeroes the checksum field, so it meets the very header whose checksum was stored. -/
theorem validIpv4_forwardFrame {F : Bytes} (h : ValidIpv4 F) (m n : Mac) : ValidIpv4 (forwardFrame F m n) := by
  obtain ⟨het, hshape, -⟩ := h
  obtain ⟨hlong, -, hmin, hfits, -⟩ := id hshape
  refine ⟨?_, wellShaped_forwardFrame hshape m n, ?_⟩
  · rwa [field_forwardFrame_before_ttl hlong m n (by omega) (by omega)]
  · have hH : (ipHeader F).length = headerLen F := span_length_of_le hfits
    rw [ipv4CsumOk_iff, ipHeader_forwardFrame hshape, field_forwardFrame_csum hlong,
      memWrite_memWrite_same _ _ (by rw [memWrite_length_max]; omega), BitVec.ofNat_toNat, BitVec.setWidth_eq]
    rfl

/-- Settles O49: the decision is `forwardFrame`, whose fields the lemmas above read. -/
theorem forwardedFrameIsRewritten : Obligations.ForwardedFrameIsRewritten := by
  intro s inIf e m F hm ha hv httl hl hdst hif
  obtain ⟨r, hr, rfl, harp⟩ := rtLookup_of_resolve_ok hdst
  obtain ⟨-, ⟨hlong, -⟩, -⟩ := id hv
  have ho : routerOutcome s inIf F = .forward r.ifx (forwardFrame F m (s.ifSlot r.ifx).mac) := by
    simp only [ha.routerOutcome_transit hv httl hl, fromS5, hr, if_neg hif, harp]
  have hdec := rxTtl_sub_one_toNat (F := F) (by omega)
  refine ⟨_, exec_rx_of_outcome hm ho, forwardFrame_length hlong _ _, field_forwardFrame_dmac hlong _ _,
    field_forwardFrame_smac hlong _ _, ?_, ?_, span_forwardFrame_before_ttl hlong _ _ (by omega) (by omega),
    span_forwardFrame_proto hlong _ _, drop_forwardFrame hlong _ _, validIpv4_forwardFrame hv _ _⟩
  · rw [field_forwardFrame_ttl hlong, hdec]
  · rw [field_forwardFrame_csum hlong, csumWithTtl, hdec]

/-! ## The local classes on the frame in RXB -/

/-- The synthesizer on a parsed frame: the working values are the lengths it reads from the frame. -/
theorem State.Parsed.raiseIcmp_eq {s : State} {k : IcmpKind} (h : s.Parsed)
    (hecho : k = .echoReply → 4 ≤ payloadLen s.rxb) : raiseIcmp k s = .next (replyResult s k s.rxb) := by
  obtain ⟨⟨hlong, -, -, -, horder, hfits⟩, hihl, htl⟩ := h
  have hhl : s.work.hl = headerLen s.rxb := by simp [Work.hl, headerLen, hihl]
  have htotal : s.work.tl.toNat = totalLen s.rxb := by
    rw [htl]
    exact Nat.mod_eq_of_lt (field_lt s.rxb 16 2)
  have hpl : s.work.pl = payloadLen s.rxb := by rw [Work.pl, hhl, htotal, payloadLen]
  exact Machine.raiseIcmp_eq hlong hhl hpl (by rw [payloadLen]; omega) hecho

/-- Settles O52: each class runs the emission or the drop it names, and a reply whose source resolves is sent. -/
theorem localClassesReplyOrDrop : Obligations.LocalClassesReplyOrDrop := by
  refine fun s => ⟨rfl, rfl, rfl, rfl, fun e m hp hres => ?_⟩
  have sent (k : IcmpKind) (hecho : k = .echoReply → 4 ≤ payloadLen s.rxb) :=
    (hp.raiseIcmp_eq hecho).trans (congrArg _ (replyResult_of_resolve_ok hres k))
  exact ⟨sent .portUnreach nofun, sent .portUnreach nofun, fun hpl => sent .echoReply fun _ => hpl⟩

end Sys2Proof.Machine
end

section
/-! The synthesizer (44_icmp_responder.md): the five emissions on the frame in RXB (R231, R234, R246 to R250), the
layout the writes of R240 leave (R110), and the two checksums of the synthesized frame (R251). -/

namespace Sys2Proof.Machine

/-! ## Replies and emissions -/

section Replies

variable {s : State} {k : IcmpKind} {F : Bytes}

theorem replyResult_of_resolve_noRoute (h : s.resolve (srcAddr F) = .noRoute) :
    replyResult s k F = s.endRx (Res.abandoned .icmpAbandonedNoRoute k) := by
  rw [replyResult, h]

theorem replyResult_of_resolve_noArp {r : RouteEntry} (h : s.resolve (srcAddr F) = .noArp r) :
    replyResult s k F = s.endRx (Res.abandoned .icmpAbandonedNoArp k) := by
  rw [replyResult, h]

theorem exec_rx_icmp {inIf : IfIdx} (hm : s.mode = .router) (ho : routerOutcome s inIf F = .icmp k) :
    exec (.rx inIf F) s = .next (replyResult s k F) := exec_rx_of_outcome hm ho

theorem exec_icmp_instr (k : IcmpKind) (s : State) : exec k.instr s = raiseIcmp k s := by
  cases k <;> rfl

/-- The payload is read only once the source has resolved, so an abandoned Echo Reply needs no 4 payload bytes. -/
theorem raiseIcmp_of_unresolved (hlong : 34 ≤ s.rxb.length) (h : ∀ e m, s.resolve (srcAddr s.rxb) ≠ .ok e m) :
    raiseIcmp k s = .next (replyResult s k s.rxb) := by
  rw [raiseIcmp_closed, withRead_in (by omega), ← srcAddr, replyResult]
  cases hres : s.resolve (srcAddr s.rxb) with
  | noRoute => rfl
  | noArp r => rfl
  | ok e m => exact absurd hres (h e m)

end Replies

/-- Settles O47: the decision is applied by `replyResult`, which abandons where RESOLVE fails. -/
theorem unresolvedRepliesAreAbandoned : Obligations.UnresolvedRepliesAreAbandoned := by
  intro s inIf F k hm ho
  rw [exec_rx_icmp hm ho]
  exact ⟨fun h => congrArg _ (replyResult_of_resolve_noRoute h),
    fun r h => congrArg _ (replyResult_of_resolve_noArp h)⟩

/-- Settles O51: every emission is the synthesizer run with its message, on a parsed frame. -/
theorem icmpEmissionsSendTheirMessage : Obligations.IcmpEmissionsSendTheirMessage := by
  intro s hp F error gone
  obtain ⟨⟨hlong, -⟩, -⟩ := id hp
  refine ⟨fun e m hres => ?_, fun hres k => ?_, fun r hres k => ?_⟩
  · have sends (k : IcmpKind) (hecho : k = .echoReply → 4 ≤ payloadLen s.rxb) :=
      (hp.raiseIcmp_eq hecho).trans (congrArg _ (replyResult_of_resolve_ok hres k))
    exact ⟨sends .timeExceeded nofun, sends .netUnreach nofun, sends .hostUnreach nofun, sends .portUnreach nofun,
      fun hpl => sends .echoReply fun _ => hpl⟩
  · rw [exec_icmp_instr, raiseIcmp_of_unresolved hlong (by simp [F, hres]), replyResult_of_resolve_noRoute hres]
    rfl
  · rw [exec_icmp_instr, raiseIcmp_of_unresolved hlong (by simp [F, hres]), replyResult_of_resolve_noArp hres]
    rfl

/-! ## The layout of the synthesized frame -/

/-- The Ethernet header of a synthesized frame (R110). -/
def synthEthernet (m n : Mac) : Bytes := beBytes 6 m.toNat ++ (beBytes 6 n.toNat ++ [0x08, 0x00])

/-- The bytes of the synthesized IPv4 header before its checksum (R110), for `len` bytes of payload. -/
def synthHeaderHead (len : Nat) : Bytes := [0x45, 0x00] ++ beBytes 2 (24 + len) ++ [0x00, 0x00, 0x00, 0x00, 0x40, 0x01]

/-- The synthesized IPv4 header with the checksum `c` (R110). -/
def synthHeader (len : Nat) (ip src : Ip) (c : Half) : Bytes :=
  synthHeaderHead len ++ (beBytes 2 c.toNat ++ (beBytes 4 ip.toNat ++ beBytes 4 src.toNat))

/-- The synthesized ICMP message with the checksum `c` (R110). -/
def synthMessage (k : IcmpKind) (P : Bytes) (c : Half) : Bytes :=
  [k.icmpType, k.icmpCode] ++ (beBytes 2 c.toNat ++ P)

/-- The header checksum of R240, over the header with a zeroed checksum field. -/
def synthHeaderCsum (len : Nat) (ip src : Ip) : Half := csum16 (synthHeader len ip src 0)

/-- The ICMP checksum of R240, over the message with a zeroed checksum field. -/
def synthMessageCsum (k : IcmpKind) (P : Bytes) : Half := csum16 (synthMessage k P 0)

@[simp] theorem synthEthernet_length (m n : Mac) : (synthEthernet m n).length = 14 := by simp [synthEthernet]

@[simp] theorem synthHeaderHead_length (len : Nat) : (synthHeaderHead len).length = 10 := by simp [synthHeaderHead]

@[simp] theorem synthHeader_length (len : Nat) (ip src : Ip) (c : Half) : (synthHeader len ip src c).length = 20 := by
  simp [synthHeader]

@[simp] theorem synthMessage_length (k : IcmpKind) (P : Bytes) (c : Half) :
    (synthMessage k P c).length = 4 + P.length := by
  simp [synthMessage]; omega

theorem beBytes_one_toNat (x : Byte) : beBytes 1 x.toNat = [x] := by simp [beBytes]

/-- The bytes just after a first part of known length. -/
theorem span_after {A b : Bytes} {a n : Nat} (R : Bytes) (ha : A.length = a) (hn : b.length = n) :
    span (A ++ (b ++ R)) a n = b := by
  rw [span_append_right _ _ ha.le, ha, Nat.sub_self, span_append_left _ (by omega), span_zero,
    List.take_of_length_le hn.le]

/-- All that follows a first part of known length. -/
theorem span_rest {A b : Bytes} {a n : Nat} (ha : A.length = a) (hn : b.length = n) : span (A ++ b) a n = b := by
  simpa using span_after [] ha hn

/-- MemWrite at the end of a buffer appends. -/
theorem memWrite_end {b : Bytes} {a : Nat} (n v : Nat) (h : b.length = a) : memWrite b a n v = b ++ beBytes n v :=
  writeBytes_end h

/-- The second write of the header checksum, after the zero of the first, leaves it in its field. -/
theorem memWrite_synthHeader (len : Nat) (ip src : Ip) (c d : Half) :
    memWrite (synthHeader len ip src c) 10 2 d.toNat = synthHeader len ip src d :=
  writeBytes_mid (synthHeaderHead_length len) (by simp)

theorem memWrite_synthMessage (k : IcmpKind) (P : Bytes) (c d : Half) :
    memWrite (synthMessage k P c) 2 2 d.toNat = synthMessage k P d :=
  writeBytes_mid rfl (by simp)

/-- MemWrite past the first part of a buffer is MemWrite on the rest. -/
theorem memWrite_append_right {A b : Bytes} {a i : Nat} (n v : Nat) (h : a = A.length + i) (hi : i ≤ b.length) :
    memWrite (A ++ b) a n v = A ++ memWrite b i n v := by
  subst h
  rw [memWrite, writeBytes_in _ (by simp [hi]), memWrite, writeBytes_in _ hi]
  simp [Nat.add_assoc, List.take_length_add_append]

/-- The header writes of R240, the checksum still zero. -/
theorem synthHeader_of_writes (m n : Mac) (ip src : Ip) (len : Nat) :
    [] ++ beBytes 6 m.toNat ++ beBytes 6 n.toNat ++ beBytes 2 0x0800 ++ beBytes 1 0x45 ++ beBytes 1 0x00 ++
        beBytes 2 (24 + len) ++ beBytes 2 0x0000 ++ beBytes 2 0x0000 ++ beBytes 1 64 ++ beBytes 1 1 ++
        beBytes 2 0x0000 ++ beBytes 4 ip.toNat ++ beBytes 4 src.toNat =
      synthEthernet m n ++ synthHeader len ip src 0 := by
  simp only [synthEthernet, synthHeader, synthHeaderHead, List.append_assoc, List.nil_append]
  rfl

/-- The message writes of R240, the checksum still zero. -/
theorem synthMessage_of_writes (B : Bytes) (k : IcmpKind) (P : Bytes) :
    B ++ beBytes 1 k.icmpType.toNat ++ beBytes 1 k.icmpCode.toNat ++ beBytes 2 0x0000 ++ P =
      B ++ synthMessage k P 0 := by
  simp only [beBytes_one_toNat, List.append_assoc]
  rfl

/-- The writes of R240 leave the three parts of R110, each checksum computed over its part as first written. -/
theorem synthFrame_eq (m n : Mac) (ip src : Ip) (k : IcmpKind) (P : Bytes) :
    synthFrame m n ip src k P = synthEthernet m n ++ (synthHeader P.length ip src (synthHeaderCsum P.length ip src) ++
      synthMessage k P (synthMessageCsum k P)) := by
  simp (disch := simp [memWrite_length_max]) only [synthFrame, memWrite_end, writeBytes_end]
  rw [synthHeader_of_writes, span_rest (by simp) (by simp), ← synthHeaderCsum,
    memWrite_append_right (A := synthEthernet m n) (i := 10) _ _ (by simp) (by simp), memWrite_synthHeader,
    synthMessage_of_writes, span_rest (by simp) (by simp), ← synthMessageCsum,
    memWrite_append_right (i := 2) _ _ (by simp) (by simp; omega),
    memWrite_synthMessage, List.append_assoc]

/-- Settles O53: `synthFrame_eq`, its parts written out. -/
theorem synthesizedFrameHasTheLayout : Obligations.SynthesizedFrameHasTheLayout := by
  intro m n ip src k P
  refine ⟨synthHeaderCsum P.length ip src, synthMessageCsum k P, ?_, ?_, ?_⟩
  · simp [synthFrame_eq, synthEthernet, synthHeader, synthHeaderHead, synthMessage]
  · simp only [synthHeaderCsum, synthHeader, synthHeaderHead, List.append_assoc]
    rfl
  · simp only [synthMessageCsum, synthMessage, List.append_assoc]
    rfl

/-! ## The checksums of the synthesized frame -/

/-- The next node zeroes the checksum field, so it meets the very header whose checksum was stored. -/
theorem ipv4CsumOk_synthHeader (len : Nat) (ip src : Ip) :
    ipv4CsumOk (synthHeader len ip src (synthHeaderCsum len ip src)) (synthHeaderCsum len ip src) = true := by
  rw [ipv4CsumOk_iff]
  exact congrArg csum16 (memWrite_synthHeader len ip src _ 0)

theorem foldedSum_synthMessage (k : IcmpKind) (P : Bytes) :
    foldedSum (synthMessage k P (synthMessageCsum k P)) = 0xFFFF :=
  foldedSum_stored [k.icmpType, k.icmpCode] P (by simp)

theorem span_synthFrame_header (m n : Mac) (ip src : Ip) (k : IcmpKind) (P : Bytes) :
    span (synthFrame m n ip src k P) 14 20 = synthHeader P.length ip src (synthHeaderCsum P.length ip src) := by
  rw [synthFrame_eq, span_after _ (by simp) (by simp)]

theorem span_synthFrame_message (m n : Mac) (ip src : Ip) (k : IcmpKind) (P : Bytes) :
    span (synthFrame m n ip src k P) 34 (4 + P.length) = synthMessage k P (synthMessageCsum k P) := by
  rw [synthFrame_eq, ← List.append_assoc, span_rest (by simp) (by simp)]

theorem field_synthFrame_headerCsum (m n : Mac) (ip src : Ip) (k : IcmpKind) (P : Bytes) :
    field (synthFrame m n ip src k P) 24 2 = (synthHeaderCsum P.length ip src).toNat := by
  rw [synthFrame_eq, synthHeader, List.append_assoc, List.append_assoc, ← List.append_assoc (synthEthernet m n),
    field_after (by simp) (by simp), beNat_beBytes]
  exact Nat.mod_eq_of_lt (synthHeaderCsum P.length ip src).isLt

/-- Settles O54: the header is validated as it was summed, and the stored ICMP checksum completes its message's sum. -/
theorem synthesizedChecksumsHold : Obligations.SynthesizedChecksumsHold := by
  intro m n ip src k P G
  refine ⟨?_, ?_⟩
  · rw [span_synthFrame_header, field_synthFrame_headerCsum, BitVec.ofNat_toNat, BitVec.setWidth_eq]
    exact ipv4CsumOk_synthHeader P.length ip src
  · rw [span_synthFrame_message]
    exact foldedSum_synthMessage k P

end Sys2Proof.Machine
end

section
/-! RX in SWITCH personality (45_switch_learning.md): LT_UPSERT on the table (R262), the directed path (R264), the flood
(R266), and what the whole operation may change (R269). -/

namespace Sys2Proof.Machine

/-! ## LT_UPSERT -/

theorem ltPut_length_of_absent {lt : List (Mac × LtRow)} {k : Mac} (row : LtRow) (h : ltFind lt k = none) :
    (ltPut lt k row).length = lt.length + 1 := by
  induction lt with
  | nil => rfl
  | cons q rest ih =>
    rw [ltFind_none, List.forall_mem_cons] at h
    obtain ⟨hne, hrest⟩ := h
    rw [ltPut, if_neg fun e => hne e.symm]
    split
    · rfl
    · rw [List.length_cons, ih (ltFind_none.mpr hrest), List.length_cons]

section Upsert

variable {s : State} {j k : Mac} {i : IfIdx} {row row' : LtRow}

theorem upsertTable_of_present (h : ltFind s.lt k = some row) :
    s.upsertTable k i = ltPut s.lt k { ifx := row.ifx, seen := s.now } := by
  rw [State.upsertTable, h]

theorem upsertTable_of_room (h : ltFind s.lt k = none) (hroom : s.ltHasRoom = true) :
    s.upsertTable k i = ltPut s.lt k { ifx := i, seen := s.now } := by
  simp only [State.upsertTable, h, if_pos hroom]

theorem upsertTable_of_full (h : ltFind s.lt k = none) (hfull : s.ltHasRoom ≠ true) : s.upsertTable k i = s.lt := by
  simp only [State.upsertTable, h, if_neg hfull]

theorem upsertTable_wf (hwf : Lt.wf s.lt) : Lt.wf (s.upsertTable k i) := by
  obtain e | ⟨row, -, e⟩ | ⟨-, e⟩ := upsertTable_cases s k i
  · exact e ▸ hwf
  · exact e ▸ ltPut_wf hwf k _
  · exact e ▸ ltPut_wf hwf k _

theorem upsertTable_length_le : (s.upsertTable k i).length ≤ s.lt.length + 1 := by
  obtain e | ⟨row, -, e⟩ | ⟨-, e⟩ := upsertTable_cases s k i
  · exact e ▸ Nat.le_succ _
  · exact e ▸ ltPut_length s.lt k _
  · exact e ▸ ltPut_length s.lt k _

theorem ltFind_upsertTable_other (hwf : Lt.wf s.lt) (hj : j ≠ k) : ltFind (s.upsertTable k i) j = ltFind s.lt j := by
  obtain e | ⟨row, -, e⟩ | ⟨-, e⟩ := upsertTable_cases s k i
  · rw [e]
  · rw [e, ltFind_ltPut_other hwf _ hj]
  · rw [e, ltFind_ltPut_other hwf _ hj]

/-- A station keeps the interface it was learned on (R263). -/
theorem upsertTable_keeps_ifx (hwf : Lt.wf s.lt) (hj : ltFind s.lt j = some row)
    (hj' : ltFind (s.upsertTable k i) j = some row') : row'.ifx = row.ifx := by
  by_cases hjk : j = k
  · subst hjk
    rw [upsertTable_of_present hj, ltFind_ltPut_same hwf] at hj'
    cases hj'
    rfl
  · rw [ltFind_upsertTable_other hwf hjk, hj] at hj'
    cases hj'
    rfl

end Upsert

/-- Settles O55: the three arms of R262, each one write of the table or none. -/
theorem upsertInsertsOrRefreshesOneRow : Obligations.UpsertInsertsOrRefreshesOneRow := by
  intro s k i hwf
  refine ⟨fun row hrow => ?_, fun hnone hroom => ?_, fun hnone hfull => ?_,
    fun j hj => ltFind_upsertTable_other hwf hj, upsertTable_wf hwf⟩
  · rw [upsertTable_of_present hrow]
    exact ⟨by rw [State.upsertOutcome, hrow], ltFind_ltPut_same hwf k _, ltPut_length_of_mem hwf _ (ltFind_some hrow)⟩
  · rw [← ltHasRoom_iff] at hroom
    rw [upsertTable_of_room hnone hroom]
    exact ⟨by simp only [State.upsertOutcome, hnone, if_pos hroom], ltFind_ltPut_same hwf k _,
      ltPut_length_of_absent _ hnone⟩
  · rw [← ltHasRoom_iff] at hfull
    exact ⟨by simp only [State.upsertOutcome, hnone, if_neg hfull], upsertTable_of_full hnone hfull⟩

/-! ## Transmission on several interfaces

As for one frame (`emitTx_endRx_transient`): what the operation holds in its transient state does not show. -/

theorem emitAll_endRx_transient (s : State) (g : Stage) (rxb : Bytes) (rxIf : IfIdx) (txb : Bytes) (w : Work) (b : Bytes)
    (l : List IfIdx) (r : Res) :
    (({ s with stage := g, rxb := rxb, rxIf := rxIf, txb := txb, work := w }).emitAll b l).endRx r =
      (s.emitAll b l).endRx r := by
  induction l generalizing s with
  | nil => rfl
  | cons i rest ih => exact ih (s.emitTx i b)

/-- The failures the transmit primitive reports do not depend on the table either. -/
theorem anyFail_transient (s : State) (lt : List (Mac × LtRow)) (g : Stage) (rxb : Bytes) (rxIf : IfIdx) (txb : Bytes)
    (w : Work) (b : Bytes) (l : List IfIdx) :
    ({ s with lt := lt, stage := g, rxb := rxb, rxIf := rxIf, txb := txb, work := w }).anyFail b l = s.anyFail b l := by
  induction l generalizing s with
  | nil => rfl
  | cons i rest ih => exact congrArg (!s.txOk || ·) (ih (s.emitTx i b))

/-! ## The ports of a flood -/

/-- The valid interfaces in ascending order. -/
def State.validPorts (s : State) : List IfIdx := ((List.range s.par.nIf).map (BitVec.ofNat 8)).filter s.ifValid

theorem validPorts_length (s : State) :
    s.validPorts.length = ((List.range s.par.nIf).filter fun i => s.ifValid (.ofNat 8 i)).length := by
  rw [State.validPorts, List.filter_map, List.length_map]
  rfl

theorem validPorts_length_le (s : State) : s.validPorts.length ≤ s.par.nIf := by
  rw [validPorts_length]
  exact (List.length_filter_le _ _).trans List.length_range.le

theorem mem_validPorts {s : State} {i : IfIdx} : i ∈ s.validPorts ↔ s.ifValid i = true := by
  rw [State.validPorts, List.mem_filter, and_iff_right_iff_imp]
  intro hi
  have hlt : i.toNat < s.par.nIf := by
    rw [State.ifValid, Bool.and_eq_true, decide_eq_true_eq] at hi
    exact hi.1
  exact List.mem_map.mpr ⟨i.toNat, List.mem_range.mpr hlt, by simp⟩

theorem validPorts_ascending {s : State} (hn : s.par.nIf ≤ 255) :
    s.validPorts.Pairwise fun i j => i.toNat < j.toNat := by
  refine List.Pairwise.filter _ (List.pairwise_map.mpr (List.pairwise_lt_range.imp_of_mem fun {a b} ha hb hab => ?_))
  rw [List.mem_range] at ha hb
  rwa [BitVec.toNat_ofNat, BitVec.toNat_ofNat, Nat.mod_eq_of_lt (by omega), Nat.mod_eq_of_lt (by omega)]

theorem validPorts_nodup {s : State} (hn : s.par.nIf ≤ 255) : s.validPorts.Nodup :=
  (validPorts_ascending hn).imp fun {i j} hij e => by simp [e] at hij

/-- A flood leaves by every valid interface but the ingress one (R266). -/
theorem floodPorts_eq_erase {s : State} (hn : s.par.nIf ≤ 255) (inIf : IfIdx) :
    s.floodPorts inIf = s.validPorts.erase inIf := by
  rw [(validPorts_nodup hn).erase_eq_filter, State.validPorts, List.filter_filter, State.floodPorts]
  refine List.filter_congr fun i _ => ?_
  rw [Bool.and_comm]
  simp [bne, beq_eq_decide]

theorem mem_floodPorts {s : State} (hn : s.par.nIf ≤ 255) {inIf i : IfIdx} :
    i ∈ s.floodPorts inIf ↔ s.ifValid i = true ∧ i ≠ inIf := by
  rw [floodPorts_eq_erase hn, (validPorts_nodup hn).mem_erase_iff, mem_validPorts, and_comm]

theorem floodPorts_ascending {s : State} (hn : s.par.nIf ≤ 255) (inIf : IfIdx) :
    (s.floodPorts inIf).Pairwise fun i j => i.toNat < j.toNat :=
  floodPorts_eq_erase hn inIf ▸ (validPorts_ascending hn).sublist List.erase_sublist

theorem floodPorts_length {s : State} (hn : s.par.nIf ≤ 255) {inIf : IfIdx} (hi : s.ifValid inIf = true) :
    (s.floodPorts inIf).length = s.validPorts.length - 1 := by
  rw [floodPorts_eq_erase hn, List.length_erase_of_mem (mem_validPorts.mpr hi)]

/-! ## RX in SWITCH personality -/

section Rx

variable {s : State} {inIf : IfIdx} {F : Bytes}

/-- RX ends at the admission tests with a result and nothing else, or the frame is admitted (R201, R261). -/
theorem exec_rx_refused_or_admitted (s : State) (inIf : IfIdx) (F : Bytes) :
    (∃ c, exec (.rx inIf F) s = .next (s.endRx (Res.plain c))) ∨ s.Admits inIf F := by
  obtain ⟨g, k, hrx⟩ := exec_rx_admission s inIf F
  obtain ⟨c, e⟩ | ⟨hp, hi, hmin, hmax, -⟩ := admission_cases { s.loadRx inIf F with stage := g } k
  · exact .inl ⟨c, hrx.trans e⟩
  · exact .inr ⟨hp, hi, hmin, hmax⟩

theorem admission_of_admits (h : s.Admits s.rxIf s.rxb) (k : Outc) : admission s k = k := by
  obtain ⟨hp, hi, hmin, hmax⟩ := h
  rw [admission, if_neg (by simp [hp]), if_neg (by simp [hi]), State.rxLen, if_neg (by omega)]

/-- The state forward-or-flood meets: the frame loaded, both addresses read, the source upserted (R260). -/
def State.learned (s : State) (inIf : IfIdx) (F : Bytes) : State :=
  { s.loadRx inIf F with
    lt := s.upsertTable (.ofNat 48 (field F 6 6)) inIf
    work := { Work.blank with smac := .ofNat 48 (field F 6 6), dmac := .ofNat 48 (field F 0 6) } }

theorem learned_emitAll_endRx (s : State) (inIf : IfIdx) (F : Bytes) (l : List IfIdx) (r : Res) :
    (({ s.learned inIf F with txb := F }).emitAll F l).endRx r =
      (({ s with lt := s.upsertTable (.ofNat 48 (field F 6 6)) inIf }).emitAll F l).endRx r :=
  emitAll_endRx_transient { s with lt := _ } s.stage F inIf F (s.learned inIf F).work F l r

theorem learned_anyFail (s : State) (inIf : IfIdx) (F : Bytes) (l : List IfIdx) :
    ({ s.learned inIf F with txb := F }).anyFail F l = s.anyFail F l :=
  anyFail_transient s (s.learned inIf F).lt s.stage F inIf F (s.learned inIf F).work F l

theorem State.Admits.exec_rx_switch (h : s.Admits inIf F) (hm : s.mode = .switch) :
    exec (.rx inIf F) s = switchForward (s.upsertOutcome (.ofNat 48 (field F 6 6))) (s.learned inIf F) := by
  have hloaded : (s.loadRx inIf F).Admits (s.loadRx inIf F).rxIf (s.loadRx inIf F).rxb := h
  obtain ⟨-, -, hmin, -⟩ := id hloaded
  change execRx inIf F s = _
  rw [execRx, hm]
  change switchRx (s.loadRx inIf F) = _
  rw [switchRx, admission_of_admits hloaded, withRead_in (by omega), withRead_in (by omega)]
  rfl

/-- R264: the learned interface alone. -/
theorem exec_rx_directed {row : LtRow} (hm : s.mode = .switch) (h : s.Admits inIf F)
    (hrow : ltFind (s.upsertTable (.ofNat 48 (field F 6 6)) inIf) (.ofNat 48 (field F 0 6)) = some row) :
    exec (.rx inIf F) s =
      .next ((({ s with lt := s.upsertTable (.ofNat 48 (field F 6 6)) inIf }).emitTx row.ifx F).endRx
        (Res.switched .swDirected 1 (!s.txOk) (s.upsertOutcome (.ofNat 48 (field F 6 6))))) := by
  have hfind : ltFind (s.learned inIf F).lt (s.learned inIf F).work.dmac = some row := hrow
  rw [h.exec_rx_switch hm, switchForward]
  simp only [hfind]
  rfl

/-- R266: every valid interface but the ingress one. -/
theorem exec_rx_flooded (hm : s.mode = .switch) (h : s.Admits inIf F)
    (hnone : ltFind (s.upsertTable (.ofNat 48 (field F 6 6)) inIf) (.ofNat 48 (field F 0 6)) = none) :
    exec (.rx inIf F) s =
      .next ((({ s with lt := s.upsertTable (.ofNat 48 (field F 6 6)) inIf }).emitAll F (s.floodPorts inIf)).endRx
        (Res.switched .swFlooded (s.floodPorts inIf).length (s.anyFail F (s.floodPorts inIf))
          (s.upsertOutcome (.ofNat 48 (field F 6 6))))) := by
  have hfind : ltFind (s.learned inIf F).lt (s.learned inIf F).work.dmac = none := hnone
  rw [h.exec_rx_switch hm, switchForward]
  simp only [hfind]
  rw [← learned_anyFail s inIf F, ← learned_emitAll_endRx s inIf F]
  rfl

end Rx

/-- Settles O56: `exec_rx_directed`, which asks nothing of the row's age or of the ingress interface. -/
theorem switchForwardsDirected : Obligations.SwitchForwardsDirected :=
  fun _ _ _ _ hm h hrow => exec_rx_directed hm h hrow

/-- Settles O57: the ports are those of `exec_rx_flooded`. -/
theorem switchFloodsUnknownDestinations : Obligations.SwitchFloodsUnknownDestinations :=
  fun s inIf _ hm h hn hnone =>
    ⟨s.floodPorts inIf, fun _ => mem_floodPorts hn, floodPorts_ascending hn inIf, exec_rx_flooded hm h hnone⟩

/-! ## The frame of the operation -/

/-- One form for all that RX can do in SWITCH personality: LT as it was or after the upsert of the source, the received
frame on 0, 1 or N - 1 interfaces, and one result that counts them. -/
theorem exec_rx_switch_cases {s : State} (inIf : IfIdx) (F : Bytes) (hm : s.mode = .switch) (hn : s.par.nIf ≤ 255) :
    ∃ lt ports r, exec (.rx inIf F) s = .next ((({ s with lt := lt }).emitAll F ports).endRx r) ∧
      (lt = s.lt ∨ lt = s.upsertTable (.ofNat 48 (field F 6 6)) inIf) ∧
      (ports.length = 0 ∨ ports.length = 1 ∨ ports.length = s.validPorts.length - 1) ∧
      r.txCount = .ofNat 8 ports.length := by
  obtain ⟨c, e⟩ | h := exec_rx_refused_or_admitted s inIf F
  · exact ⟨s.lt, [], _, e, .inl rfl, .inl rfl, rfl⟩
  · cases hd : ltFind (s.upsertTable (.ofNat 48 (field F 6 6)) inIf) (.ofNat 48 (field F 0 6)) with
    | some row => exact ⟨_, [row.ifx], _, exec_rx_directed hm h hd, .inr rfl, .inr (.inl rfl), rfl⟩
    | none =>
      obtain ⟨-, hi, -⟩ := id h
      exact ⟨_, _, _, exec_rx_flooded hm h hd, .inr rfl, .inr (.inr (floodPorts_length hn hi)), rfl⟩

/-- Settles O58: read off `exec_rx_switch_cases`; no port list is longer than the 8-bit `tx_count` can say. -/
theorem switchRxFrame : Obligations.SwitchRxFrame := by
  intro s t inIf F hm hwf hn ht N
  obtain ⟨lt, ports, r, hrx, hlt, hports, hcount⟩ := exec_rx_switch_cases inIf F hm hn
  obtain rfl := Host.Outcome.next.inj (hrx.symm.trans ht)
  have hsent : s.sent ((({ s with lt := lt }).emitAll F ports).endRx r) = ports.map fun i => ⟨i, F⟩ := by
    simp [State.sent]
  have hN : s.validPorts.length = N := validPorts_length s
  have hsmall : ports.length < 2 ^ 8 := by
    have := validPorts_length_le s
    omega
  rw [hN] at hports
  rw [hsent, List.length_map, endRx_lt, emitAll_lt]
  refine ⟨by simp [State.sameConfig], by simp, by simp, by simp, by simp,
    ⟨r, by simp, by rw [hcount, BitVec.toNat_ofNat, Nat.mod_eq_of_lt hsmall]⟩, hports, ?_⟩
  have hbytes : ∀ x ∈ ports.map fun i => (⟨i, F⟩ : Tx), x.bytes = F := by simp
  obtain rfl | rfl := hlt
  · exact ⟨Nat.le_succ _, fun _ _ => rfl, fun j row row' hj hj' => by cases hj.symm.trans hj'; rfl, hbytes⟩
  · exact ⟨upsertTable_length_le, fun j hj => ltFind_upsertTable_other hwf hj,
      fun j row row' hj hj' => upsertTable_keeps_ifx hwf hj hj', hbytes⟩

end Sys2Proof.Machine
end

section
/-! Time and the sweep (46_expiration.md): TICK (R280 to R283, R286), SWEEP.DEL (R284, R285), and that a learned row leaves
only as a pending victim (R285, R269). -/

namespace Sys2Proof.Machine

/-! ## TICK -/

section Tick

variable {s : State}

theorem execTick_between_sweeps (hv : s.victims = []) (hn : (s.now + 1) % sweepTicks s.par ≠ 0) :
    execTick s = .next (({ s with now := s.now + 1 }).result (Res.plain .done)) := by
  rw [execTick, if_pos hv]
  dsimp only
  rw [if_neg hn]

theorem execTick_at_sweep (hv : s.victims = []) (hn : (s.now + 1) % sweepTicks s.par = 0) :
    execTick s =
      .next (({ s with now := s.now + 1, victims := s.snapshot (s.now + 1) }).result (Res.plain .done)) := by
  rw [execTick, if_pos hv]
  dsimp only
  rw [if_pos hn]
  rfl

theorem execTick_waits (hv : s.victims ≠ []) : execTick s = .next s := if_neg hv

end Tick

theorem sweepTicks_eq (p : Params) : sweepTicks p = p.ticksPerSec := Nat.one_mul _

/-- Settles O59: the three cases of TICK; the keys latched at a sweep timer event are those of the snapshot. -/
theorem tickCountsAndSnapshots : Obligations.TickCountsAndSnapshots := by
  refine fun s => ⟨fun hv hn => execTick_between_sweeps hv ?_, fun hv hn => ⟨_, execTick_at_sweep hv ?_, ?_⟩,
    execTick_waits⟩
  · rwa [sweepTicks_eq]
  · rwa [sweepTicks_eq]
  · exact fun _ => mem_snapshot

/-! ## SWEEP.DEL -/

theorem execSweepDel_of_mem {s : State} {k : Mac} (hk : k ∈ s.victims) :
    execSweepDel k s = .next { s with lt := ltErase s.lt k, victims := s.victims.filter (· ≠ k) } := if_pos hk

/-- Settles O60: one row and one key go, whatever the row's age (`execSweepDel_of_mem`). -/
theorem sweepDelRemovesALatchedRow : Obligations.SweepDelRemovesALatchedRow := by
  intro s k hk
  exact ⟨_, execSweepDel_of_mem hk, rfl, ltFind_ltErase_same s.lt k, fun _ => ltFind_ltErase_other, by simp⟩

/-! ## Rows of LT over one step -/

/-- LT_UPSERT on the key of a row, or on another key, keeps that row's interface and makes it no older (R262, R263). -/
theorem upsertTable_keeps_row {s : State} {j k : Mac} {i : IfIdx} {row : LtRow} (hwf : Lt.wf s.lt)
    (hseen : row.seen ≤ s.now) (hrow : ltFind s.lt j = some row) :
    ∃ row', ltFind (s.upsertTable k i) j = some row' ∧ row'.ifx = row.ifx ∧ row.seen ≤ row'.seen := by
  by_cases hjk : j = k
  · subst hjk
    rw [upsertTable_of_present hrow]
    exact ⟨_, ltFind_ltPut_same hwf _ _, rfl, hseen⟩
  · rw [ltFind_upsertTable_other hwf hjk]
    exact ⟨row, hrow, rfl, le_rfl⟩

/-- Settles O22: of all a step can do (`step_effect`), LT_UPSERT keeps the row and only SWEEP.DEL, which needs a pending
victim, takes one away. -/
theorem rowsLeaveOnlyAsVictims : Obligations.RowsLeaveOnlyAsVictims := by
  intro s t hinv h hr j row hrow
  cases step_effect h hr with
  | ports | config | rx | tick => exact .inl ⟨row, hrow, rfl, le_rfl⟩
  | learn => exact .inl (upsertTable_keeps_row hinv.ltKeys (hinv.ltSeen _ (ltFind_some hrow)) hrow)
  | @sweepDel k hk =>
    by_cases hjk : j = k
    · subst hjk
      exact .inr ⟨ltFind_ltErase_same s.lt j, hk⟩
    · exact .inl ⟨row, (ltFind_ltErase_other hjk).trans hrow, rfl, le_rfl⟩

end Sys2Proof.Machine
end

section
/-! Reset (R340, R42): what the reset input does from any state, and that without it the phases LIVE and FAILED stay. -/

namespace Sys2Proof.Machine

/-- R340: the reset input goes before anything else a step could do, at a stage of an RX operation or between operations. -/
theorem step_resets {s : State} (hr : s.env.resetIn = true) : step s = .next s.applyReset := if_pos hr

@[simp] theorem applyReset_env (s : State) : s.applyReset.env = { s.env with resetIn := false } := rfl

theorem applyReset_ifSlot (s : State) (i : IfIdx) : s.applyReset.ifSlot i = IfSlot.undefined :=
  ifSlot_resetWith s.par i

theorem applyReset_phase (s : State) : s.applyReset.phase = .config :=
  phase_config.mpr ⟨applyReset_cfgErr s, applyReset_live s⟩

/-- The phase is read off LIVE and CFG_ERR, which are frozen outside CONFIG (R26, R30). -/
theorem step_keeps_phase {s t : State} (h : step s = .next t) (hr : s.env.resetIn = false) (hp : s.phase ≠ .config) :
    t.phase = s.phase := by
  obtain ⟨-, hlive, herr⟩ := configurationIsFrozenOutsideConfig s t h hr hp
  rw [State.phase, hlive, herr, State.phase]

/-- Settles O14: `step_keeps_phase` without reset; with it the step is `applyReset`, field by field. -/
theorem resetInputRestoresReset : Obligations.ResetInputRestoresReset := by
  refine ⟨fun s t => step_keeps_phase, fun s hr => ⟨s.applyReset, step_resets hr, applyReset_mode s, applyReset_live s,
    applyReset_cfgErr s, fun i => ?_, applyReset_rt s, applyReset_arp s, applyReset_lt s, applyReset_now s,
    applyReset_victims s, applyReset_stage s, applyReset_phase s, applyReset_par s, applyReset_out s, applyReset_env s⟩⟩
  rw [applyReset_ifSlot]
  rfl

end Sys2Proof.Machine
end
